-- ==== Sys2Proof/Word.lean ====
section
/-! DEFINITION. The two word types of CORE: a byte of the wire or of a buffer, and the 32-bit command
argument (spec 00 R11). Every other quantity is a natural number, as R10 and R157 state the rules. -/

namespace Sys2Proof

/-- A byte (R11). -/
abbrev Byte := BitVec 8

/-- The 32-bit command argument (R9 ARG_BITS, R21 `arg`). -/
abbrev Word32 := BitVec 32

end Sys2Proof
end

