-- ==== Sys2Proof/Config.lean ====
section
/-! DEFINITION. The constants the source fixes (R9), the parameters it leaves open (R10), and the free values
(opaque constants without a body: no proof can learn anything of them). -/

namespace Sys2Proof

/-- FRAME_LEN (R9): bytes of a command frame. -/
def Config.frameLen : Nat := 6
/-- IDLE (R9, R75): the idle-fill byte. -/
def Config.idleByte : Byte := 0xFF
/-- RSP_MAX_DELAY (R9): bytes of the response scan window. -/
def Config.rspMaxDelay : Nat := 8
/-- TOK_START_SINGLE (R9, R76). -/
def Config.tokStartSingleByte : Byte := 0xFE
/-- TOK_START_MULTI_WR (R9, R76). -/
def Config.tokStartMultiWrByte : Byte := 0xFC
/-- TOK_STOP (R9, R76). -/
def Config.tokStopByte : Byte := 0xFD
/-- MAX_BLOCK (R9): the largest payload of one block. -/
def Config.maxBlock : Nat := 512
/-- BLOCK_SIZE_MAX (R9): the largest legal `block_size`; the smallest is 1. -/
def Config.blockSizeMax : Nat := 2048

/-- Which function one of the CRC primitives is (R10 `crc7`, `crc16`; R57). `standard` is the spec's default, the SD
CRC. `other n` is any other function: it is opaque. -/
inductive CrcChoice where
  | standard
  | other (n : Nat)
deriving DecidableEq, Repr

/-- The fields of the host port: those of a request (R21), those of the result (R22), the two sizes (R25, R26) and the
two counters (R27, R28).
DESIGN CHOICE, log entry 23: the sizes are among them. R25 gives the caller read access to `buffer_size` and R26 shows
it `block_size`; R24, R218 and R240 let it see of `S` the counters only. No rule depends on the map (R63). -/
inductive HostField where
  | op
  | index
  | arg
  | sel
  | flags
  | buf
  | dataLen
  | blockLength
  | timeout
  | nBytes
  | cfgBufferSize
  | cfgBlockSize
  | outcome
  | frame
  | response
  | status
  | bytesTransferred
  | errInfo
  | bufferSize
  | blockSize
  | txSentBuffers
  | rxGotBytes
deriving DecidableEq, Repr

/-- A map of the host port's fields onto addresses of a bus (R63). -/
abbrev HostIfMap := List (HostField × Nat)

/-- The parameters of R10 as plain data. -/
structure Params where
  /-- IDX_IN_W, the width of the `index` operand. -/
  idxInW : Nat
  /-- CNT_W, the width of the two counters. -/
  cntW : Nat
  /-- SIZE_W, the width of `buffer_size` and `block_size`. -/
  sizeW : Nat
  /-- LEN_W, the width of lengths. -/
  lenW : Nat
  /-- CREDIT_W, the width of the two credit counts. -/
  creditW : Nat
  /-- TIMEOUT_W, the width of the timeout budget. -/
  timeoutW : Nat
  /-- The function `crc7`. -/
  crc7 : CrcChoice
  /-- The function `crc16`. -/
  crc16 : CrcChoice
  /-- DRESP_ACCEPT as a table: bit `b` says whether the data-response byte `b` is accepted (R78). -/
  drespAccept : BitVec 256
  /-- FATAL_MASK as a table over the 64 legal command indices (R170). -/
  fatalMask : Vector Byte 64
  /-- HOST_IF_MAP: how the host port's fields map onto a bus, if they do. No rule depends on it (R63). -/
  hostIfMap : Option HostIfMap
deriving DecidableEq, Repr

/-- The defaults of R10. The acceptance table has bit `b` set exactly when `b & 0x1F = 0x05` (R78); the fatal mask is
0xFE for every index (R170). There is no bus. -/
def Params.default : Params where
  idxInW := 8
  cntW := 32
  sizeW := 16
  lenW := 32
  creditW := 32
  timeoutW := 32
  crc7 := .standard
  crc16 := .standard
  drespAccept := 0x0000002000000020000000200000002000000020000000200000002000000020
  fatalMask := Vector.replicate 64 0xFE
  hostIfMap := none

/-- The `crc7` of a collaborator other than the standard one (R57: a pure function, nothing else is assumed). -/
opaque Config.otherCrc7 : Nat → List Byte → BitVec 7

/-- The `crc16` of a collaborator other than the standard one (R57). -/
opaque Config.otherCrc16 : Nat → List Byte → BitVec 16

/-- The byte the slave sends in draw `n`, where no scripted answer is left (R53, U11: any byte at every position). -/
opaque Config.slaveByte : Nat → Byte

/-- The credit figure of draw `n`, where no scripted answer is left (R58, U12: a free draw under no law). -/
opaque Config.creditCount : Nat → Nat

/-- The buffer byte of draw `n` left behind by a failed read (R68, U5: any value). -/
opaque Config.spoiledByte : Nat → Byte

end Sys2Proof
end

