-- ==== Sys2Proof/Syntax.lean ====
section
/-! DEFINITION. The instructions: one constructor per row of spec/opcode_table.json, eighteen operation requests
(R90) and ten wire formats (R70). The raw request at the host port (R21, R90) is here too. -/

namespace Sys2Proof

/-- The response-format selector (R81). -/
inductive Sel where
  | none
  | r1
  | r4
  | r5
deriving DecidableEq, Repr

/-- The descriptor flag set (R23, R82). -/
structure Flags where
  data : Bool
  write : Bool
  multi : Bool
  noresp : Bool
deriving DecidableEq, Repr

/-- The operands of TRANSFER (R125). `buf` is the reference to the caller's buffer, the address of its byte 0 in the
caller's memory, or null. -/
structure XferArgs where
  buf : Option Nat
  dataLen : Nat
  blockLength : Nat
  timeout : Nat
deriving DecidableEq, Repr

/-- The command descriptor of EXECUTE (R165). -/
structure Descriptor where
  index : Nat
  arg : Word32
  sel : Sel
  flags : Flags
  buf : Option Nat
  dataLen : Nat
  blockLength : Nat
  timeout : Nat
deriving DecidableEq, Repr

/-- One constructor per row of spec/opcode_table.json. The first eighteen are operation requests. The last ten are the
wire formats: the item CORE sends, or has just received, in a wire phase of R185. -/
inductive Instr where
  /-- ENCODE (R101). -/
  | encode (index : Nat) (arg : Word32)
  /-- DECODE.NONE (R111). -/
  | decodeNone
  /-- DECODE.R1 (R112). -/
  | decodeR1
  /-- DECODE.R4 (R113). -/
  | decodeR4
  /-- DECODE.R5 (R114). -/
  | decodeR5
  /-- XFER.WR.SINGLE (R127). -/
  | xferWrSingle (x : XferArgs)
  /-- XFER.WR.MULTI (R128). -/
  | xferWrMulti (x : XferArgs)
  /-- XFER.RD.SINGLE (R129). -/
  | xferRdSingle (x : XferArgs)
  /-- XFER.RD.MULTI (R130). -/
  | xferRdMulti (x : XferArgs)
  /-- EXECUTE (R165). -/
  | execute (d : Descriptor)
  /-- RESERVE_SEND (R151). -/
  | reserveSend (nBytes : Nat)
  /-- RESERVE_RECV (R152). -/
  | reserveRecv (nBytes : Nat)
  /-- COMMIT_SEND (R153). -/
  | commitSend (nBytes : Nat)
  /-- COMMIT_RECV (R154). -/
  | commitRecv (nBytes : Nat)
  /-- FC_RESET (R155). -/
  | fcReset
  /-- CONFIG (R156). -/
  | config (bufferSize blockSize : Nat)
  /-- RESERVED.A_B (R88): `op` is 0xA plus `b`. -/
  | reservedAB (b : BitVec 1)
  /-- RESERVED.C_F (R88): `op` is 0xC plus `b`. -/
  | reservedCF (b : BitVec 2)
  /-- CMD_FRAME (R71): the frame with its three variable fields. -/
  | cmdFrame (index : BitVec 6) (arg : Word32) (crc : BitVec 7)
  /-- IDLE (R75). -/
  | idle
  /-- TOK_START_SINGLE (R76). -/
  | tokStartSingle
  /-- TOK_START_MULTI_WR (R76). -/
  | tokStartMultiWr
  /-- TOK_STOP (R76). -/
  | tokStop
  /-- DATA_BLOCK (R77): the payload and the block CRC. -/
  | dataBlock (payload : List Byte) (crc : BitVec 16)
  /-- DATA_RESP (R78). -/
  | dataResp (d : Byte)
  /-- RSP_R1 (R79, R80): the status byte, which is the marker. -/
  | rspR1 (marker : Byte)
  /-- RSP_R4 (R79): the marker and four raw bytes. -/
  | rspR4 (marker p1 p2 p3 p4 : Byte)
  /-- RSP_R5 (R79): the marker and one raw byte. -/
  | rspR5 (marker p1 : Byte)
deriving DecidableEq, Repr

/-- The operation request as it stands at the host port: the 16-bit control word and the operand fields of R21. -/
structure PortRequest where
  ctl : BitVec 16
  index : Nat
  arg : Word32
  buf : Option Nat
  dataLen : Nat
  blockLength : Nat
  timeout : Nat
  nBytes : Nat
  cfgBufferSize : Nat
  cfgBlockSize : Nat
deriving DecidableEq, Repr

/-- A request with the given control word and every operand field zero or null. -/
def PortRequest.ofCtl (ctl : BitVec 16) : PortRequest :=
  { ctl := ctl, index := 0, arg := 0, buf := Option.none, dataLen := 0, blockLength := 0, timeout := 0,
    nBytes := 0, cfgBufferSize := 0, cfgBlockSize := 0 }

/-- The ten wire formats (R70). What is expected on the wire says which format the next bytes have. -/
inductive WireFormat where
  | cmdFrame
  | idle
  | tokStartSingle
  | tokStartMultiWr
  | tokStop
  | dataBlock
  | dataResp
  | rspR1
  | rspR4
  | rspR5
deriving DecidableEq, Repr

/-- An encoded instruction: a request at the host port, or bytes on the wire in a known format. -/
inductive Encoding where
  | request (r : PortRequest)
  | wire (f : WireFormat) (bytes : List Byte)
deriving DecidableEq, Repr

end Sys2Proof
end

