-- ==== Sys2Proof/WellFormed.lean ====
section
/-! DEFINITION. Which parameters a machine may have (R10), and which instructions can be presented: every operand fits
the width of its port field (R10, R21), a data block has 1 to 512 payload bytes (R77), a response's marker is not the
idle-fill byte (R79, R86). -/

namespace Sys2Proof

/-- What R10 asks of two widths: IDX_IN_W is more than 6, so that an index that exceeds 6 bits can be presented, and
SIZE_W holds the largest legal `block_size`. -/
abbrev Params.legal (p : Params) : Prop := 6 < p.idxInW ∧ Config.blockSizeMax < 2 ^ p.sizeW

/-- `v` fits `w` bits. -/
def fits (w v : Nat) : Bool := decide (v < 2 ^ w)

/-- The operands of TRANSFER fit LEN_W and TIMEOUT_W. -/
def XferArgs.wf (p : Params) (x : XferArgs) : Bool :=
  fits p.lenW x.dataLen && fits p.lenW x.blockLength && fits p.timeoutW x.timeout

/-- The descriptor's fields fit their widths. -/
def Descriptor.wf (p : Params) (d : Descriptor) : Bool :=
  fits p.idxInW d.index && fits p.lenW d.dataLen && fits p.lenW d.blockLength && fits p.timeoutW d.timeout

/-- An instruction whose operands the host port, or the wire, can carry. -/
def Instr.wf (p : Params) : Instr → Bool
  | .encode index _ => fits p.idxInW index
  | .decodeNone => true
  | .decodeR1 => true
  | .decodeR4 => true
  | .decodeR5 => true
  | .xferWrSingle x => x.wf p
  | .xferWrMulti x => x.wf p
  | .xferRdSingle x => x.wf p
  | .xferRdMulti x => x.wf p
  | .execute d => d.wf p
  | .reserveSend n => fits p.lenW n
  | .reserveRecv n => fits p.lenW n
  | .commitSend n => fits p.lenW n
  | .commitRecv n => fits p.lenW n
  | .fcReset => true
  | .config bs bk => fits p.sizeW bs && fits p.sizeW bk
  | .reservedAB _ => true
  | .reservedCF _ => true
  | .cmdFrame _ _ _ => true
  | .idle => true
  | .tokStartSingle => true
  | .tokStartMultiWr => true
  | .tokStop => true
  | .dataBlock payload _ => decide (1 ≤ payload.length) && decide (payload.length ≤ Config.maxBlock)
  | .dataResp _ => true
  | .rspR1 m => m != Config.idleByte
  | .rspR4 m _ _ _ _ => m != Config.idleByte
  | .rspR5 m _ => m != Config.idleByte

end Sys2Proof
end

