-- ==== Sys2Proof/Machine/State.lean ====
section
/-! DEFINITION. Everything the spec gives the machine, as plain data (spec 10), with the inputs the host and the
collaborators supply (`Env`) and the parameters (`params`), and the state after hardware reset (R37). -/

namespace Sys2Proof.Machine

/-- The ten operations, in the order of their codes (R90). -/
inductive Op where
  | encode
  | decode
  | transfer
  | execute
  | reserveSend
  | reserveRecv
  | commitSend
  | commitRecv
  | fcReset
  | config
deriving DecidableEq, Repr

/-- The latched request (R21, R67): the operand registers of the running operation. -/
structure Request where
  op : Op
  index : Nat
  arg : Word32
  sel : Sel
  flags : Flags
  buf : Option Nat
  dataLen : Nat
  blockLength : Nat
  timeout : Nat
  nBytes : Nat
  cfgBufferSize : Nat
  cfgBlockSize : Nat
deriving DecidableEq, Repr

/-- No request latched (R20, R37). -/
def Request.blank : Request :=
  { op := .encode, index := 0, arg := 0, sel := .none,
    flags := { data := false, write := false, multi := false, noresp := false },
    buf := Option.none, dataLen := 0, blockLength := 0, timeout := 0, nBytes := 0, cfgBufferSize := 0,
    cfgBlockSize := 0 }

/-- The sequencer phase, this block's program counter (R30, R185). The counters that are arguments here (`k` window
bytes pulled, `r` response bytes to come, `p` polls left, block `j`, byte `i`, `low` the second CRC byte) are the ones
R31 and R32 list, stored in this one place. -/
inductive Phase where
  | idle
  | frame
  | rspScan (k : Nat)
  | rspRest (r : Nat)
  | status
  | wReady (p : Nat)
  | wToken
  | wData (j i : Nat)
  | wCrc (j : Nat) (low : Bool)
  | wDresp (j : Nat)
  | wStop
  | wBusy (p : Nat)
  | rPoll (j p : Nat)
  | rData (j i : Nat)
  | rCrc (j : Nat) (low : Bool)
  | done
deriving DecidableEq, Repr

/-- The part of the block transfer state (R31) that neither the request nor the phase holds: the number of blocks, the
payload bytes of completed blocks, the block being moved (R52) and the first CRC byte of a block being read. -/
structure BlockXfer where
  nblocks : Nat
  doneBytes : Nat
  held : List Byte
  crcHi : Byte
deriving DecidableEq, Repr

/-- No block transfer (R37). -/
def BlockXfer.blank : BlockXfer := { nblocks := 0, doneBytes := 0, held := [], crcHi := 0 }

/-- The R1 status as eight flags (R33). -/
structure RStatus where
  idle : Bool
  eraseReset : Bool
  illegalCommand : Bool
  crcError : Bool
  eraseSequenceError : Bool
  addressError : Bool
  parameterError : Bool
  noResponse : Bool
deriving DecidableEq, Repr

/-- The collaborators whose calls can end in an error (R201). -/
inductive Collab where
  | transfer
  | crc7
  | crc16
  | credit
deriving DecidableEq, Repr

/-- The outcome of an operation: success or one failure kind with what it carries, its `err_info` (R22, R200, R201). -/
inductive OpOutcome where
  | success
  | ok
  | invalidCommand
  | responseTimeout
  | blockTimeout
  | crcMismatch
  | blockTooLarge
  | insufficientCredit
  | statusError (bits : Byte)
  | collaboratorError (collab : Collab) (phase : Phase) (code : Nat)
deriving DecidableEq, Repr

/-- The result registers (R22). `none` is the spec's "holds no value". -/
structure Results where
  outcome : Option OpOutcome
  frame : Option (List Byte)
  response : Option (List Byte)
  status : Option RStatus
  bytesTransferred : Option Nat
deriving DecidableEq, Repr

/-- No result register holds a value (R37). -/
def Results.blank : Results :=
  { outcome := none, frame := none, response := none, status := none, bytesTransferred := none }

/-- The flow-control state `S` (R24 to R29). -/
structure FlowControl where
  bufferSize : Nat
  blockSize : Nat
  txSentBuffers : Nat
  rxGotBytes : Nat
  configured : Bool
deriving DecidableEq, Repr

/-- `S` after hardware reset (R37). The sizes have no value there; the zeros are a DESIGN CHOICE (log entry 2). -/
def FlowControl.reset : FlowControl :=
  { bufferSize := 0, blockSize := 0, txSentBuffers := 0, rxGotBytes := 0, configured := false }

/-- What the slave answers in one byte exchange: a byte, or the raw transfer primitive's error (R53, R56, R209). -/
inductive WireAnswer where
  | byte (b : Byte)
  | error (code : Nat)
deriving DecidableEq, Repr

/-- What the credit collaborator answers to one read: a count, or its error (R58, R209). -/
inductive CreditAnswer where
  | count (n : Nat)
  | error (code : Nat)
deriving DecidableEq, Repr

/-- The inputs CORE does not control: the requests the host presents (R191, the head is at the port), the hardware
reset signal (R240), the coming answers of the slave, of the credit collaborator and of the CRC primitives (an entry
`some code` is a call that ends in an error), and the number of the next free value. -/
structure Env where
  port : List PortRequest
  resetLine : Bool
  slave : List WireAnswer
  credit : List CreditAnswer
  crcErrs : List (Option Nat)
  draws : Nat
deriving DecidableEq, Repr

/-- No input waiting. -/
def Env.quiet : Env := { port := [], resetLine := false, slave := [], credit := [], crcErrs := [], draws := 0 }

/-- The caller's memory, in which the data buffers lie (R51): a list of cells with rising addresses, none of them
holding what an unlisted address reads as. -/
abbrev Memory := List Host.Cell

/-- The machine. -/
structure State where
  /-- The parameters of R10; no step changes them (log entry 1). -/
  params : Params
  /-- The flow-control state (R24). -/
  fc : FlowControl
  /-- The latched request (R21). -/
  req : Request
  /-- The sequencer phase (R30). -/
  phase : Phase
  /-- The block transfer state (R31). -/
  bx : BlockXfer
  /-- The response bytes collected so far (R32). -/
  resp : List Byte
  /-- The result registers (R22). -/
  results : Results
  /-- The wire trace, ghost state (R39, R53): pairs of the byte sent and the byte received. -/
  trace : List (Byte × Byte)
  /-- The caller's memory (R51). -/
  mem : Memory
  /-- The inputs. -/
  env : Env
deriving DecidableEq, Repr

/-- The state after hardware reset (R37, R230), with the parameters at their defaults (R10), nothing in the caller's
memory and no input waiting. -/
def State.reset : State where
  params := Params.default
  fc := FlowControl.reset
  req := Request.blank
  phase := .idle
  bx := BlockXfer.blank
  resp := []
  results := Results.blank
  trace := []
  mem := []
  env := Env.quiet

/-- Why the machine stops outside the specified behaviour. -/
inductive Fault where
  /-- Raised by COMMIT_SEND, COMMIT_RECV and the per-block commit when the sum does not fit CNT_W bits (R153, R154,
  U3). Safe: the model stops where the hardware goes on in an unspecified way. -/
  | counterOverflow
  /-- Raised by the step when hardware reset is asserted while an operation runs (R232, U4). Safe. -/
  | resetDuringOperation
  /-- Raised by the step when a request's operand does not fit its port field (R10, U3). Safe. -/
  | operandTooWide
  /-- Raised by the meaning of a wire format executed in a phase that neither sends nor expects it. No step does so.
  Safe. -/
  | wireItemOutOfPhase
  /-- Raised by the step when the bytes collected for a wire item do not decode. No state that meets the invariant
  does so. Safe. -/
  | wireItemUndecodable
deriving DecidableEq, Repr

/-- Why an instruction is refused. -/
inductive Refusal where
  /-- Raised by `exec` for an instruction without a meaning. Safe. No arm does so. -/
  | notModelled (mnemonic : String)
deriving DecidableEq, Repr

end Sys2Proof.Machine
end

