-- ==== Sys2Proof/Machine/Flags.lean ====
section
/-! DEFINITION. The flag computations: the R1 status flags (R80, R115), the fatal-status check (R170) and the
data-response acceptance (R78). -/

namespace Sys2Proof.Machine

/-- `FLAGS(m)` (R80, R115): flag `k` is bit `k` of the marker byte. -/
def rStatus (m : Byte) : RStatus where
  idle := m.getLsbD 0
  eraseReset := m.getLsbD 1
  illegalCommand := m.getLsbD 2
  crcError := m.getLsbD 3
  eraseSequenceError := m.getLsbD 4
  addressError := m.getLsbD 5
  parameterError := m.getLsbD 6
  noResponse := m.getLsbD 7

/-- `FATAL_MASK(index)` (R10, R170). Indices above 63 never get as far (R166 V1). -/
def fatalMask (p : Params) (index : Nat) : Byte := p.fatalMask.toList.getD index 0xFE

/-- Whether an R1 status byte is fatal for the command (R170). -/
def isFatal (p : Params) (index : Nat) (m : Byte) : Bool := (m &&& fatalMask p index) != 0

/-- `DRESP_ACCEPT(d)` (R10, R78). -/
def drespAccepted (p : Params) (d : Byte) : Bool := p.drespAccept.getLsbD d.toNat

end Sys2Proof.Machine
end

