-- ==== Sys2Proof/Decode.lean ====
section
/-! DEFINITION. The decoder of requests and of wire formats, total and rejecting by name, and after it the encoder,
both written from spec/30_encoding.md. -/

namespace Sys2Proof

/-- Why bits are no instruction. -/
inductive DecodeError where
  /-- `ctl[15:10]` is not zero (R88). The request is then refused with InvalidCommand. -/
  | reservedBits
  /-- The number of bytes is not one the format has. -/
  | wrongLength
  /-- A fixed bit of the format has the wrong value. -/
  | wrongFixedBits
  /-- The marker of a response is the idle-fill byte (R79). -/
  | idleMarker
deriving DecidableEq, Repr

/-! ### Requests (R83 (g), R90) -/

/-- `sel` from its 2-bit code (R81). -/
def decodeSel (c : BitVec 2) : Sel :=
  match c with
  | 0 => .none
  | 1 => .r1
  | 2 => .r4
  | _ => .r5

/-- `flags` from `ctl[9:6]` (R82). -/
def decodeFlags (ctl : BitVec 16) : Flags :=
  { data := ctl.getLsbD 6, write := ctl.getLsbD 7, multi := ctl.getLsbD 8, noresp := ctl.getLsbD 9 }

/-- The operands a TRANSFER reads from the port (R125). -/
def PortRequest.xferArgs (r : PortRequest) : XferArgs :=
  { buf := r.buf, dataLen := r.dataLen, blockLength := r.blockLength, timeout := r.timeout }

/-- The descriptor an EXECUTE reads from the port (R165). -/
def PortRequest.descriptor (r : PortRequest) : Descriptor :=
  { index := r.index, arg := r.arg, sel := decodeSel (r.ctl.extractLsb' 4 2), flags := decodeFlags r.ctl,
    buf := r.buf, dataLen := r.dataLen, blockLength := r.blockLength, timeout := r.timeout }

/-- The operation a request asks for, where `ctl[15:10]` is zero or the operation code is reserved. -/
def decodeOp (r : PortRequest) : Instr :=
  match r.ctl.extractLsb' 0 4 with
  | 0x0#4 => .encode r.index r.arg
  | 0x1#4 =>
    match decodeSel (r.ctl.extractLsb' 4 2) with
    | .none => .decodeNone
    | .r1 => .decodeR1
    | .r4 => .decodeR4
    | .r5 => .decodeR5
  | 0x2#4 =>
    match r.ctl.getLsbD 7, r.ctl.getLsbD 8 with
    | true, false => .xferWrSingle r.xferArgs
    | true, true => .xferWrMulti r.xferArgs
    | false, false => .xferRdSingle r.xferArgs
    | false, true => .xferRdMulti r.xferArgs
  | 0x3#4 => .execute r.descriptor
  | 0x4#4 => .reserveSend r.nBytes
  | 0x5#4 => .reserveRecv r.nBytes
  | 0x6#4 => .commitSend r.nBytes
  | 0x7#4 => .commitRecv r.nBytes
  | 0x8#4 => .fcReset
  | 0x9#4 => .config r.cfgBufferSize r.cfgBlockSize
  | 0xA#4 => .reservedAB 0
  | 0xB#4 => .reservedAB 1
  | _ => .reservedCF (r.ctl.extractLsb' 0 2)

/-- Decodes a request. A reserved operation code is an instruction of the table (R88) whatever `ctl[15:10]` holds; with
any other code a nonzero `ctl[15:10]` is rejected. -/
def decodeRequest (r : PortRequest) : Except DecodeError Instr :=
  if r.ctl.extractLsb' 10 6 = 0 ∨ 10 ≤ (r.ctl.extractLsb' 0 4).toNat then .ok (decodeOp r)
  else .error .reservedBits

/-! ### Wire formats -/

/-- The command frame from its six bytes (R71). -/
def decodeFrame (b0 b1 b2 b3 b4 b5 : Byte) : Except DecodeError Instr :=
  if b0.getLsbD 7 = false ∧ b0.getLsbD 6 = true ∧ b5.getLsbD 0 = true then
    .ok (.cmdFrame (b0.extractLsb' 0 6) (b1 ++ b2 ++ b3 ++ b4) (b5.extractLsb' 1 7))
  else .error .wrongFixedBits

/-- A format that is one fixed byte (R75, R76). -/
def decodeFixed (value : Byte) (i : Instr) (bytes : List Byte) : Except DecodeError Instr :=
  match bytes with
  | [b] => if b = value then .ok i else .error .wrongFixedBits
  | _ => .error .wrongLength

/-- A response whose marker is `m` (R79). -/
def decodeMarked (m : Byte) (i : Instr) : Except DecodeError Instr :=
  if m = Config.idleByte then .error .idleMarker else .ok i

/-- A data block: 1 to 512 payload bytes, then the CRC high byte and low byte (R77, R83 (d)). -/
def decodeBlock (bytes : List Byte) : Except DecodeError Instr :=
  if 3 ≤ bytes.length ∧ bytes.length ≤ Config.maxBlock + 2 then
    .ok (.dataBlock (bytes.take (bytes.length - 2))
      (bytes.getD (bytes.length - 2) 0 ++ bytes.getD (bytes.length - 1) 0))
  else .error .wrongLength

/-- Decodes the bytes of a wire item whose format is known. -/
def decodeWire (f : WireFormat) (bytes : List Byte) : Except DecodeError Instr :=
  match f with
  | .cmdFrame =>
    match bytes with
    | [b0, b1, b2, b3, b4, b5] => decodeFrame b0 b1 b2 b3 b4 b5
    | _ => .error .wrongLength
  | .idle => decodeFixed Config.idleByte .idle bytes
  | .tokStartSingle => decodeFixed Config.tokStartSingleByte .tokStartSingle bytes
  | .tokStartMultiWr => decodeFixed Config.tokStartMultiWrByte .tokStartMultiWr bytes
  | .tokStop => decodeFixed Config.tokStopByte .tokStop bytes
  | .dataBlock => decodeBlock bytes
  | .dataResp =>
    match bytes with
    | [d] => .ok (.dataResp d)
    | _ => .error .wrongLength
  | .rspR1 =>
    match bytes with
    | [m] => decodeMarked m (.rspR1 m)
    | _ => .error .wrongLength
  | .rspR4 =>
    match bytes with
    | [m, p1, p2, p3, p4] => decodeMarked m (.rspR4 m p1 p2 p3 p4)
    | _ => .error .wrongLength
  | .rspR5 =>
    match bytes with
    | [m, p1] => decodeMarked m (.rspR5 m p1)
    | _ => .error .wrongLength

/-- Decodes a request or a wire item. -/
def decode : Encoding → Except DecodeError Instr
  | .request r => decodeRequest r
  | .wire f bytes => decodeWire f bytes

/-! ### The encoder -/

/-- The 2-bit code of a selector (R81). -/
def encodeSel : Sel → BitVec 2
  | .none => 0
  | .r1 => 1
  | .r4 => 2
  | .r5 => 3

/-- The 4-bit code of a flag set (R82). -/
def encodeFlags (f : Flags) : BitVec 4 :=
  BitVec.ofBool f.noresp ++ BitVec.ofBool f.multi ++ BitVec.ofBool f.write ++ BitVec.ofBool f.data

/-- The control word `ctl` (R83 (g)): `op`, `sel`, `flags`, and zeros in `ctl[15:10]`. -/
def encodeCtl (op : BitVec 4) (sel : Sel) (flags : Flags) : BitVec 16 :=
  0#6 ++ encodeFlags flags ++ encodeSel sel ++ op

/-- No flag set. -/
def Flags.clear : Flags := { data := false, write := false, multi := false, noresp := false }

/-- The request of a TRANSFER variant: it reads `write` and `multi` only (R88). -/
def encodeXfer (write multi : Bool) (x : XferArgs) : Encoding :=
  .request { PortRequest.ofCtl (encodeCtl 0x2 .none { Flags.clear with write := write, multi := multi }) with
    buf := x.buf, dataLen := x.dataLen, blockLength := x.blockLength, timeout := x.timeout }

/-- A request whose control word is the operation code alone. -/
def plainRequest (op : BitVec 4) : PortRequest := PortRequest.ofCtl (encodeCtl op .none Flags.clear)

/-- The request of a DECODE variant (R90). -/
def encodeDecode (sel : Sel) : Encoding := .request (PortRequest.ofCtl (encodeCtl 0x1 sel Flags.clear))

/-- The six bytes of a command frame by explicit shift and mask (R71 to R74, R100). -/
def frameOf (index : BitVec 6) (arg : Word32) (crc : BitVec 7) : List Byte :=
  [0x40 ||| index.setWidth 8, arg.extractLsb' 24 8, arg.extractLsb' 16 8, arg.extractLsb' 8 8, arg.extractLsb' 0 8,
    (crc.setWidth 8 <<< 1) ||| 1]

/-- The two CRC bytes of a data block, high byte first (R77, R83 (d)). -/
def crcBytes (c : BitVec 16) : List Byte := [c.extractLsb' 8 8, c.extractLsb' 0 8]

/-- The encoding of an instruction: the request that asks for it, with the fields it does not read zero, or its bytes
on the wire. -/
def encode : Instr → Encoding
  | .encode index arg => .request { plainRequest 0x0 with index := index, arg := arg }
  | .decodeNone => encodeDecode .none
  | .decodeR1 => encodeDecode .r1
  | .decodeR4 => encodeDecode .r4
  | .decodeR5 => encodeDecode .r5
  | .xferWrSingle x => encodeXfer true false x
  | .xferWrMulti x => encodeXfer true true x
  | .xferRdSingle x => encodeXfer false false x
  | .xferRdMulti x => encodeXfer false true x
  | .execute d => .request { PortRequest.ofCtl (encodeCtl 0x3 d.sel d.flags) with
      index := d.index, arg := d.arg, buf := d.buf, dataLen := d.dataLen, blockLength := d.blockLength,
      timeout := d.timeout }
  | .reserveSend n => .request { plainRequest 0x4 with nBytes := n }
  | .reserveRecv n => .request { plainRequest 0x5 with nBytes := n }
  | .commitSend n => .request { plainRequest 0x6 with nBytes := n }
  | .commitRecv n => .request { plainRequest 0x7 with nBytes := n }
  | .fcReset => .request (plainRequest 0x8)
  | .config bs bk => .request { plainRequest 0x9 with cfgBufferSize := bs, cfgBlockSize := bk }
  | .reservedAB b => .request (plainRequest (0b101#3 ++ b))
  | .reservedCF b => .request (plainRequest (0b11#2 ++ b))
  | .cmdFrame index arg crc => .wire .cmdFrame (frameOf index arg crc)
  | .idle => .wire .idle [Config.idleByte]
  | .tokStartSingle => .wire .tokStartSingle [Config.tokStartSingleByte]
  | .tokStartMultiWr => .wire .tokStartMultiWr [Config.tokStartMultiWrByte]
  | .tokStop => .wire .tokStop [Config.tokStopByte]
  | .dataBlock payload crc => .wire .dataBlock (payload ++ crcBytes crc)
  | .dataResp d => .wire .dataResp [d]
  | .rspR1 m => .wire .rspR1 [m]
  | .rspR4 m p1 p2 p3 p4 => .wire .rspR4 [m, p1, p2, p3, p4]
  | .rspR5 m p1 => .wire .rspR5 [m, p1]

/-! ### Words numbered as spec/opcode_table.json numbers them -/

/-- The `n` bytes of a word whose first byte is bits 7..0. -/
def wordBytes : Nat → Nat → List Byte
  | 0, _ => []
  | n + 1, w => BitVec.ofNat 8 w :: wordBytes n (w / 256)

/-- The format of a single byte that stands alone. The four fixed bytes are IDLE and the tokens; among the others, the
form `xxx0sss1` is a data response (R78) and the rest an R1 response. A machine knows which format it expects; this
choice serves words without that context. -/
def byteFormat (b : Byte) : WireFormat :=
  if b = Config.idleByte then .idle
  else if b = Config.tokStartSingleByte then .tokStartSingle
  else if b = Config.tokStartMultiWrByte then .tokStartMultiWr
  else if b = Config.tokStopByte then .tokStop
  else if b.getLsbD 0 && !b.getLsbD 4 then .dataResp
  else .rspR1

/-- What a word of `nbits` bits encodes: 16 bits a control word with zero operands, 8, 24, 40 and 48 bits a wire item
(24 bits: a data block of one payload byte, as the table shows it). A 16-bit word is a request: RSP_R5 has the same
length and is met only in context. -/
def tableEncoding (nbits w : Nat) : Option Encoding :=
  match nbits with
  | 16 => some (.request (PortRequest.ofCtl (BitVec.ofNat 16 w)))
  | 8 => some (.wire (byteFormat (BitVec.ofNat 8 w)) (wordBytes 1 w))
  | 24 => some (.wire .dataBlock (wordBytes 3 w))
  | 40 => some (.wire .rspR4 (wordBytes 5 w))
  | 48 => some (.wire .cmdFrame (wordBytes 6 w))
  | _ => none

/-- The instruction the decoder reads from a word of `nbits` bits. -/
def decodeTableWord (nbits w : Nat) : Option Instr :=
  match tableEncoding nbits w with
  | some e =>
    match decode e with
    | .ok i => some i
    | .error _ => none
  | none => none

end Sys2Proof
end

