-- ==== Sys2Proof/Machine/Crc.lean ====
section
/-! DEFINITION. The CRC primitives (R57): the standard SD CRCs, which are the default, and the choice a machine's
parameters make. -/

namespace Sys2Proof.Machine

/-- The bits of a byte, most significant first. -/
def byteBits (b : Byte) : List Bool :=
  [b.getLsbD 7, b.getLsbD 6, b.getLsbD 5, b.getLsbD 4, b.getLsbD 3, b.getLsbD 2, b.getLsbD 1, b.getLsbD 0]

/-- One bit of CRC7 with generator x^7 + x^3 + 1 (R57). -/
def crc7Bit (c : BitVec 7) (bit : Bool) : BitVec 7 :=
  if c.getLsbD 6 != bit then (c <<< 1) ^^^ 0x09 else c <<< 1

/-- One bit of CRC16 with generator x^16 + x^12 + x^5 + 1 (R57). -/
def crc16Bit (c : BitVec 16) (bit : Bool) : BitVec 16 :=
  if c.getLsbD 15 != bit then (c <<< 1) ^^^ 0x1021 else c <<< 1

/-- The SD CRC7: initial value 0, most significant bit first, no final inversion (R57). -/
def standardCrc7 (bs : List Byte) : BitVec 7 := bs.foldl (fun c b => (byteBits b).foldl crc7Bit c) 0

/-- The SD CRC16: initial value 0, most significant bit first, no final inversion (R57). -/
def standardCrc16 (bs : List Byte) : BitVec 16 := bs.foldl (fun c b => (byteBits b).foldl crc16Bit c) 0

/-- The `crc7` the machine is connected to (R57). -/
def crc7 (p : Params) (bs : List Byte) : BitVec 7 :=
  match p.crc7 with
  | .standard => standardCrc7 bs
  | .other n => Config.otherCrc7 n bs

/-- The `crc16` the machine is connected to (R57). -/
def crc16 (p : Params) (bs : List Byte) : BitVec 16 :=
  match p.crc16 with
  | .standard => standardCrc16 bs
  | .other n => Config.otherCrc16 n bs

end Sys2Proof.Machine
end

