-- ==== Sys2Proof/Machine/Memory.lean ====
section
/-! DEFINITION. The operations on the caller's memory: one byte, one block, and the bytes a failed read leaves
behind (R14, R51, R68). -/

namespace Sys2Proof.Machine

/-- What an address that is not listed reads as. DESIGN CHOICE, log entry 5. -/
def unlisted : Byte := 0x00

/-- The canonical form: addresses strictly rise and no cell holds what an unlisted address reads as. -/
abbrev Memory.wf (m : Memory) : Prop :=
  m.Pairwise (fun c d => c.1 < d.1) ∧ ∀ c ∈ m, c.2 ≠ unlisted

/-- The byte at address `a`. -/
def memRead : Memory → Nat → Byte
  | [], _ => unlisted
  | (b, w) :: m, a => if b = a then w else memRead m a

/-- Stores `v` at address `a`, keeping the canonical form. -/
def memWrite : Memory → Nat → Byte → Memory
  | [], a, v => if v = unlisted then [] else [(a, v)]
  | (b, w) :: m, a, v =>
    if b < a then (b, w) :: memWrite m a v
    else if v = unlisted then (if b = a then m else (b, w) :: m)
    else if b = a then (a, v) :: m
    else (a, v) :: (b, w) :: m

/-- The `n` bytes from address `a` on, in ascending order (R61). -/
def memReadBlock (m : Memory) : Nat → Nat → List Byte
  | _, 0 => []
  | a, n + 1 => memRead m a :: memReadBlock m (a + 1) n

/-- Stores the bytes `bs` from address `a` on, in ascending order (R61). -/
def memWriteBlock (m : Memory) (a : Nat) : List Byte → Memory
  | [] => m
  | b :: bs => memWriteBlock (memWrite m a b) (a + 1) bs

/-- Leaves free values in the `n` bytes from address `a` on, the first of them draw number `d` (R68, U5). -/
def memSpoil (m : Memory) : Nat → Nat → Nat → Memory
  | _, 0, _ => m
  | a, n + 1, d => memSpoil (memWrite m a (Config.spoiledByte d)) (a + 1) n (d + 1)

end Sys2Proof.Machine
end

