-- ==== Sys2Proof/Machine/Operands.lean ====
section
/-! DEFINITION. How operands are assembled (R83): quotients and units, the frame, buffer offsets, response lengths and
the bound of a scan, and the latched request of each operation. -/

namespace Sys2Proof.Machine

/-- `ceil_div(a, b)` (R11, R157). -/
def ceilDiv (a b : Nat) : Nat := (a + b - 1) / b

/-- `units(n)`: the buffer units that `n` bytes consume (R150). -/
def FlowControl.units (fc : FlowControl) (n : Nat) : Nat := ceilDiv n fc.bufferSize

/-- `RSP_LEN(sel)` (R9, R79). -/
def rspLen : Sel → Nat
  | .none => 0
  | .r1 => 1
  | .r4 => 5
  | .r5 => 2

/-- The bytes of a frame that its CRC covers (R71, R74, conflict C1). -/
def frameHead (index : BitVec 6) (arg : Word32) : List Byte := (frameOf index arg 0).take 5

/-- The CRC of a frame (R74). -/
def frameCrc (p : Params) (index : BitVec 6) (arg : Word32) : BitVec 7 := crc7 p (frameHead index arg)

/-- The frame ENCODE builds from a legal command index (R101). -/
def encodeFrame (p : Params) (index : Nat) (arg : Word32) : List Byte :=
  frameOf (BitVec.ofNat 6 index) arg (frameCrc p (BitVec.ofNat 6 index) arg)

/-- PARSE_FRAME's result (R102). -/
structure ParsedFrame where
  wellFormed : Bool
  index : BitVec 6
  arg : Word32
  crc : BitVec 7
  crcOk : Bool
deriving DecidableEq, Repr

/-- PARSE_FRAME (R102), on the six bytes of a frame. CORE has no such operation; it states R103. -/
def parseFrame (p : Params) (f : List Byte) : ParsedFrame :=
  let f0 := f.getD 0 0
  let f5 := f.getD 5 0
  { wellFormed := !f0.getLsbD 7 && f0.getLsbD 6 && f5.getLsbD 0
    index := f0.extractLsb' 0 6
    arg := f.getD 1 0 ++ f.getD 2 0 ++ f.getD 3 0 ++ f.getD 4 0
    crc := f5.extractLsb' 1 7
    crcOk := f5.extractLsb' 1 7 == crc7 p (f.take 5) }

/-- The caller-memory address of byte `off` of the lent buffer (R14, R51). With a null buffer no operation gets as far
as an access (R126 A1). -/
def Request.bufAddr (r : Request) (off : Nat) : Nat := r.buf.getD 0 + off

/-- The address of byte 0 of block `j` (R51). -/
def Request.blockAddr (r : Request) (j : Nat) : Nat := r.bufAddr (j * r.blockLength)

/-- The bound of the response scan: 8 for DECODE (R110), `min(8, timeout)` for EXECUTE (R169). -/
def Request.scanBound (r : Request) : Nat :=
  match r.op with
  | .execute => min Config.rspMaxDelay r.timeout
  | _ => Config.rspMaxDelay

/-- Where a data phase starts (R186): at the ready wait or at the first poll. -/
def Request.dataStart (r : Request) : Phase :=
  if r.flags.write then .wReady r.timeout else .rPoll 0 r.timeout

/-- Where an operation goes after its response (R186, R187). -/
def Request.afterResponse (r : Request) : Phase :=
  match r.op with
  | .execute => if r.flags.data then r.dataStart else .done
  | _ => .done

/-- Where an operation goes after its frame (R186). -/
def Request.afterFrame (r : Request) : Phase :=
  match r.sel with
  | .none => r.afterResponse
  | _ => .rspScan 0

/-- The latched request of ENCODE (R101). -/
def Request.ofEncode (index : Nat) (arg : Word32) : Request :=
  { Request.blank with op := .encode, index := index, arg := arg }

/-- The latched request of a DECODE variant (R111 to R114). -/
def Request.ofDecode (sel : Sel) : Request := { Request.blank with op := .decode, sel := sel }

/-- The latched request of a TRANSFER variant (R125): of the flags only `write` and `multi` are read. -/
def Request.ofXfer (write multi : Bool) (x : XferArgs) : Request :=
  { Request.blank with
    op := .transfer, flags := { data := false, write := write, multi := multi, noresp := false },
    buf := x.buf, dataLen := x.dataLen, blockLength := x.blockLength, timeout := x.timeout }

/-- The latched request of EXECUTE (R165). -/
def Request.ofDescriptor (d : Descriptor) : Request :=
  { Request.blank with
    op := .execute, index := d.index, arg := d.arg, sel := d.sel, flags := d.flags, buf := d.buf,
    dataLen := d.dataLen, blockLength := d.blockLength, timeout := d.timeout }

/-- The latched request of a reserve or a commit (R151 to R154). -/
def Request.ofBytes (op : Op) (n : Nat) : Request := { Request.blank with op := op, nBytes := n }

/-- The latched request of FC_RESET (R155). -/
def Request.ofFcReset : Request := { Request.blank with op := .fcReset }

/-- The latched request of CONFIG (R156). -/
def Request.ofConfig (bs bk : Nat) : Request :=
  { Request.blank with op := .config, cfgBufferSize := bs, cfgBlockSize := bk }

/-- The numeric code of an outcome (R201). -/
def OpOutcome.code : OpOutcome → Nat
  | .success => 0
  | .ok => 0
  | .invalidCommand => 1
  | .responseTimeout => 2
  | .blockTimeout => 3
  | .crcMismatch => 4
  | .blockTooLarge => 5
  | .insufficientCredit => 6
  | .statusError _ => 7
  | .collaboratorError _ _ _ => 8

end Sys2Proof.Machine
end

