-- ==== Sys2Proof/Machine/Ops.lean ====
section
/-! DEFINITION. The operations every meaning is built from: ending an operation with a success or a failure (R17, R172,
R211), the collaborator calls (R15, R16, R209), the commits (R153, R154) and acceptance (R191). A call takes the rest of
the operation as a continuation, and ends it where the collaborator answers with an error. -/

namespace Sys2Proof.Machine

/-- What a step answers. -/
abbrev Out := Host.Outcome State Fault Refusal

/-- `phase <- p` (R13). -/
def State.goto (p : Phase) (s : State) : State := { s with phase := p }

/-- Latches the accepted request (R67). -/
def State.latch (r : Request) (s : State) : State := { s with req := r }

/-- Records the admitted transfer (R31): `nblocks` blocks, none of them done. -/
def State.startBlocks (n : Nat) (s : State) : State := { s with bx := { BlockXfer.blank with nblocks := n } }

/-! ### How an operation ends -/

/-- Writes the result registers, discards the transient state and returns to IDLE (R20, R22, R172, R211 (c), (d)). -/
def State.endOperation (r : Results) (s : State) : State :=
  { s with results := r, phase := .idle, req := Request.blank, bx := BlockXfer.blank, resp := [] }

/-- Free values in the lent buffer from block `j` on (R68). -/
def State.spoilFrom (j : Nat) (s : State) : State :=
  { s with
    mem := memSpoil s.mem (s.req.blockAddr j) (s.req.dataLen - j * s.req.blockLength) s.env.draws
    env := { s.env with draws := s.env.draws + (s.req.dataLen - j * s.req.blockLength) } }

/-- What a failure does to the lent buffer: a read that fails inside block `j` leaves free values from that block on
(R68, R211); any other failure leaves the buffer as it is (log entry 9). -/
def State.spoilRead (s : State) : State :=
  match s.phase with
  | .rData j _ => s.spoilFrom j
  | .rCrc j _ => s.spoilFrom j
  | _ => s

/-- Failure entry (R211): the outcome is the failure, every other result register holds no value, nothing else of the
operation is undone. -/
def State.fail (f : OpOutcome) (s : State) : State :=
  s.spoilRead.endOperation { Results.blank with outcome := some f }

/-- `raise f` (R17). -/
def raise (f : OpOutcome) (s : State) : Out := .next (s.fail f)

/-- The status flags of a response, where the selector is R1 (R22, R115). -/
def State.statusResult (s : State) : Option RStatus :=
  match s.req.sel with
  | .r1 => some (rStatus (s.resp.headD 0))
  | _ => none

/-- What the result registers take when the running operation succeeds (R22, R172, R187). -/
def State.successResults (s : State) : Results :=
  match s.req.op with
  | .encode => { Results.blank with
      outcome := some .success, frame := some (encodeFrame s.params s.req.index s.req.arg) }
  | .decode => { Results.blank with
      outcome := some .success, response := some s.resp, status := s.statusResult }
  | .transfer => { Results.blank with
      outcome := some .success, bytesTransferred := some s.bx.doneBytes }
  | .execute => { Results.blank with
      outcome := some .success, response := some s.resp, status := s.statusResult,
      bytesTransferred := some s.bx.doneBytes }
  | _ => { Results.blank with outcome := some .ok }

/-- Finalize, the step of phase DONE (R172, R185). -/
def State.finish (s : State) : State := s.endOperation s.successResults

/-- Hardware reset (R37, R230): every piece of CORE's state at its reset value. The parameters, the caller's memory and
the other inputs are outside CORE and stay; the reset signal is taken. -/
def State.hardwareReset (s : State) : State :=
  { State.reset with params := s.params, mem := s.mem, env := { s.env with resetLine := false } }

/-! ### The collaborators -/

/-- The slave's answer to one byte: the scripted one, or a free byte (R53, U11). -/
def Env.nextWire (e : Env) : WireAnswer × Env :=
  match e.slave with
  | a :: rest => (a, { e with slave := rest })
  | [] => (.byte (Config.slaveByte e.draws), { e with draws := e.draws + 1 })

/-- The answers to the bytes of one call: all of them, or the first error (R56). -/
def Env.nextWires : Nat → Env → Except Nat (List Byte) × Env
  | 0, e => (.ok [], e)
  | n + 1, e =>
    match e.nextWire with
    | (.error c, e') => (.error c, e')
    | (.byte b, e') =>
      match Env.nextWires n e' with
      | (.ok bs, e'') => (.ok (b :: bs), e'')
      | (.error c, e'') => (.error c, e'')

/-- `XferN(ts)` (R15): one call of the raw transfer primitive. A call that ends in an error adds nothing to the trace
and ends the operation (R209). -/
def xferN (ts : List Byte) (s : State) (k : List Byte → State → Out) : Out :=
  match Env.nextWires ts.length s.env with
  | (.ok bs, e) => k bs { s with env := e, trace := s.trace ++ ts.zip bs }
  | (.error c, e) => raise (.collaboratorError .transfer s.phase c) { s with env := e }

/-- `Xfer(t)` (R15). -/
def xfer (t : Byte) (s : State) (k : Byte → State → Out) : Out :=
  match s.env.nextWire with
  | (.byte b, e) => k b { s with env := e, trace := s.trace ++ [(t, b)] }
  | (.error c, e) => raise (.collaboratorError .transfer s.phase c) { s with env := e }

/-- `Pull()` (R15): sends the idle-fill byte and keeps what comes back. -/
def pull (s : State) (k : Byte → State → Out) : Out := xfer Config.idleByte s k

/-- `Push(t)` (R15): the byte received is discarded. -/
def push (t : Byte) (s : State) (k : State → Out) : Out := xfer t s (fun _ s' => k s')

/-- A call of `crc7` or `crc16` (R57): its value is the pure function's, and it may end in an error (R209). -/
def crcCall (c : Collab) (s : State) (k : State → Out) : Out :=
  match s.env.crcErrs with
  | [] => k s
  | none :: rest => k { s with env := { s.env with crcErrs := rest } }
  | some code :: rest => raise (.collaboratorError c s.phase code) { s with env := { s.env with crcErrs := rest } }

/-- `AvailSend()` or `AvailRecv()` (R16, R58): a fresh sample of CREDIT_W bits, or an error (R209). -/
def availCredit (s : State) (k : Nat → State → Out) : Out :=
  match s.env.credit with
  | .count n :: rest => k (n % 2 ^ s.params.creditW) { s with env := { s.env with credit := rest } }
  | .error code :: rest =>
    raise (.collaboratorError .credit s.phase code) { s with env := { s.env with credit := rest } }
  | [] => k (Config.creditCount s.env.draws % 2 ^ s.params.creditW)
      { s with env := { s.env with draws := s.env.draws + 1 } }

/-! ### Commits -/

/-- `COMMIT_SEND(n)` past its check (R136, R153). A sum that does not fit CNT_W bits is a fault (U3). -/
def commitSendUnits (n : Nat) (s : State) (k : State → Out) : Out :=
  if s.fc.txSentBuffers + s.fc.units n < 2 ^ s.params.cntW then
    k { s with fc := { s.fc with txSentBuffers := s.fc.txSentBuffers + s.fc.units n } }
  else .fault .counterOverflow

/-- `COMMIT_RECV(n)` past its check (R136, R154). A sum that does not fit CNT_W bits is a fault (U3). -/
def commitRecvBytes (n : Nat) (s : State) (k : State → Out) : Out :=
  if s.fc.rxGotBytes + n < 2 ^ s.params.cntW then
    k { s with fc := { s.fc with rxGotBytes := s.fc.rxGotBytes + n } }
  else .fault .counterOverflow

/-- The end of a completed block (R136): its payload bytes are counted and the sequencer goes on to `p`. -/
def State.blockDone (p : Phase) (s : State) : State :=
  { s with bx := { s.bx with doneBytes := s.bx.doneBytes + s.req.blockLength }, phase := p }

/-! ### Acceptance -/

/-- A request is accepted only in IDLE; in any other phase it waits and nothing happens (R191). -/
def atIdle (s : State) (k : State → Out) : Out :=
  if s.phase = .idle then k s else .next s

end Sys2Proof.Machine
end

