-- ==== Sys2Proof/Machine/Admission.lean ====
section
/-! DEFINITION. The checks before the first wire byte: XFER_ADMIT (R126) and VALIDATE (R166). -/

namespace Sys2Proof.Machine

/-- The payload size that A2 compares with 512 (R126). -/
def Request.payload (r : Request) : Nat :=
  if r.flags.multi then r.blockLength else max r.blockLength r.dataLen

/-- `nblocks` (R125, R126 A5). -/
def Request.nblocks (r : Request) : Nat := r.dataLen / r.blockLength

/-- The amount A5 reserves: buffer units for a write, bytes for a read (R126). -/
def Request.creditNeed (r : Request) (fc : FlowControl) : Nat :=
  if r.flags.write then r.nblocks * fc.units r.blockLength else r.dataLen

/-- The geometry A3 refuses (R55, R126). -/
def Request.badGeometry (r : Request) : Bool :=
  r.dataLen == 0 || r.dataLen % r.blockLength != 0 || (!r.flags.multi && r.dataLen != r.blockLength)

/-- `XFER_ADMIT` on the latched request (R126): A1 to A5 in order. -/
def xferAdmit (s : State) (k : Nat → State → Out) : Out :=
  if s.req.buf = none ∨ s.req.blockLength = 0 then raise .invalidCommand s
  else if s.req.payload > Config.maxBlock then raise .blockTooLarge s
  else if s.req.badGeometry then raise .invalidCommand s
  else if s.fc.configured = false then raise .invalidCommand s
  else availCredit s fun a s' =>
    if s'.req.creditNeed s'.fc > a then raise .insufficientCredit s' else k s'.req.nblocks s'

/-- Whether VALIDATE refuses the descriptor (R166): V1 to V5. -/
def Request.invalidDescriptor (r : Request) : Bool :=
  decide (r.index > 63) || (r.flags.noresp != decide (r.sel = .none)) || (r.flags.multi && !r.flags.data) ||
    (r.flags.write && !r.flags.data) || (r.flags.data && (r.buf.isNone || r.blockLength == 0))

end Sys2Proof.Machine
end

