-- ==== Sys2Proof/Machine/BlockTransfer.lean ====
section
/-! DEFINITION. The block transfer engine: TRANSFER (spec 42) and the tokens, data blocks, data responses and idle
bytes of a data phase (R131 to R136). -/

namespace Sys2Proof.Machine

/-- TRANSFER (R139): admission, then the first wait. -/
def startXfer (write multi : Bool) (x : XferArgs) (s : State) : Out :=
  atIdle s fun s =>
    xferAdmit (s.latch (Request.ofXfer write multi x)) fun n s => .next ((s.startBlocks n).goto s.req.dataStart)

/-- XFER.WR.SINGLE (R127). -/
def execXferWrSingle (x : XferArgs) (s : State) : Out := startXfer true false x s

/-- XFER.WR.MULTI (R128). -/
def execXferWrMulti (x : XferArgs) (s : State) : Out := startXfer true true x s

/-- XFER.RD.SINGLE (R129). -/
def execXferRdSingle (x : XferArgs) (s : State) : Out := startXfer false false x s

/-- XFER.RD.MULTI (R130). -/
def execXferRdMulti (x : XferArgs) (s : State) : Out := startXfer false true x s

/-- IDLE received (R75, R186): nothing yet in the response window and in the poll for a start token, ready in the two
waits of a write. -/
def execIdle (s : State) : Out :=
  match s.phase with
  | .rspScan k => .next (s.goto (.rspScan (k + 1)))
  | .wReady _ => .next (s.goto .wToken)
  | .wBusy _ => .next (s.goto .done)
  | .rPoll j p => .next (s.goto (.rPoll j (p - 1)))
  | _ => .fault .wireItemOutOfPhase

/-- TOK_START_SINGLE (R76): sent before the block of a single-block write (R139), received before every block of a
read, whose payload bytes follow (R134). -/
def execTokStartSingle (s : State) : Out :=
  match s.phase with
  | .wToken => push Config.tokStartSingleByte s fun s => .next (s.goto (.wData 0 0))
  | .rPoll j _ => .next ({ s with bx := { s.bx with held := [] } }.goto (.rData j 0))
  | _ => .fault .wireItemOutOfPhase

/-- TOK_START_MULTI_WR (R76): sent once, before the first block of a multi-block write (R139). -/
def execTokStartMultiWr (s : State) : Out :=
  match s.phase with
  | .wToken => push Config.tokStartMultiWrByte s fun s => .next (s.goto (.wData 0 0))
  | _ => .fault .wireItemOutOfPhase

/-- TOK_STOP (R76): sent once, after the last block of a multi-block write; the wait for not-busy follows (R133). -/
def execTokStop (s : State) : Out :=
  match s.phase with
  | .wStop => push Config.tokStopByte s fun s => .next (s.goto (.wBusy s.req.timeout))
  | _ => .fault .wireItemOutOfPhase

/-- Where a written block's acceptance leads (R186). -/
def State.afterWrite (j : Nat) (s : State) : Phase :=
  if j + 1 < s.bx.nblocks then .wData (j + 1) 0 else if s.req.flags.multi then .wStop else .done

/-- Where a read block's match leads (R186). -/
def State.afterRead (j : Nat) (s : State) : Phase :=
  if j + 1 < s.bx.nblocks then .rPoll (j + 1) s.req.timeout else .done

/-- DATA_BLOCK (R77): in the write phases CORE sends the byte of it the phase stands at (R132); in the last read phase
all of it has been received, and it is verified, stored and committed (R135). -/
def execDataBlock (payload : List Byte) (crc : BitVec 16) (s : State) : Out :=
  match s.phase with
  | .wData j i => push (payload.getD i 0) s fun s =>
      .next (s.goto (if i + 1 < s.req.blockLength then .wData j (i + 1) else .wCrc j false))
  | .wCrc j false => push (crc.extractLsb' 8 8) s fun s => .next (s.goto (.wCrc j true))
  | .wCrc j true => push (crc.extractLsb' 0 8) s fun s => .next (s.goto (.wDresp j))
  | .rCrc j true => crcCall .crc16 s fun s =>
      if crc = crc16 s.params payload then
        commitRecvBytes s.req.blockLength { s with mem := memWriteBlock s.mem (s.req.blockAddr j) payload } fun s =>
          .next (s.blockDone (s.afterRead j))
      else raise .crcMismatch s
  | _ => .fault .wireItemOutOfPhase

/-- DATA_RESP received (R78, R132): an accepted block is committed, any other ends the transfer with CrcMismatch. -/
def execDataResp (d : Byte) (s : State) : Out :=
  match s.phase with
  | .wDresp j =>
    if drespAccepted s.params d then
      commitSendUnits s.req.blockLength s fun s => .next (s.blockDone (s.afterWrite j))
    else raise .crcMismatch s
  | _ => .fault .wireItemOutOfPhase

end Sys2Proof.Machine
end

