-- ==== Sys2Proof/Machine/Execute.lean ====
section
/-! DEFINITION. The command dispatcher: EXECUTE (spec 44), and the reserved operation codes (R88). -/

namespace Sys2Proof.Machine

/-- EXECUTE (R165): VALIDATE, the admission of a data phase (R167), then the frame. The rest of the sequence is the
phases FRAME to DONE. -/
def execExecute (d : Descriptor) (s : State) : Out :=
  atIdle s fun s =>
    if (Request.ofDescriptor d).invalidDescriptor then raise .invalidCommand (s.latch (Request.ofDescriptor d))
    else if d.flags.data then
      xferAdmit (s.latch (Request.ofDescriptor d)) fun n s => .next ((s.startBlocks n).goto .frame)
    else .next ((s.latch (Request.ofDescriptor d)).goto .frame)

/-- RESERVED.A_B (R88): refused with InvalidCommand. -/
def execReservedAB (_b : BitVec 1) (s : State) : Out := atIdle s fun s => raise .invalidCommand s

/-- RESERVED.C_F (R88): refused with InvalidCommand. -/
def execReservedCF (_b : BitVec 2) (s : State) : Out := atIdle s fun s => raise .invalidCommand s

end Sys2Proof.Machine
end

