-- ==== Sys2Proof/Machine/FrameCodec.lean ====
section
/-! DEFINITION. The frame codec: ENCODE (spec 40) and the frame on the wire (R168). -/

namespace Sys2Proof.Machine

/-- ENCODE (R101): the frame is the result of phase DONE (`State.successResults`); no wire byte. -/
def execEncode (index : Nat) (arg : Word32) (s : State) : Out :=
  atIdle s fun s =>
    if index > 63 then raise .invalidCommand (s.latch (Request.ofEncode index arg))
    else crcCall .crc7 (s.latch (Request.ofEncode index arg)) fun s => .next (s.goto .done)

/-- CMD_FRAME, phase FRAME (R168, R185): the six bytes in one call, the bytes received discarded. -/
def execCmdFrame (index : BitVec 6) (arg : Word32) (crc : BitVec 7) (s : State) : Out :=
  match s.phase with
  | .frame => xferN (frameOf index arg crc) s fun _ s => .next (s.goto s.req.afterFrame)
  | _ => .fault .wireItemOutOfPhase

end Sys2Proof.Machine
end

