-- ==== Sys2Proof/Machine/ResponseDecoder.lean ====
section
/-! DEFINITION. The response decoder: DECODE (spec 41) and the three responses on the wire (R79). -/

namespace Sys2Proof.Machine

/-- Opens the response window of a standalone DECODE (R110, R187). -/
def startDecode (sel : Sel) (s : State) : Out :=
  atIdle s fun s => .next ((s.latch (Request.ofDecode sel)).goto (.rspScan 0))

/-- DECODE.NONE (R111): no window, an empty response. -/
def execDecodeNone (s : State) : Out :=
  atIdle s fun s => .next ((s.latch (Request.ofDecode .none)).goto .done)

/-- DECODE.R1 (R112). -/
def execDecodeR1 (s : State) : Out := startDecode .r1 s

/-- DECODE.R4 (R113). -/
def execDecodeR4 (s : State) : Out := startDecode .r4 s

/-- DECODE.R5 (R114). -/
def execDecodeR5 (s : State) : Out := startDecode .r5 s

/-- RSP_R1 received (R112, R186): the marker is the whole response; the status check follows. -/
def execRspR1 (m : Byte) (s : State) : Out :=
  match s.phase with
  | .rspScan _ => .next { s with resp := [m], phase := .status }
  | _ => .fault .wireItemOutOfPhase

/-- A response with bytes after the marker is complete (R113, R114, R186). -/
def takeResponse (bytes : List Byte) (s : State) : Out :=
  match s.phase with
  | .rspRest _ => .next { s with resp := bytes, phase := s.req.afterResponse }
  | _ => .fault .wireItemOutOfPhase

/-- RSP_R4 received (R113). -/
def execRspR4 (m p1 p2 p3 p4 : Byte) (s : State) : Out := takeResponse [m, p1, p2, p3, p4] s

/-- RSP_R5 received (R114). -/
def execRspR5 (m p1 : Byte) (s : State) : Out := takeResponse [m, p1] s

/-- The step of phase STATUS (R170, R186, R187): EXECUTE fails on a fatal status bit, DECODE never does (R116). -/
def statusCheck (s : State) : Out :=
  match s.req.op with
  | .execute =>
    if isFatal s.params s.req.index (s.resp.headD 0) then raise (.statusError (s.resp.headD 0)) s
    else .next (s.goto s.req.afterResponse)
  | _ => .next (s.goto s.req.afterResponse)

end Sys2Proof.Machine
end

