-- ==== Sys2Proof/Machine/Tracker.lean ====
section
/-! DEFINITION. The flow-control tracker (spec 43): RESERVE, COMMIT, FC_RESET, CONFIG. -/

namespace Sys2Proof.Machine

/-- A reserve of `need` (R151, R152): refused before CONFIG, else compared with a fresh credit sample. -/
def reserve (r : Request) (need : Nat) (s : State) : Out :=
  atIdle s fun s =>
    if s.fc.configured = false then raise .invalidCommand (s.latch r)
    else availCredit (s.latch r) fun a s =>
      if need > a then raise .insufficientCredit s else .next (s.goto .done)

/-- RESERVE_SEND (R151): the need is counted in buffer units. -/
def execReserveSend (n : Nat) (s : State) : Out := reserve (Request.ofBytes .reserveSend n) (s.fc.units n) s

/-- RESERVE_RECV (R152): the need is counted in bytes. -/
def execReserveRecv (n : Nat) (s : State) : Out := reserve (Request.ofBytes .reserveRecv n) n s

/-- COMMIT_SEND (R153). -/
def execCommitSend (n : Nat) (s : State) : Out :=
  atIdle s fun s =>
    if s.fc.configured = false then raise .invalidCommand (s.latch (Request.ofBytes .commitSend n))
    else commitSendUnits n (s.latch (Request.ofBytes .commitSend n)) fun s => .next (s.goto .done)

/-- COMMIT_RECV (R154). -/
def execCommitRecv (n : Nat) (s : State) : Out :=
  atIdle s fun s =>
    if s.fc.configured = false then raise .invalidCommand (s.latch (Request.ofBytes .commitRecv n))
    else commitRecvBytes n (s.latch (Request.ofBytes .commitRecv n)) fun s => .next (s.goto .done)

/-- FC_RESET (R155): both counters to zero, nothing else of `S`. -/
def execFcReset (s : State) : Out :=
  atIdle s fun s =>
    .next ({ s with req := Request.ofFcReset, fc := { s.fc with txSentBuffers := 0, rxGotBytes := 0 } }.goto .done)

/-- CONFIG (R156): illegal sizes are refused, else the two sizes and `configured` are written. -/
def execConfig (bs bk : Nat) (s : State) : Out :=
  atIdle s fun s =>
    if bs = 0 ∨ bk = 0 ∨ bk > Config.blockSizeMax then raise .invalidCommand (s.latch (Request.ofConfig bs bk))
    else .next ({ s with
        req := Request.ofConfig bs bk,
        fc := { s.fc with bufferSize := bs, blockSize := bk, configured := true } }.goto .done)

end Sys2Proof.Machine
end

