-- ==== Sys2Proof/Machine/Dispatch.lean ====
section
/-! DEFINITION. exec: one arm per instruction. -/

namespace Sys2Proof.Machine

def exec (i : Instr) (s : State) : Host.Outcome State Fault Refusal :=
  match i with
  | .encode index arg => Sys2Proof.Machine.execEncode index arg s
  | .decodeNone => Sys2Proof.Machine.execDecodeNone s
  | .decodeR1 => Sys2Proof.Machine.execDecodeR1 s
  | .decodeR4 => Sys2Proof.Machine.execDecodeR4 s
  | .decodeR5 => Sys2Proof.Machine.execDecodeR5 s
  | .xferWrSingle x => Sys2Proof.Machine.execXferWrSingle x s
  | .xferWrMulti x => Sys2Proof.Machine.execXferWrMulti x s
  | .xferRdSingle x => Sys2Proof.Machine.execXferRdSingle x s
  | .xferRdMulti x => Sys2Proof.Machine.execXferRdMulti x s
  | .execute d => Sys2Proof.Machine.execExecute d s
  | .reserveSend n => Sys2Proof.Machine.execReserveSend n s
  | .reserveRecv n => Sys2Proof.Machine.execReserveRecv n s
  | .commitSend n => Sys2Proof.Machine.execCommitSend n s
  | .commitRecv n => Sys2Proof.Machine.execCommitRecv n s
  | .fcReset => Sys2Proof.Machine.execFcReset s
  | .config bs bk => Sys2Proof.Machine.execConfig bs bk s
  | .reservedAB b => Sys2Proof.Machine.execReservedAB b s
  | .reservedCF b => Sys2Proof.Machine.execReservedCF b s
  | .cmdFrame index arg crc => Sys2Proof.Machine.execCmdFrame index arg crc s
  | .idle => Sys2Proof.Machine.execIdle s
  | .tokStartSingle => Sys2Proof.Machine.execTokStartSingle s
  | .tokStartMultiWr => Sys2Proof.Machine.execTokStartMultiWr s
  | .tokStop => Sys2Proof.Machine.execTokStop s
  | .dataBlock payload crc => Sys2Proof.Machine.execDataBlock payload crc s
  | .dataResp d => Sys2Proof.Machine.execDataResp d s
  | .rspR1 m => Sys2Proof.Machine.execRspR1 m s
  | .rspR4 m p1 p2 p3 p4 => Sys2Proof.Machine.execRspR4 m p1 p2 p3 p4 s
  | .rspR5 m p1 => Sys2Proof.Machine.execRspR5 m p1 s

end Sys2Proof.Machine
end

