-- ==== Sys2Proof/Machine/Sequencer.lean ====
section
/-! DEFINITION. The sequencer (spec 45): what one step fetches. In IDLE it is the request at the host port; in a wire
phase it is the item of the wire that the phase sends, or the item that the byte just received completes. -/

namespace Sys2Proof.Machine

/-- How a fetched instruction is run. -/
abbrev Run := Instr → State → Out

/-- Accepts a request (R191): it is decoded, and run if its operands fit the port. Nonzero reserved control bits are
refused with InvalidCommand (R88). -/
def fetchRequest (run : Run) (r : PortRequest) (s : State) : Out :=
  match decodeRequest r with
  | .error _ => raise .invalidCommand s
  | .ok i => if i.wf s.params then run i s else .fault .operandTooWide

/-- A wire item of format `f` is complete: it is decoded and run. -/
def received (f : WireFormat) (bytes : List Byte) (run : Run) (s : State) : Out :=
  match decodeWire f bytes with
  | .ok i => run i s
  | .error _ => .fault .wireItemUndecodable

/-- The format of a response with bytes after its marker (R79). -/
def restFormat : Sel → WireFormat
  | .r4 => .rspR4
  | _ => .rspR5

/-- One step of the scan (R110), in phase RSP_SCAN(k). -/
def fetchScan (run : Run) (k : Nat) (s : State) : Out :=
  if s.req.scanBound ≤ k then raise .responseTimeout s
  else pull s fun b s =>
    if b = Config.idleByte then received .idle [b] run s
    else
      match s.req.sel with
      | .r1 => received .rspR1 [b] run s
      | _ => .next { s with resp := [b], phase := .rspRest (rspLen s.req.sel - 1) }

/-- One response byte after the marker (R113, R114), in phase RSP_REST(r). -/
def fetchRest (run : Run) (r : Nat) (s : State) : Out :=
  pull s fun b s =>
    if r ≤ 1 then received (restFormat s.req.sel) (s.resp ++ [b]) run s
    else .next { s with resp := s.resp ++ [b], phase := .rspRest (r - 1) }

/-- One poll of a wait of the write path (R131, R133): the idle-fill byte ends it, any other byte costs one poll, and
it fails with no poll left. -/
def fetchWait (run : Run) (p : Nat) (again : Phase) (s : State) : Out :=
  if p = 0 then raise .blockTimeout s
  else pull s fun b s => if b = Config.idleByte then received .idle [b] run s else .next (s.goto again)

/-- One poll for the start token of block `j` (R87, R134). -/
def fetchPoll (run : Run) (j p : Nat) (s : State) : Out :=
  if p = 0 then raise .blockTimeout s
  else pull s fun b s =>
    if b = Config.tokStartSingleByte then received .tokStartSingle [b] run s
    else if b = Config.idleByte then received .idle [b] run s
    else .next (s.goto (.rPoll j (p - 1)))

/-- Reads block `j` from the lent buffer when its turn comes (R64 (c), R132). -/
def State.loadBlock (j : Nat) (s : State) : State :=
  { s with bx := { s.bx with held := memReadBlock s.mem (s.req.blockAddr j) s.req.blockLength } }

/-- The data block being sent: the held payload and its CRC (R77). -/
def State.heldBlock (s : State) : Instr := .dataBlock s.bx.held (crc16 s.params s.bx.held)

/-- The frame of the running EXECUTE (R168). -/
def State.frameItem (s : State) : Instr :=
  .cmdFrame (BitVec.ofNat 6 s.req.index) s.req.arg (frameCrc s.params (BitVec.ofNat 6 s.req.index) s.req.arg)

/-- What one step does (R185, R186). -/
def fetch (run : Run) (s : State) : Out :=
  match s.phase with
  | .idle =>
    match s.env.port with
    | [] => .next s
    | r :: rest => fetchRequest run r { s with env := { s.env with port := rest } }
  | .frame => crcCall .crc7 s fun s => run s.frameItem s
  | .rspScan k => fetchScan run k s
  | .rspRest r => fetchRest run r s
  | .status => statusCheck s
  | .wReady p => fetchWait run p (.wReady (p - 1)) s
  | .wToken => run (if s.req.flags.multi then .tokStartMultiWr else .tokStartSingle) s
  | .wData j 0 => run (s.loadBlock j).heldBlock (s.loadBlock j)
  | .wData _ (_ + 1) => run s.heldBlock s
  | .wCrc _ false => crcCall .crc16 s fun s => run s.heldBlock s
  | .wCrc _ true => run s.heldBlock s
  | .wDresp _ => pull s fun b s => received .dataResp [b] run s
  | .wStop => run .tokStop s
  | .wBusy p => fetchWait run p (.wBusy (p - 1)) s
  | .rPoll j p => fetchPoll run j p s
  | .rData j i => pull s fun b s =>
      .next { s with
        bx := { s.bx with held := s.bx.held ++ [b] },
        phase := if i + 1 < s.req.blockLength then .rData j (i + 1) else .rCrc j false }
  | .rCrc j false => pull s fun b s => .next { s with bx := { s.bx with crcHi := b }, phase := .rCrc j true }
  | .rCrc _ true => pull s fun b s => received .dataBlock (s.bx.held ++ [s.bx.crcHi, b]) run s
  | .done => .next s.finish

/-- One step with the hardware reset signal (R232, R240): it is taken in IDLE only; in any other phase it is outside the
specified behaviour (U4). -/
def stepWith (run : Run) (s : State) : Out :=
  if s.env.resetLine then
    if s.phase = .idle then .next s.hardwareReset else .fault .resetDuringOperation
  else fetch run s

/-- Puts the bytes the slave is about to send before those already waiting. -/
def State.feed (bytes : List Byte) (s : State) : State :=
  { s with env := { s.env with slave := bytes.map WireAnswer.byte ++ s.env.slave } }

/-- The machine at rest in IDLE with the reset signal low, whatever it was doing. -/
def State.quieten (s : State) : State :=
  { s with
    phase := .idle, req := Request.blank, bx := BlockXfer.blank, resp := []
    env := { s.env with resetLine := false } }

/-- Places an encoded instruction where the next step fetches it: a request at the head of the port; a wire item by
the phase that sends or receives it, the request that leads there, and for a received item its bytes at the slave. -/
def place (e : Encoding) (s : State) : State :=
  let q := s.quieten
  let wr := Request.ofXfer true false { buf := some 0, dataLen := 1, blockLength := 1, timeout := 1 }
  let rd := Request.ofXfer false false { buf := some 0, dataLen := 1, blockLength := 1, timeout := 1 }
  match e with
  | .request r => { q with env := { q.env with port := r :: q.env.port } }
  | .wire .cmdFrame bytes =>
    match decodeWire .cmdFrame bytes with
    | .ok (.cmdFrame index arg _) =>
      (q.latch { Request.blank with op := .execute, index := index.toNat, arg := arg }).goto .frame
    | _ => q
  | .wire .idle bytes => ((q.latch wr).goto (.wReady 1)).feed bytes
  | .wire .tokStartSingle _ => ((q.latch wr).startBlocks 1).goto .wToken
  | .wire .tokStartMultiWr _ => ((q.latch { wr with flags := { wr.flags with multi := true } }).startBlocks 1).goto .wToken
  | .wire .tokStop _ => ((q.latch { wr with flags := { wr.flags with multi := true } }).startBlocks 1).goto .wStop
  | .wire .dataBlock bytes =>
    ({ q with
        req := { rd with dataLen := bytes.length - 2, blockLength := bytes.length - 2 }
        bx := { nblocks := 1, doneBytes := 0, held := bytes.take (bytes.length - 2),
                crcHi := bytes.getD (bytes.length - 2) 0 }
        phase := .rCrc 0 true }).feed (bytes.drop (bytes.length - 1))
  | .wire .dataResp bytes => (((q.latch wr).startBlocks 1).goto (.wDresp 0)).feed bytes
  | .wire .rspR1 bytes => ((q.latch (Request.ofDecode .r1)).goto (.rspScan 0)).feed bytes
  | .wire .rspR4 bytes =>
    ({ q with req := Request.ofDecode .r4, resp := bytes.take 4, phase := .rspRest 1 }).feed (bytes.drop 4)
  | .wire .rspR5 bytes =>
    ({ q with req := Request.ofDecode .r5, resp := bytes.take 1, phase := .rspRest 1 }).feed (bytes.drop 1)

/-- Places the word that `decodeTableWord` reads; a width that no format has changes nothing. -/
def placeWord (s : State) (nbits w : Nat) : State :=
  match tableEncoding nbits w with
  | some e => place e s
  | none => s

end Sys2Proof.Machine
end

