-- ==== Sys2Proof/Safety.lean ====
section
/-! DEFINITION. What a safe run is, in the terms the statements use: runs of several steps, the invariant that every
step keeps (R35, R186), and the bounds on what is left of a running operation (R190). -/

namespace Sys2Proof

open Machine

/-! ### Operands -/

/-- The control word asks for the operation with code `op` (R88, R90): `ctl[15:10]` is zero, and the fields `sel` and
`flags` hold anything. -/
def PortRequest.asks (r : PortRequest) (op : BitVec 4) : Prop :=
  r.ctl.extractLsb' 0 4 = op ∧ r.ctl.extractLsb' 10 6 = 0

/-- The control word's `sel` field (R83 (g)). -/
def PortRequest.sel (r : PortRequest) : BitVec 2 := r.ctl.extractLsb' 4 2

/-- The geometry and the flags of an admitted transfer of `n` blocks (R126 A1 to A3). -/
def XferArgs.blocks (x : XferArgs) (multi : Bool) (n : Nat) : Prop :=
  x.buf ≠ none ∧ 1 ≤ x.blockLength ∧ x.blockLength ≤ Config.maxBlock ∧ 1 ≤ n ∧ x.dataLen = n * x.blockLength ∧
    (multi = false → n = 1)

/-- The operands of TRANSFER that a descriptor carries. -/
def Descriptor.xferArgs (d : Descriptor) : XferArgs :=
  { buf := d.buf, dataLen := d.dataLen, blockLength := d.blockLength, timeout := d.timeout }

/-- The caller-memory address `a` lies in the buffer that the descriptor lends (R51). -/
def Descriptor.lends (d : Descriptor) (a : Nat) : Prop := ∃ base, d.buf = some base ∧ base ≤ a ∧ a < base + d.dataLen

/-- The descriptor passes V1 to V4 (R166). -/
def Descriptor.consistent (d : Descriptor) : Prop :=
  d.index ≤ 63 ∧ d.flags.noresp = decide (d.sel = .none) ∧
    (d.flags.data = false → d.flags.multi = false ∧ d.flags.write = false)

/-- The bytes `win` of the response window carry the response `rsp` to the command (R169, R170): nothing where none is
expected, else fewer than `min(8, timeout)` idle bytes, the marker and the rest of the response, and no fatal status. -/
def Descriptor.answered (d : Descriptor) (p : Params) (win rsp : List Byte) : Prop :=
  match d.sel with
  | .none => win = [] ∧ rsp = []
  | sel => ∃ k m ps, k < min 8 d.timeout ∧ m ≠ Config.idleByte ∧ ps.length + 1 = rspLen sel ∧
      win = List.replicate k Config.idleByte ++ m :: ps ∧ rsp = m :: ps ∧
      (sel = .r1 → m &&& fatalMask p d.index = 0)

/-- Steps from the frame to the end of the response: the frame, the window's bytes, and the status check of R1. -/
def Descriptor.responseSteps (d : Descriptor) (win : List Byte) : Nat :=
  1 + win.length + (if d.sel = .r1 then 1 else 0)

end Sys2Proof

namespace Sys2Proof.Machine

/-- `n` steps, stopping at the first fault or refusal. -/
def steps : Nat → State → Out
  | 0, s => .next s
  | n + 1, s =>
    match step s with
    | .next t => steps n t
    | .fault r => .fault r
    | .refused r => .refused r

/-- At most `n` steps, ending where the running operation ends. -/
def stepsToIdle : Nat → State → Out
  | 0, s => .next s
  | n + 1, s =>
    if s.phase = .idle then .next s
    else
      match step s with
      | .next t => stepsToIdle n t
      | .fault r => .fault r
      | .refused r => .refused r

/-- An operation by itself: its acceptance and at most `n` steps of it. -/
def runOperation (i : Instr) (n : Nat) (s : State) : Out :=
  match exec i s with
  | .next t => stepsToIdle n t
  | .fault r => .fault r
  | .refused r => .refused r

/-- CORE is at rest and the reset signal is low: the next step accepts a request, or waits (R191, R231). -/
def State.ready (s : State) : Prop := s.phase = .idle ∧ s.env.resetLine = false

/-- The slave's next answers are the bytes `bs`, and `rest` comes after them. -/
def State.slaveSends (s : State) (bs : List Byte) (rest : List WireAnswer) : Prop :=
  s.env.slave = bs.map WireAnswer.byte ++ rest

/-- No CRC call of the coming operation ends in an error. -/
def State.crcSound (s : State) : Prop := s.env.crcErrs = []

/-- Whether an instruction is an operation request (R90); the others are wire formats. -/
def isRequest (i : Instr) : Bool :=
  match encode i with
  | .request _ => true
  | .wire _ _ => false

/-- `s` after one byte exchange that sent `b` and received `r`, with `rest` left of the slave's answers. -/
def State.exchanged (b r : Byte) (rest : List WireAnswer) (s : State) : State :=
  { s with env := { s.env with slave := rest }, trace := s.trace ++ [(b, r)] }

/-- The trace of pulling the bytes `bs` (R15). -/
def pulls (bs : List Byte) : List (Byte × Byte) := bs.map fun b => (Config.idleByte, b)

/-- `s` after exchanges that add `w` to the trace, with `rest` left of the slave's answers. -/
def State.traced (w : List (Byte × Byte)) (rest : List WireAnswer) (s : State) : State :=
  { s with env := { s.env with slave := rest }, trace := s.trace ++ w }

/-- The result registers with an outcome and nothing else (R22, R211). -/
def Results.only (o : OpOutcome) : Results := { Results.blank with outcome := some o }

/-- The coming CRC call succeeds, and `s'` is `s` after it. -/
def State.crcAnswers (s s' : State) : Prop :=
  (s.env.crcErrs = [] ∧ s' = s) ∨
    ∃ rest, s.env.crcErrs = none :: rest ∧ s' = { s with env := { s.env with crcErrs := rest } }

/-- The operation ended with the failure `f` (R211): back in IDLE, no other result register holds a value, the transient
state is gone. -/
def State.failedWith (f : OpOutcome) (t : State) : Prop :=
  t.phase = .idle ∧ t.results = Results.only f ∧ t.req = Request.blank ∧
    t.bx = BlockXfer.blank ∧ t.resp = []

/-- The wire trace of the written blocks from block `j` on: for each block the payload in the buffer and its CRC, high
byte first, against bytes that CORE discards, then the data-response byte pulled (R132). -/
def writeTrace (p : Params) (m : Memory) (base bl : Nat) : Nat → List (List Byte × Byte) → List (Byte × Byte)
  | _, [] => []
  | j, (ignored, d) :: blocks =>
    (memReadBlock m (base + j * bl) bl ++ crcBytes (crc16 p (memReadBlock m (base + j * bl) bl))).zip ignored ++
      (Config.idleByte, d) :: writeTrace p m base bl (j + 1) blocks

/-- What the slave sends for one block of a read: bytes that are not the start token, the start token, the payload and
its CRC (R134, R135). -/
def sentBlock (p : Params) (q : List Byte × List Byte) : List Byte :=
  q.1 ++ Config.tokStartSingleByte :: (q.2 ++ crcBytes (crc16 p q.2))

/-- The four variants of TRANSFER (R125). -/
def xferInstr (write multi : Bool) (x : XferArgs) : Instr :=
  match write, multi with
  | true, false => .xferWrSingle x
  | true, true => .xferWrMulti x
  | false, false => .xferRdSingle x
  | false, true => .xferRdMulti x

/-- The units or bytes A5 reserves for a transfer of `n` blocks (R126). -/
def FlowControl.need (fc : FlowControl) (write : Bool) (n bl : Nat) : Nat :=
  if write then n * fc.units bl else n * bl

/-- The credit collaborator's next answer is the count `a`, which fits CREDIT_W bits. -/
def State.creditIs (s : State) (a : Nat) (rest : List CreditAnswer) : Prop :=
  s.env.credit = .count a :: rest ∧ a < 2 ^ s.params.creditW

/-- `s` after that answer was taken. -/
def State.creditTaken (rest : List CreditAnswer) (s : State) : State := { s with env := { s.env with credit := rest } }

/-- What the checks A1 to A5 of the operands `x` say of `out`, the outcome of the request that `s` accepts (R126): the
first that fails decides it, no wire byte is exchanged and nothing else changes. A credit read that ends in an error takes
the place of A5's comparison (R210). Where all of them pass this says nothing of `out`. -/
def XferRefusals (write multi : Bool) (x : XferArgs) (s : State) (out : Out) : Prop :=
  let refused := fun f => out = .next (s.endOperation (Results.only f))
  if x.buf = none ∨ x.blockLength = 0 then refused .invalidCommand
  else if 512 < (if multi then x.blockLength else max x.blockLength x.dataLen) then refused .blockTooLarge
  else if x.dataLen = 0 ∨ x.dataLen % x.blockLength ≠ 0 then refused .invalidCommand
  else if multi = false ∧ x.dataLen ≠ x.blockLength then refused .invalidCommand
  else if s.fc.configured = false then refused .invalidCommand
  else
    (∀ a rest, s.creditIs a rest → a < s.fc.need write (x.dataLen / x.blockLength) x.blockLength →
      out = .next ((s.creditTaken rest).endOperation (Results.only .insufficientCredit))) ∧
    (∀ code rest, s.env.credit = .error code :: rest →
      out = .next ((s.creditTaken rest).endOperation (Results.only (.collaboratorError .credit .idle code))))

/-- The next step calls the raw transfer primitive, provided that no CRC call before it fails. -/
def State.exchangesNext (s : State) : Bool :=
  match s.phase with
  | .idle => false
  | .frame => true
  | .rspScan k => decide (k < s.req.scanBound)
  | .rspRest _ => true
  | .status => false
  | .wReady p => decide (0 < p)
  | .wToken => true
  | .wData _ _ => true
  | .wCrc _ _ => true
  | .wDresp _ => true
  | .wStop => true
  | .wBusy p => decide (0 < p)
  | .rPoll _ p => decide (0 < p)
  | .rData _ _ => true
  | .rCrc _ _ => true
  | .done => false

/-- Runs commits one after the other, each with its step of phase DONE. -/
def runCommits : List Instr → State → Out
  | [], s => .next s
  | i :: is, s =>
    match exec i s with
    | .next t =>
      match step t with
      | .next u => runCommits is u
      | .fault r => .fault r
      | .refused r => .refused r
    | .fault r => .fault r
    | .refused r => .refused r

/-- The units a commit adds to the send counter (R158). -/
def FlowControl.unitsOf (fc : FlowControl) : Instr → Nat
  | .commitSend n => fc.units n
  | _ => 0

/-- The bytes a commit adds to the receive counter (R158). -/
def bytesOf : Instr → Nat
  | .commitRecv n => n
  | _ => 0

/-- The two outcomes are of one kind, and next states are related by `R`. -/
def Agree (R : State → State → Prop) : Out → Out → Prop
  | .next t, .next t' => R t t'
  | .fault f, .fault f' => f = f'
  | .refused r, .refused r' => r = r'
  | _, _ => False

/-- `t'` is `t` but for the trace before the current run, which was `w` and `w'`, and the result registers where both
still hold what they held before it, `r` and `r'`. -/
def Alike (r r' : Results) (w w' : List (Byte × Byte)) (t t' : State) : Prop :=
  ∃ run, t.trace = w ++ run ∧ t'.trace = w' ++ run ∧ { t' with results := t.results, trace := t.trace } = t ∧
    (t'.results = t.results ∨ (t.results = r ∧ t'.results = r'))

/-- What two EXECUTEs of a descriptor may find different (R173): whatever ran before, which shows in the wire trace and
in the result registers, the requests that wait, and memory outside the lent buffer. -/
def SameGround (d : Descriptor) (s s' : State) : Prop :=
  (∀ a, d.lends a → memRead s'.mem a = memRead s.mem a) ∧
    { s' with
      results := s.results, trace := s.trace, mem := s.mem, env := { s'.env with port := s.env.port } } = s

/-- `t` and `t'`, reached from `s` and `s'`, differ as those did: the exchanges, the state, the lent buffer and, once the
operation has ended, the results are the same. -/
def SameRun (d : Descriptor) (s s' t t' : State) : Prop :=
  SameGround d t t' ∧ (∃ run, t.trace = s.trace ++ run ∧ t'.trace = s'.trace ++ run) ∧
    (t'.results = t.results ∨ (t.results = s.results ∧ t'.results = s'.results))

/-! ### The invariant -/

/-- An admitted data phase (R126): CORE is configured, a buffer is lent, the buffer is a whole number of blocks of 1 to
512 bytes, a single-block transfer has one block, and the running operation is one that moves data. -/
def State.admitted (s : State) : Prop :=
  s.fc.configured = true ∧ s.req.buf ≠ none ∧ 1 ≤ s.req.blockLength ∧ s.req.blockLength ≤ Config.maxBlock ∧
    1 ≤ s.bx.nblocks ∧ s.req.dataLen = s.bx.nblocks * s.req.blockLength ∧
    (s.req.flags.multi = false → s.bx.nblocks = 1) ∧
    (s.req.op = .transfer ∨ (s.req.op = .execute ∧ s.req.flags.data = true))

/-- The response is complete, where the operation has one (R79). -/
def State.responded (s : State) : Prop :=
  match s.req.op with
  | .decode => s.resp.length = rspLen s.req.sel
  | .execute => s.resp.length = rspLen s.req.sel
  | _ => s.resp = []

/-- Nothing of the data phase has been moved yet (R165): the response comes before it. -/
def State.beforeData (s : State) : Prop :=
  s.bx.doneBytes = 0 ∧
    match s.req.op with
    | .decode => True
    | .execute => s.req.index ≤ 63 ∧ (s.req.flags.data = true → s.admitted)
    | _ => False

/-- A write is under way, `done` payload bytes of it in completed blocks. -/
def State.writing (s : State) (done : Nat) : Prop :=
  s.admitted ∧ s.responded ∧ s.req.flags.write = true ∧ s.bx.doneBytes = done

/-- A read is under way, `done` payload bytes of it in completed blocks. -/
def State.reading (s : State) (done : Nat) : Prop :=
  s.admitted ∧ s.responded ∧ s.req.flags.write = false ∧ s.bx.doneBytes = done

/-- The payload held for block `j` is the buffer's (R64 (c)). -/
def State.holds (s : State) (j : Nat) : Prop :=
  s.bx.held = memReadBlock s.mem (s.req.blockAddr j) s.req.blockLength

/-- What each phase says of the transient state (R20, R31, R32, R186). -/
def State.phaseInv (s : State) : Prop :=
  match s.phase with
  | .idle => s.req = Request.blank ∧ s.bx = BlockXfer.blank ∧ s.resp = []
  | .frame => s.req.op = .execute ∧ s.beforeData ∧ s.resp = []
  | .rspScan k => s.beforeData ∧ s.resp = [] ∧ s.req.sel ≠ .none ∧ k ≤ s.req.scanBound
  | .rspRest r => s.beforeData ∧ (s.req.sel = .r4 ∨ s.req.sel = .r5) ∧ 1 ≤ r ∧
      s.resp.length + r = rspLen s.req.sel ∧ s.resp.head? ≠ some Config.idleByte ∧ s.resp ≠ []
  | .status => s.beforeData ∧ s.req.sel = .r1 ∧ s.resp.length = 1
  | .wReady p => s.writing 0 ∧ p ≤ s.req.timeout
  | .wToken => s.writing 0
  | .wData j i => s.writing (j * s.req.blockLength) ∧ j < s.bx.nblocks ∧ i < s.req.blockLength ∧
      (0 < i → s.holds j)
  | .wCrc j _ => s.writing (j * s.req.blockLength) ∧ j < s.bx.nblocks ∧ s.holds j
  | .wDresp j => s.writing (j * s.req.blockLength) ∧ j < s.bx.nblocks
  | .wStop => s.writing s.req.dataLen ∧ s.req.flags.multi = true
  | .wBusy p => s.writing s.req.dataLen ∧ s.req.flags.multi = true ∧ p ≤ s.req.timeout
  | .rPoll j p => s.reading (j * s.req.blockLength) ∧ j < s.bx.nblocks ∧ p ≤ s.req.timeout
  | .rData j i => s.reading (j * s.req.blockLength) ∧ j < s.bx.nblocks ∧ i < s.req.blockLength ∧ s.bx.held.length = i
  | .rCrc j _ => s.reading (j * s.req.blockLength) ∧ j < s.bx.nblocks ∧ s.bx.held.length = s.req.blockLength
  | .done =>
    match s.req.op with
    | .encode => s.req.index ≤ 63 ∧ s.resp = []
    | .decode => s.responded
    | .transfer => s.admitted ∧ s.responded ∧ s.bx.doneBytes = s.req.dataLen
    | .execute => s.responded ∧ s.bx.doneBytes = (if s.req.flags.data then s.req.dataLen else 0) ∧
        (s.req.flags.data = true → s.admitted)
    | _ => s.resp = []

/-- The invariant: legal parameters (R10), memory in canonical form, configured sizes legal (R25, R26, R35 (c)), both counters within CNT_W bits
(R241), and the transient state what the phase says. -/
def State.Inv (s : State) : Prop :=
  s.params.legal ∧ Memory.wf s.mem ∧
    (s.fc.configured = true →
      1 ≤ s.fc.bufferSize ∧ 1 ≤ s.fc.blockSize ∧ s.fc.blockSize ≤ Config.blockSizeMax) ∧
    s.fc.txSentBuffers < 2 ^ s.params.cntW ∧ s.fc.rxGotBytes < 2 ^ s.params.cntW ∧ s.phaseInv

/-! ### What is left of a running operation (R190) -/

/-- Wire bytes of the write path from the first byte of block `j` on, after it the stop token and its wait. -/
def State.writeBytes (s : State) (j : Nat) : Nat :=
  (s.bx.nblocks - j) * (s.req.blockLength + 3) + (if s.req.flags.multi then 1 + s.req.timeout else 0)

/-- Wire bytes of the read path from the first poll of block `j` on. -/
def State.readBytes (s : State) (j : Nat) : Nat :=
  (s.bx.nblocks - j) * (s.req.timeout + s.req.blockLength + 2)

/-- Wire bytes of a data phase still to come. -/
def State.dataBytes (s : State) : Nat :=
  match s.req.op with
  | .execute =>
    if s.req.flags.data then (if s.req.flags.write then s.req.timeout + 1 + s.writeBytes 0 else s.readBytes 0) else 0
  | _ => 0

/-- The most wire bytes the running operation can still exchange (R190). -/
def State.wireLeft (s : State) : Nat :=
  match s.phase with
  | .idle => 0
  | .frame => Config.frameLen + (s.req.scanBound + 4) + s.dataBytes
  | .rspScan k => (s.req.scanBound - k) + 4 + s.dataBytes
  | .rspRest r => r + s.dataBytes
  | .status => s.dataBytes
  | .wReady p => p + 1 + s.writeBytes 0
  | .wToken => 1 + s.writeBytes 0
  | .wData j i => (s.req.blockLength - i) + 3 + s.writeBytes (j + 1)
  | .wCrc j false => 3 + s.writeBytes (j + 1)
  | .wCrc j true => 2 + s.writeBytes (j + 1)
  | .wDresp j => 1 + s.writeBytes (j + 1)
  | .wStop => 1 + s.req.timeout
  | .wBusy p => p
  | .rPoll j p => p + s.req.blockLength + 2 + s.readBytes (j + 1)
  | .rData j i => (s.req.blockLength - i) + 2 + s.readBytes (j + 1)
  | .rCrc j false => 2 + s.readBytes (j + 1)
  | .rCrc j true => 1 + s.readBytes (j + 1)
  | .done => 0

/-- Steps of the write path from the first byte of block `j` on, to the end of the operation. -/
def State.writeSteps (s : State) (j : Nat) : Nat :=
  (s.bx.nblocks - j) * (s.req.blockLength + 3) + (if s.req.flags.multi then s.req.timeout + 3 else 1)

/-- Steps of the read path from the first poll of block `j` on, to the end of the operation. -/
def State.readSteps (s : State) (j : Nat) : Nat :=
  (s.bx.nblocks - j) * (s.req.timeout + s.req.blockLength + 3) + 1

/-- Steps of what follows the response. -/
def State.dataSteps (s : State) : Nat :=
  match s.req.op with
  | .execute =>
    if s.req.flags.data then (if s.req.flags.write then s.req.timeout + 2 + s.writeSteps 0 else s.readSteps 0) else 1
  | _ => 1

/-- The most steps to the end of the running operation (R190). -/
def State.stepsLeft (s : State) : Nat :=
  match s.phase with
  | .idle => 0
  | .frame => s.req.scanBound + 7 + s.dataSteps
  | .rspScan k => (s.req.scanBound - k) + 6 + s.dataSteps
  | .rspRest r => r + 1 + s.dataSteps
  | .status => 1 + s.dataSteps
  | .wReady p => p + 2 + s.writeSteps 0
  | .wToken => 1 + s.writeSteps 0
  | .wData j i => (s.req.blockLength - i) + 3 + s.writeSteps (j + 1)
  | .wCrc j false => 3 + s.writeSteps (j + 1)
  | .wCrc j true => 2 + s.writeSteps (j + 1)
  | .wDresp j => 1 + s.writeSteps (j + 1)
  | .wStop => s.req.timeout + 3
  | .wBusy p => p + 2
  | .rPoll j p => p + 1 + s.req.blockLength + 2 + s.readSteps (j + 1)
  | .rData j i => (s.req.blockLength - i) + 2 + s.readSteps (j + 1)
  | .rCrc j false => 2 + s.readSteps (j + 1)
  | .rCrc j true => 1 + s.readSteps (j + 1)
  | .done => 1

end Sys2Proof.Machine
end

