-- ==== Sys2Proof/Certificates/Slice0/Obligations.lean ====
section
/-! DEFINITION. The statements for the provers. Each docstring cites the rules of spec/ that the statement formalises.
A request's statement gives the state that `exec` answers and, where a second step of phase DONE writes the result
registers (R172, R187), the state after that step. `State.endOperation` says what ending an operation leaves: the result
registers written, the transient state discarded, phase IDLE. -/

open Sys2Proof Sys2Proof.Machine

/-! ### Reset, fetching and decoding -/

/-- R37, R230: what hardware reset leaves, as far as the spec gives it. -/
def Obligations.ResetState : Prop :=
  State.reset.phase = .idle ∧ State.reset.fc.txSentBuffers = 0 ∧ State.reset.fc.rxGotBytes = 0 ∧
    State.reset.fc.configured = false ∧ State.reset.results = Results.blank ∧ State.reset.trace = []

/-- The invariant holds after reset. -/
def Obligations.ResetMeetsInvariant : Prop := State.reset.Inv

/-- R230, R231, R232: hardware reset in IDLE puts CORE's state at the values of R37; in any other phase it is a fault.
That what is outside CORE stays is the model's choice (log entry 16), and so is the order where a request waits: reset is
taken first, and the request still waits after it (log entry 6). -/
def Obligations.HardwareReset : Prop :=
  ∀ s : State, s.env.resetLine = true →
    (s.phase = .idle → ∃ t, step s = .next t ∧ t.phase = .idle ∧ t.fc.txSentBuffers = 0 ∧ t.fc.rxGotBytes = 0 ∧
      t.fc.configured = false ∧ t.results = Results.blank ∧ t.trace = [] ∧ t.resp = [] ∧ t.req = Request.blank ∧
      t.bx = BlockXfer.blank ∧ t.params = s.params ∧ t.mem = s.mem ∧ t.env = { s.env with resetLine := false }) ∧
    (s.phase ≠ .idle → step s = .fault .resetDuringOperation)

/-- R191, R231: in IDLE a step runs the request at the port, and with none there CORE waits. A request whose operands fit
the port is run by `exec`; the request leaves the port. -/
def Obligations.StepRunsRequest : Prop :=
  ∀ s : State, s.ready →
    (s.env.port = [] → step s = .next s) ∧
    (∀ r rest i, s.env.port = r :: rest → decodeRequest r = .ok i →
      (i.wf s.params = true → step s = exec i { s with env := { s.env with port := rest } }) ∧
      (i.wf s.params = false → step s = .fault .operandTooWide))

/-- R185, R186: in a wire phase a step runs, by `exec`, the item the phase sends, or the item that the byte just received
completes; where the byte completes none, the sequencer goes on as R186 says. -/
def Obligations.StepRunsWireItem : Prop :=
  ∀ s : State, s.env.resetLine = false →
    (s.phase = .frame → s.crcSound →
      step s = exec (.cmdFrame (BitVec.ofNat 6 s.req.index) s.req.arg
        (crc7 s.params (frameHead (BitVec.ofNat 6 s.req.index) s.req.arg))) s) ∧
    (s.phase = .wToken → step s = exec (if s.req.flags.multi then .tokStartMultiWr else .tokStartSingle) s) ∧
    (∀ j, s.phase = .wData j 0 →
      let p := memReadBlock s.mem (s.req.blockAddr j) s.req.blockLength
      step s = exec (.dataBlock p (crc16 s.params p)) { s with bx := { s.bx with held := p } }) ∧
    (∀ j i, s.phase = .wData j (i + 1) → step s = exec (.dataBlock s.bx.held (crc16 s.params s.bx.held)) s) ∧
    (∀ j low, s.phase = .wCrc j low → s.crcSound →
      step s = exec (.dataBlock s.bx.held (crc16 s.params s.bx.held)) s) ∧
    (s.phase = .wStop → step s = exec .tokStop s) ∧
    (∀ b rest, s.env.slave = .byte b :: rest →
      let u := s.exchanged Config.idleByte b rest
      (∀ k, s.phase = .rspScan k → k < s.req.scanBound →
        step s = if b = Config.idleByte then exec .idle u else if s.req.sel = .r1 then exec (.rspR1 b) u
          else .next { u with resp := [b], phase := .rspRest (rspLen s.req.sel - 1) }) ∧
      (∀ m p1 p2 p3, s.phase = .rspRest 1 → m ≠ Config.idleByte →
        (s.req.sel = .r4 → s.resp = [m, p1, p2, p3] → step s = exec (.rspR4 m p1 p2 p3 b) u) ∧
        (s.req.sel = .r5 → s.resp = [m] → step s = exec (.rspR5 m b) u)) ∧
      (∀ r, s.phase = .rspRest (r + 2) →
        step s = .next { u with resp := s.resp ++ [b], phase := .rspRest (r + 1) }) ∧
      (∀ p, s.phase = .wReady (p + 1) →
        step s = if b = Config.idleByte then exec .idle u else .next { u with phase := .wReady p }) ∧
      (∀ p, s.phase = .wBusy (p + 1) →
        step s = if b = Config.idleByte then exec .idle u else .next { u with phase := .wBusy p }) ∧
      (∀ j, s.phase = .wDresp j → step s = exec (.dataResp b) u) ∧
      (∀ j p, s.phase = .rPoll j (p + 1) →
        step s = if b = Config.tokStartSingleByte then exec .tokStartSingle u
          else if b = Config.idleByte then exec .idle u else .next { u with phase := .rPoll j p }) ∧
      (∀ j i, s.phase = .rData j i →
        step s = .next { u with
          bx := { s.bx with held := s.bx.held ++ [b] },
          phase := if i + 1 < s.req.blockLength then .rData j (i + 1) else .rCrc j false }) ∧
      (∀ j, s.phase = .rCrc j false →
        step s = .next { u with bx := { s.bx with crcHi := b }, phase := .rCrc j true }) ∧
      (∀ j, s.phase = .rCrc j true → 1 ≤ s.bx.held.length → s.bx.held.length ≤ Config.maxBlock →
        step s = exec (.dataBlock s.bx.held (s.bx.crcHi ++ b)) u))

/-- R71, R76, R77, R79, R81, R82, R90: words written out from the encodings decode to what they stand for. How a word is
read without a phase is the model's choice (log entry 18): by its length, 16 bits as a control word with zero operands,
24 bits as a data block of one byte, 40 bits as RSP_R4. -/
def Obligations.WordsDecode : Prop :=
  decodeTableWord 16 0b0000000000000000 = some (.encode 0 0) ∧
    decodeTableWord 16 0b0000000000110001 = some .decodeR5 ∧
    decodeTableWord 16 0b0000000110000010 = some (.xferWrMulti { buf := none, dataLen := 0, blockLength := 0, timeout := 0 }) ∧
    decodeTableWord 16 0b0000000000001000 = some .fcReset ∧
    decodeTableWord 16 0b0000000000001110 = some (.reservedCF 2) ∧
    decodeTableWord 16 0b0000010000001000 = none ∧
    decodeTableWord 48 0xD10000000074 = some (.cmdFrame 52 0 0x68) ∧
    decodeTableWord 8 0b11111110 = some .tokStartSingle ∧
    decodeTableWord 24 0x627811 = some (.dataBlock [0x11] 0x7862) ∧
    decodeTableWord 40 0x0080FF1000 = some (.rspR4 0x00 0x10 0xFF 0x80 0x00)

/-- R71 to R83, R90: every instruction that the port or the wire can carry decodes from its encoding. -/
def Obligations.DecodeEncodeAgree : Prop :=
  ∀ (p : Params) (i : Instr), i.wf p = true → decode (encode i) = .ok i

/-- R88, R202: a request with a reserved operation code or a nonzero reserved bit ends with InvalidCommand; no wire
byte, no other state change. -/
def Obligations.ReservedRequestsRefused : Prop :=
  (∀ (s : State) (b : BitVec 1) (c : BitVec 2), s.phase = .idle →
    exec (.reservedAB b) s = .next (s.endOperation (Results.only .invalidCommand)) ∧
    exec (.reservedCF c) s = .next (s.endOperation (Results.only .invalidCommand))) ∧
  (∀ (s : State) (r : PortRequest) (rest : List PortRequest), s.ready → s.env.port = r :: rest →
    r.ctl.extractLsb' 10 6 ≠ 0 ∨ 10 ≤ (r.ctl.extractLsb' 0 4).toNat →
    step s = .next ({ s with env := { s.env with port := rest } }.endOperation (Results.only .invalidCommand)))

/-- R191: a request meets a busy CORE and waits: nothing happens, and no step outside IDLE takes a request from the
port. -/
def Obligations.RequestsWaitOutsideIdle : Prop :=
  ∀ s : State, s.phase ≠ .idle →
    (∀ i, isRequest i = true → exec i s = .next s) ∧ (∀ t, step s = .next t → t.env.port = s.env.port)

/-! ### Frames -/

/-- R62, R101, R111 to R114, R126, R151 to R156, R202: what the acceptance of a request leaves unchanged. The wire
trace, the buffer memory, the slave, the port and the parameters are untouched; only the commits, FC_RESET and CONFIG
write the flow-control state, and only the named fields; the other registers change only when the request fails. -/
def Obligations.RequestFrame : Prop :=
  ∀ (i : Instr) (s t : State), isRequest i = true → exec i s = .next t →
    t.trace = s.trace ∧ t.mem = s.mem ∧ t.params = s.params ∧ t.env.port = s.env.port ∧
      t.env.resetLine = s.env.resetLine ∧ t.env.slave = s.env.slave ∧
      ((t.resp = s.resp ∧ t.results = s.results) ∨ ∃ f, t.failedWith f) ∧
      match i with
      | .commitSend _ => t.fc = { s.fc with txSentBuffers := t.fc.txSentBuffers }
      | .commitRecv _ => t.fc = { s.fc with rxGotBytes := t.fc.rxGotBytes }
      | .fcReset => t.fc = { s.fc with txSentBuffers := t.fc.txSentBuffers, rxGotBytes := t.fc.rxGotBytes }
      | .config _ _ =>
        t.fc.txSentBuffers = s.fc.txSentBuffers ∧ t.fc.rxGotBytes = s.fc.rxGotBytes
      | _ => t.fc = s.fc

/-- R64, R68, R91, R131 to R136, R168: what a wire item leaves unchanged. Only DATA_RESP writes the send counter, only
DATA_BLOCK the receive counter, and no other field of the flow-control state is written. Only DATA_BLOCK writes the
buffer memory, and only in the last phase of a block being read: where it goes on, no address outside the block reads
otherwise, and where it fails, none outside the rest of the lent buffer. An item that CORE has received, the start token
of a read and the block of a read among them, adds nothing to the wire trace; an item that CORE sends adds the bytes it
sends (of a DATA_BLOCK one byte: of its payload or of its CRC), unless its transfer call fails. Two clauses are the
model's choice: where the call fails nothing is added (log entry 10), and past its end a DATA_BLOCK sends 0, which no step
does (log entry 14). -/
def Obligations.WireItemFrame : Prop :=
  ∀ (i : Instr) (s t : State), isRequest i = false → exec i s = .next t →
    t.params = s.params ∧ t.env.port = s.env.port ∧ t.env.resetLine = s.env.resetLine ∧
      t.env.credit = s.env.credit ∧
      t.fc = { s.fc with txSentBuffers := t.fc.txSentBuffers, rxGotBytes := t.fc.rxGotBytes } ∧
      ((∀ d, i ≠ .dataResp d) → t.fc.txSentBuffers = s.fc.txSentBuffers) ∧
      ((∀ p c, i ≠ .dataBlock p c) → t.fc.rxGotBytes = s.fc.rxGotBytes) ∧
      ((∀ p c j, i = .dataBlock p c → s.phase ≠ .rCrc j true) → t.mem = s.mem) ∧
      (∀ p c j a, i = .dataBlock p c → s.phase = .rCrc j true → Memory.wf s.mem →
        (t.phase ≠ .idle → a < s.req.blockAddr j ∨ s.req.blockAddr j + p.length ≤ a →
          memRead t.mem a = memRead s.mem a) ∧
        (t.phase = .idle →
          a < s.req.blockAddr j ∨ s.req.blockAddr j + (s.req.dataLen - j * s.req.blockLength) ≤ a →
          memRead t.mem a = memRead s.mem a)) ∧
      (t.results = s.results ∨ ∃ f, t.failedWith f) ∧
      let callFailed := t.trace = s.trace ∧ ∃ code, t.failedWith (.collaboratorError .transfer s.phase code)
      match i with
      | .cmdFrame x a c => callFailed ∨ ∃ rx, rx.length = 6 ∧ t.trace = s.trace ++ (frameOf x a c).zip rx
      | .tokStartSingle =>
        ((∃ j p, s.phase = .rPoll j p) → t.trace = s.trace) ∧
          ((∀ j p, s.phase ≠ .rPoll j p) → callFailed ∨ ∃ b, t.trace = s.trace ++ [(Config.tokStartSingleByte, b)])
      | .tokStartMultiWr => callFailed ∨ ∃ b, t.trace = s.trace ++ [(Config.tokStartMultiWrByte, b)]
      | .tokStop => callFailed ∨ ∃ b, t.trace = s.trace ++ [(Config.tokStopByte, b)]
      | .dataBlock p c =>
        ((∃ j, s.phase = .rCrc j true) → t.trace = s.trace) ∧
          ((∀ j, s.phase ≠ .rCrc j true) →
            callFailed ∨ ∃ x b, x ∈ p ++ 0 :: crcBytes c ∧ t.trace = s.trace ++ [(x, b)])
      | _ => t.trace = s.trace

/-- R14, R51, R68: a step changes no byte of memory outside the buffer lent to the running operation, and none of it in a
write. That it changes none outside the two phases that read a block, a poll for a start token that runs out of budget
among them, is the model's reading (log entry 9, after V34 and V37): R68 can be read to cover the poll. -/
def Obligations.StoresStayInBuffer : Prop :=
  ∀ (s t : State), s.Inv → step s = .next t → ∀ a, memRead t.mem a ≠ memRead s.mem a →
    s.req.flags.write = false ∧ (∃ j, s.phase = .rCrc j false ∨ s.phase = .rCrc j true ∨ ∃ i, s.phase = .rData j i) ∧
      ∃ base, s.req.buf = some base ∧ base ≤ a ∧ a < base + s.req.dataLen

/-! ### The frame codec -/

/-- R101, R88: ENCODE, with its encoding, its result and its two failures. That the failed call carries the phase IDLE
(R187, R209) is the model's reading (log entry 19). -/
def Obligations.EncodeBuildsFrame : Prop :=
  (∀ r : PortRequest, r.asks 0x0 → decodeRequest r = .ok (.encode r.index r.arg)) ∧
  ∀ (index : Nat) (arg : Word32) (s : State), s.ready →
    (63 < index → exec (.encode index arg) s = .next (s.endOperation (Results.only .invalidCommand))) ∧
    (index ≤ 63 → ∀ s', s.crcAnswers s' →
      let b0 : Byte := 0x40 ||| BitVec.ofNat 8 index
      let b1 : Byte := arg.extractLsb' 24 8
      let b2 : Byte := arg.extractLsb' 16 8
      let b3 : Byte := arg.extractLsb' 8 8
      let b4 : Byte := arg.extractLsb' 0 8
      let b5 : Byte := ((crc7 s.params [b0, b1, b2, b3, b4]).setWidth 8 <<< 1) ||| 1
      ∃ t, exec (.encode index arg) s = .next t ∧
        step t = .next (s'.endOperation
          { Results.only .success with frame := some [b0, b1, b2, b3, b4, b5] })) ∧
    (index ≤ 63 → ∀ code rest, s.env.crcErrs = some code :: rest →
      exec (.encode index arg) s = .next ({ s with env := { s.env with crcErrs := rest } }.endOperation
        (Results.only (.collaboratorError .crc7 .idle code))))

/-- R71: the six bytes of a frame, field by field. -/
def Obligations.FrameHasLayout : Prop :=
  ∀ (p : Params) (index : Nat) (arg : Word32), index ≤ 63 →
    ∃ f0 f1 f2 f3 f4 f5 : Byte, encodeFrame p index arg = [f0, f1, f2, f3, f4, f5] ∧
      f0.getLsbD 7 = false ∧ f0.getLsbD 6 = true ∧ (f0.extractLsb' 0 6).toNat = index ∧
      f1 = arg.extractLsb' 24 8 ∧ f2 = arg.extractLsb' 16 8 ∧ f3 = arg.extractLsb' 8 8 ∧ f4 = arg.extractLsb' 0 8 ∧
      f5.extractLsb' 1 7 = crc7 p [f0, f1, f2, f3, f4] ∧ f5.getLsbD 0 = true

/-- R102, R103: re-parsing an encoded frame recovers the index and the argument, and the CRC matches. -/
def Obligations.FrameRoundTrip : Prop :=
  ∀ (p : Params) (index : Nat) (arg : Word32), index ≤ 63 →
    parseFrame p (encodeFrame p index arg) =
      { wellFormed := true, index := BitVec.ofNat 6 index, arg := arg,
        crc := crc7 p ((encodeFrame p index arg).take 5), crcOk := true }

/-! ### The response decoder -/

/-- R110, with the bounds of R169: the scan pulls at most 8 bytes for a DECODE and `min(8, timeout)` for an EXECUTE. The
marker after `k` idle bytes ends it after `k + 1` pulls, and `bound` idle bytes fail it with ResponseTimeout (R203) after
`bound` pulls. -/
def Obligations.ScanFindsMarker : Prop :=
  ∀ (s : State) (bound : Nat), s.env.resetLine = false → s.phase = .rspScan 0 →
    (s.req.op = .decode ∧ bound = 8) ∨ (s.req.op = .execute ∧ bound = min 8 s.req.timeout) →
    (∀ k m rest, k < bound → m ≠ Config.idleByte →
      s.slaveSends (List.replicate k Config.idleByte ++ [m]) rest →
      steps (k + 1) s = .next { s.traced (pulls (List.replicate k Config.idleByte ++ [m])) rest with
        resp := [m], phase := if s.req.sel = .r1 then .status else .rspRest (rspLen s.req.sel - 1) }) ∧
    (∀ rest, s.slaveSends (List.replicate bound Config.idleByte) rest →
      steps (bound + 1) s =
        .next ((s.traced (pulls (List.replicate bound Config.idleByte)) rest).endOperation
          (Results.only .responseTimeout)))

/-- R111, R88: DECODE.NONE, with its encoding, opens no window and answers an empty response. -/
def Obligations.DecodeNone : Prop :=
  (∀ r : PortRequest, r.asks 0x1 → r.sel = 0 → decodeRequest r = .ok .decodeNone) ∧
  ∀ s : State, s.ready → s.Inv → ∃ t, exec .decodeNone s = .next t ∧
    step t = .next (s.endOperation { Results.only .success with response := some [] })

/-- R112, R88: DECODE.R1, with its encoding: the marker after 0 to 7 idle bytes is the response and gives the eight flags, 8
idle bytes are a ResponseTimeout. -/
def Obligations.DecodeR1 : Prop :=
  (∀ r : PortRequest, r.asks 0x1 → r.sel = 1 → decodeRequest r = .ok .decodeR1) ∧
  ∀ s : State, s.ready →
    (∀ k m rest, k ≤ 7 → m ≠ Config.idleByte → s.slaveSends (List.replicate k Config.idleByte ++ [m]) rest →
      ∃ t, exec .decodeR1 s = .next t ∧
        steps (k + 3) t = .next ((s.traced (pulls (List.replicate k Config.idleByte ++ [m])) rest).endOperation
          { Results.only .success with response := some [m], status := some (rStatus m) })) ∧
    (∀ rest, s.slaveSends (List.replicate 8 Config.idleByte) rest →
      ∃ t, exec .decodeR1 s = .next t ∧
        steps 9 t = .next ((s.traced (pulls (List.replicate 8 Config.idleByte)) rest).endOperation
          (Results.only .responseTimeout)))

/-- R114, R88: DECODE.R5, with its encoding: the marker and the one byte after it, whatever its value. -/
def Obligations.DecodeR5 : Prop :=
  (∀ r : PortRequest, r.asks 0x1 → r.sel = 3 → decodeRequest r = .ok .decodeR5) ∧
  ∀ s : State, s.ready →
    (∀ k m p rest, k ≤ 7 → m ≠ Config.idleByte → s.slaveSends (List.replicate k Config.idleByte ++ [m, p]) rest →
      ∃ t, exec .decodeR5 s = .next t ∧
        steps (k + 3) t = .next ((s.traced (pulls (List.replicate k Config.idleByte ++ [m, p])) rest).endOperation
          { Results.only .success with response := some [m, p] })) ∧
    (∀ rest, s.slaveSends (List.replicate 8 Config.idleByte) rest →
      ∃ t, exec .decodeR5 s = .next t ∧
        steps 9 t = .next ((s.traced (pulls (List.replicate 8 Config.idleByte)) rest).endOperation
          (Results.only .responseTimeout)))

/-- R113, R117, R88: DECODE.R4, with its encoding: the marker and the four bytes after it, wherever in the window the marker was. -/
def Obligations.DecodeR4 : Prop :=
  (∀ r : PortRequest, r.asks 0x1 → r.sel = 2 → decodeRequest r = .ok .decodeR4) ∧
  ∀ s : State, s.ready →
    (∀ k m ps rest, k ≤ 7 → m ≠ Config.idleByte → ps.length = 4 →
      s.slaveSends (List.replicate k Config.idleByte ++ m :: ps) rest →
      ∃ t, exec .decodeR4 s = .next t ∧
        steps (k + 6) t = .next ((s.traced (pulls (List.replicate k Config.idleByte ++ m :: ps)) rest).endOperation
          { Results.only .success with response := some (m :: ps) })) ∧
    (∀ rest, s.slaveSends (List.replicate 8 Config.idleByte) rest →
      ∃ t, exec .decodeR4 s = .next t ∧
        steps 9 t = .next ((s.traced (pulls (List.replicate 8 Config.idleByte)) rest).endOperation
          (Results.only .responseTimeout)))

/-- R115: the status of a response: with selector R1 the eight flags are the eight bits of the one byte, with any other
selector there is none. -/
def Obligations.StatusFlags : Prop :=
  ∀ (s : State), s.env.resetLine = false → s.phase = .done → s.req.op = .decode ∨ s.req.op = .execute →
    ∃ t, step s = .next t ∧ t.results.response = some s.resp ∧
      (s.req.sel ≠ .r1 → t.results.status = none) ∧
      (∀ m, s.req.sel = .r1 → s.resp = [m] →
        t.results.status = some
          { idle := m.getLsbD 0, eraseReset := m.getLsbD 1, illegalCommand := m.getLsbD 2, crcError := m.getLsbD 3,
            eraseSequenceError := m.getLsbD 4, addressError := m.getLsbD 5, parameterError := m.getLsbD 6,
            noResponse := m.getLsbD 7 })

/-- R79, R186: what a completed response leads to. The bytes are the response; an R1 goes on to the status check, an R4
and an R5 to what follows the response. -/
def Obligations.ResponsesTaken : Prop :=
  ∀ (s : State) (m p1 p2 p3 p4 : Byte),
    (∀ k, s.phase = .rspScan k → exec (.rspR1 m) s = .next { s with resp := [m], phase := .status }) ∧
    (∀ r, s.phase = .rspRest r →
      exec (.rspR4 m p1 p2 p3 p4) s =
        .next { s with
          resp := [m, p1, p2, p3, p4],
          phase := if s.req.op = .execute ∧ s.req.flags.data = true then s.req.dataStart else .done } ∧
      exec (.rspR5 m p1) s =
        .next { s with
          resp := [m, p1],
          phase := if s.req.op = .execute ∧ s.req.flags.data = true then s.req.dataStart else .done })

/-! ### The wire items of a data phase -/

/-- R168: the six bytes of `ENCODE(index, arg)` are sent in order in one step, and the six bytes received are
discarded; the item itself completes so for every index, argument and CRC. -/
def Obligations.CmdFrameSent : Prop :=
  ∀ (s : State) (rx : List Byte) (rest : List WireAnswer),
    s.phase = .frame → rx.length = 6 → s.slaveSends rx rest →
    (∀ index arg crc, exec (.cmdFrame index arg crc) s =
      .next { s.traced ((frameOf index arg crc).zip rx) rest with phase := s.req.afterFrame }) ∧
    (s.env.resetLine = false → s.crcSound → s.req.index ≤ 63 →
      step s = .next { s.traced ((encodeFrame s.params s.req.index s.req.arg).zip rx) rest with
        phase := s.req.afterFrame })

/-- R75, R131, R133, R134, R186: the idle-fill byte received means "nothing yet" in the scan and in the poll for a start
token, and "ready" in the two waits of a write. -/
def Obligations.IdleReceived : Prop :=
  ∀ s : State,
    (∀ k, s.phase = .rspScan k → exec .idle s = .next { s with phase := .rspScan (k + 1) }) ∧
    (∀ p, s.phase = .wReady p → exec .idle s = .next { s with phase := .wToken }) ∧
    (∀ p, s.phase = .wBusy p → exec .idle s = .next { s with phase := .done }) ∧
    (∀ j p, s.phase = .rPoll j (p + 1) → exec .idle s = .next { s with phase := .rPoll j p })

/-- R76, R139, R186: the start token of a write is sent once, before block 0; the stop token is sent once, and the wait
for not-busy follows; the start token received starts the payload of the block that was polled for. -/
def Obligations.TokensSent : Prop :=
  ∀ (s : State) (b : Byte) (rest : List WireAnswer), s.env.slave = .byte b :: rest →
    (s.phase = .wToken →
      exec .tokStartSingle s = .next { s.exchanged 0xFE b rest with phase := .wData 0 0 } ∧
      exec .tokStartMultiWr s = .next { s.exchanged 0xFC b rest with phase := .wData 0 0 }) ∧
    (s.phase = .wStop → exec .tokStop s = .next { s.exchanged 0xFD b rest with phase := .wBusy s.req.timeout }) ∧
    (∀ j p, s.phase = .rPoll j p →
      exec .tokStartSingle s = .next { s with bx := { s.bx with held := [] }, phase := .rData j 0 })

/-- R131, R133, R134, R186: a wait ends at the byte it waits for, within its budget of polls. -/
def Obligations.WaitsEnd : Prop :=
  ∀ (s : State) (bs : List Byte) (p : Nat) (rest : List WireAnswer), s.env.resetLine = false → bs.length < p →
    ((∀ b ∈ bs, b ≠ Config.idleByte) → s.slaveSends (bs ++ [Config.idleByte]) rest →
      let u := s.traced (pulls (bs ++ [Config.idleByte])) rest
      (s.phase = .wReady p → steps (bs.length + 1) s = .next { u with phase := .wToken }) ∧
      (s.phase = .wBusy p → steps (bs.length + 1) s = .next { u with phase := .done })) ∧
    ((∀ b ∈ bs, b ≠ Config.tokStartSingleByte) → s.slaveSends (bs ++ [Config.tokStartSingleByte]) rest →
      ∀ j, s.phase = .rPoll j p →
        steps (bs.length + 1) s = .next { s.traced (pulls (bs ++ [Config.tokStartSingleByte])) rest with
          bx := { s.bx with held := [] }, phase := .rData j 0 })

/-- R131, R133, R134, R204, R215: a wait whose budget of polls is used up fails with BlockTimeout, after exactly that many
pulls, and with a budget of 0 without a pull; nothing else changes. That the buffer too is unchanged after the poll for a
start token is the model's reading (log entry 9, after V34 and V37). -/
def Obligations.WaitsTimeOut : Prop :=
  ∀ (s : State) (bs : List Byte) (rest : List WireAnswer), s.env.resetLine = false → s.slaveSends bs rest →
    let u := (s.traced (pulls bs) rest).endOperation (Results.only .blockTimeout)
    ((∀ b ∈ bs, b ≠ Config.idleByte) → s.phase = .wReady bs.length ∨ s.phase = .wBusy bs.length →
      steps (bs.length + 1) s = .next u) ∧
    ((∀ b ∈ bs, b ≠ Config.tokStartSingleByte) → ∀ j, s.phase = .rPoll j bs.length →
      steps (bs.length + 1) s = .next u)

/-- R77, R83, R132: in the write phases CORE sends the byte of the block that the phase stands at: payload byte `i`, then
the CRC high byte, then the CRC low byte. -/
def Obligations.DataBytesSent : Prop :=
  ∀ (s : State) (payload : List Byte) (crc : BitVec 16) (b : Byte) (rest : List WireAnswer) (j : Nat),
    s.env.slave = .byte b :: rest →
    (∀ i x, s.phase = .wData j i → payload[i]? = some x →
      exec (.dataBlock payload crc) s = .next { s.exchanged x b rest with
        phase := if i + 1 < s.req.blockLength then .wData j (i + 1) else .wCrc j false }) ∧
    (s.phase = .wCrc j false →
      exec (.dataBlock payload crc) s = .next { s.exchanged (crc.extractLsb' 8 8) b rest with phase := .wCrc j true }) ∧
    (s.phase = .wCrc j true →
      exec (.dataBlock payload crc) s = .next { s.exchanged (crc.extractLsb' 0 8) b rest with phase := .wDresp j })

/-- R52, R64, R135, R136, R205: a received block whose CRC matches is stored at its place in the lent buffer and
committed; with any other CRC the transfer fails with CrcMismatch, and nothing is committed. The stored bytes are read
back, and every address outside them reads as before. -/
def Obligations.DataBlockReceived : Prop :=
  ∀ (s : State) (payload : List Byte) (crc : BitVec 16) (j : Nat), Memory.wf s.mem → s.phase = .rCrc j true →
    s.crcSound →
    (crc = crc16 s.params payload → s.fc.rxGotBytes + s.req.blockLength < 2 ^ s.params.cntW →
      ∃ t, exec (.dataBlock payload crc) s = .next t ∧
        t = { s with
          mem := t.mem
          fc := { s.fc with rxGotBytes := s.fc.rxGotBytes + s.req.blockLength }
          bx := { s.bx with doneBytes := s.bx.doneBytes + s.req.blockLength }
          phase := if j + 1 < s.bx.nblocks then .rPoll (j + 1) s.req.timeout else .done } ∧
        (∀ i x, payload[i]? = some x → memRead t.mem (s.req.blockAddr j + i) = x) ∧
        (∀ a, a < s.req.blockAddr j ∨ s.req.blockAddr j + payload.length ≤ a →
          memRead t.mem a = memRead s.mem a)) ∧
    (crc ≠ crc16 s.params payload →
      ∃ t, exec (.dataBlock payload crc) s = .next t ∧ t.failedWith .crcMismatch ∧ t.fc = s.fc ∧ t.trace = s.trace ∧
        (∀ a, a < s.req.blockAddr j ∨ s.req.blockAddr j + (s.req.dataLen - j * s.req.blockLength) ≤ a →
          memRead t.mem a = memRead s.mem a))

/-- R135: the bytes of a block, from its first payload byte: exactly `block_length` payload bytes and two CRC bytes are
pulled, every value taken as it comes; where the CRC, high byte first, is that of the payload, the block is written to
the buffer and committed, else the transfer ends with CrcMismatch. -/
def Obligations.BlockRead : Prop :=
  ∀ (s : State) (j : Nat) (payload : List Byte) (hi lo : Byte) (rest : List WireAnswer),
    s.env.resetLine = false → s.phase = .rData j 0 → s.Inv → s.crcSound → payload.length = s.req.blockLength →
    s.slaveSends (payload ++ [hi, lo]) rest →
    (hi ++ lo = crc16 s.params payload → s.fc.rxGotBytes + s.req.blockLength < 2 ^ s.params.cntW →
      steps (s.req.blockLength + 2) s = .next { s.traced (pulls (payload ++ [hi, lo])) rest with
        mem := memWriteBlock s.mem (s.req.blockAddr j) payload
        fc := { s.fc with rxGotBytes := s.fc.rxGotBytes + s.req.blockLength }
        bx := { s.bx with held := payload, crcHi := hi, doneBytes := s.bx.doneBytes + s.req.blockLength }
        phase := if j + 1 < s.bx.nblocks then .rPoll (j + 1) s.req.timeout else .done }) ∧
    (hi ++ lo ≠ crc16 s.params payload →
      ∃ t, steps (s.req.blockLength + 2) s = .next t ∧ t.failedWith .crcMismatch ∧ t.fc = s.fc ∧
        t.trace = s.trace ++ pulls (payload ++ [hi, lo]))

/-- R78, R132, R136, R186, R205: an accepted data-response byte commits the block and leads to the next block, to the
stop token or to the end; a byte that is not accepted ends the transfer with CrcMismatch. -/
def Obligations.DataResponseTaken : Prop :=
  ∀ (s : State) (d : Byte) (j : Nat), s.phase = .wDresp j →
    (drespAccepted s.params d = true → s.fc.txSentBuffers + s.fc.units s.req.blockLength < 2 ^ s.params.cntW →
      exec (.dataResp d) s = .next { s with
        fc := { s.fc with txSentBuffers := s.fc.txSentBuffers + s.fc.units s.req.blockLength }
        bx := { s.bx with doneBytes := s.bx.doneBytes + s.req.blockLength }
        phase := if j + 1 < s.bx.nblocks then .wData (j + 1) 0
          else if s.req.flags.multi = true then .wStop else .done }) ∧
    (drespAccepted s.params d = false →
      exec (.dataResp d) s = .next (s.endOperation (Results.only .crcMismatch)))

/-! ### The block transfer engine -/

/-- R55, R126 A1 to A5, R210, R88: the checks of a TRANSFER, with its encodings, in their order; the first that fails
decides the outcome, no wire byte is exchanged and nothing else changes. That a failed credit read carries the phase IDLE
(R187, R209) is the model's reading (log entry 19). -/
def Obligations.XferRefused : Prop :=
  (∀ r : PortRequest, r.asks 0x2 →
    decodeRequest r = .ok (xferInstr (r.ctl.getLsbD 7) (r.ctl.getLsbD 8) r.xferArgs)) ∧
  ∀ (write multi : Bool) (x : XferArgs) (s : State), s.phase = .idle →
    XferRefusals write multi x s (exec (xferInstr write multi x) s)

/-- R126, R139: a TRANSFER that passes admission goes on to its first wait, with the whole budget. -/
def Obligations.XferAdmitted : Prop :=
  ∀ (write multi : Bool) (x : XferArgs) (n a : Nat) (rest : List CreditAnswer) (s : State), s.phase = .idle →
    x.blocks multi n → s.fc.configured = true → s.creditIs a rest → s.fc.need write n x.blockLength ≤ a →
    exec (xferInstr write multi x) s = .next { s.creditTaken rest with
      req := Request.ofXfer write multi x
      bx := { BlockXfer.blank with nblocks := n }
      phase := if write then .wReady x.timeout else .rPoll 0 x.timeout }

/-- R206: BlockTooLarge, for TRANSFER and for EXECUTE with data: a block above 512 bytes, or a single-block transfer of
more than 512, before any wire byte; 512 itself is not refused so. -/
def Obligations.BlockTooLarge : Prop :=
  (∀ (write multi : Bool) (x : XferArgs) (s : State), s.phase = .idle → x.buf ≠ none → x.blockLength ≠ 0 →
    ((512 < x.blockLength ∨ (multi = false ∧ 512 < x.dataLen)) →
      exec (xferInstr write multi x) s = .next (s.endOperation (Results.only .blockTooLarge))) ∧
    (x.blockLength ≤ 512 → (multi = true ∨ x.dataLen ≤ 512) →
      ∀ t, exec (xferInstr write multi x) s = .next t → ¬t.failedWith .blockTooLarge)) ∧
  (∀ (d : Descriptor) (s : State), s.phase = .idle → d.consistent → d.flags.data = true → d.buf ≠ none →
    d.blockLength ≠ 0 →
    ((512 < d.blockLength ∨ (d.flags.multi = false ∧ 512 < d.dataLen)) →
      exec (.execute d) s = .next (s.endOperation (Results.only .blockTooLarge))) ∧
    (d.blockLength ≤ 512 → (d.flags.multi = true ∨ d.dataLen ≤ 512) →
      ∀ t, exec (.execute d) s = .next t → ¬t.failedWith .blockTooLarge))

/-- R207: InsufficientCredit, for the two reserves, for TRANSFER and for EXECUTE with data: the amount needed exceeds the
credit reported; before any wire byte, and the flow-control state is unchanged. -/
def Obligations.InsufficientCredit : Prop :=
  ∀ (s : State) (a : Nat) (rest : List CreditAnswer), s.phase = .idle → s.fc.configured = true → s.creditIs a rest →
    let refused := fun i =>
      exec i s = .next ((s.creditTaken rest).endOperation (Results.only .insufficientCredit))
    (∀ n, a < s.fc.units n → refused (.reserveSend n)) ∧
    (∀ n, a < n → refused (.reserveRecv n)) ∧
    (∀ write multi x n, x.blocks multi n → a < s.fc.need write n x.blockLength → refused (xferInstr write multi x)) ∧
    (∀ d n, d.consistent → d.flags.data = true → d.xferArgs.blocks d.flags.multi n →
      a < s.fc.need d.flags.write n d.blockLength → refused (.execute d))

/-- R131 to R133, R136, R138, R139, R159: the wire part of a write, of one block or of many, for a TRANSFER and for an
EXECUTE: the wait for ready; one start token; for every block its payload, its CRC and the data response; for a
multi-block write one stop token and the wait for not-busy. It commits `nblocks * units(block_length)` units, and the
bytes transferred are the payload bytes. -/
def Obligations.WriteRun : Prop :=
  ∀ (s : State) (base : Nat) (busy : List Byte) (tok : Byte) (blocks : List (List Byte × Byte))
    (stop : List Byte) (rest : List WireAnswer),
    s.env.resetLine = false → s.Inv → s.crcSound → s.phase = .wReady s.req.timeout → s.req.buf = some base →
    busy.length < s.req.timeout → (∀ b ∈ busy, b ≠ Config.idleByte) →
    blocks.length = s.bx.nblocks →
    (∀ q ∈ blocks, q.1.length = s.req.blockLength + 2 ∧ drespAccepted s.params q.2 = true) →
    (if s.req.flags.multi = true then
      ∃ ignored busy', stop = ignored :: busy' ++ [Config.idleByte] ∧ busy'.length < s.req.timeout ∧
        ∀ b ∈ busy', b ≠ Config.idleByte
     else stop = []) →
    s.slaveSends (busy ++ [Config.idleByte] ++ [tok] ++ blocks.flatMap (fun q => q.1 ++ [q.2]) ++ stop) rest →
    s.fc.txSentBuffers + s.bx.nblocks * s.fc.units s.req.blockLength < 2 ^ s.params.cntW →
    steps (busy.length + 2 + s.bx.nblocks * (s.req.blockLength + 3) + stop.length + 1) s =
      .next ({ s with
        env := { s.env with slave := rest }
        fc := { s.fc with
          txSentBuffers := s.fc.txSentBuffers + s.bx.nblocks * s.fc.units s.req.blockLength }
        trace := s.trace ++ pulls (busy ++ [Config.idleByte]) ++
          [(if s.req.flags.multi = true then 0xFC else 0xFE, tok)] ++
          writeTrace s.params s.mem base s.req.blockLength 0 blocks ++
          (if s.req.flags.multi = true then
            (Config.tokStopByte, stop.headD 0) :: pulls (stop.drop 1) else []) }.endOperation
        { s with bx := { s.bx with doneBytes := s.req.dataLen } }.successResults)

/-- R134 to R136, R138, R139, R159, R68: the wire part of a read, of one block or of many, for a TRANSFER and for an
EXECUTE: before every block the poll for 0xFE, then its payload and its CRC, every byte sent being the idle-fill byte.
The buffer then holds the payloads one after the other, `data_len` bytes are committed, and they are the bytes
transferred. -/
def Obligations.ReadRun : Prop :=
  ∀ (s : State) (base : Nat) (blocks : List (List Byte × List Byte)) (rest : List WireAnswer),
    s.env.resetLine = false → s.Inv → s.crcSound → s.phase = .rPoll 0 s.req.timeout → s.req.buf = some base →
    blocks.length = s.bx.nblocks →
    (∀ q ∈ blocks, q.1.length < s.req.timeout ∧ (∀ b ∈ q.1, b ≠ Config.tokStartSingleByte) ∧
      q.2.length = s.req.blockLength) →
    s.slaveSends (blocks.flatMap (sentBlock s.params)) rest →
    s.fc.rxGotBytes + s.req.dataLen < 2 ^ s.params.cntW →
    steps ((blocks.flatMap (sentBlock s.params)).length + 1) s =
      .next ({ s with
        env := { s.env with slave := rest }
        fc := { s.fc with rxGotBytes := s.fc.rxGotBytes + s.req.dataLen }
        mem := memWriteBlock s.mem base (blocks.flatMap Prod.snd)
        trace := s.trace ++ pulls (blocks.flatMap (sentBlock s.params)) }.endOperation
        { s with bx := { s.bx with doneBytes := s.req.dataLen } }.successResults)

/-- R140, the loopback property: the bytes that XFER.WR.SINGLE sends for a 512-byte buffer, from the start token on and
without the last pull, make XFER.RD.SINGLE end in Success with the same bytes in its buffer, after any bytes but the
start token within its budget. It holds for every choice of CRC function. -/
def Obligations.Loopback : Prop :=
  ∀ (s : State) (x : XferArgs) (base a : Nat) (busy ignored : List Byte) (tok d : Byte)
    (credits : List CreditAnswer) (rest : List WireAnswer),
    s.ready → s.crcSound → x.buf = some base → x.dataLen = 512 → x.blockLength = 512 → s.fc.configured = true →
    1 ≤ s.fc.bufferSize → s.creditIs a credits → s.fc.units 512 ≤ a →
    s.fc.txSentBuffers + s.fc.units 512 < 2 ^ s.params.cntW →
    busy.length < x.timeout → (∀ b ∈ busy, b ≠ Config.idleByte) → ignored.length = 514 →
    drespAccepted s.params d = true → s.slaveSends (busy ++ [Config.idleByte, tok] ++ ignored ++ [d]) rest →
    ∃ t u w, exec (.xferWrSingle x) s = .next t ∧ steps (busy.length + 518) t = .next u ∧
      u.results.outcome = some .success ∧
      u.trace = s.trace ++ pulls (busy ++ [Config.idleByte]) ++ w ++ [(Config.idleByte, d)] ∧
      ∀ (s' : State) (x' : XferArgs) (base' a' : Nat) (skips : List Byte) (credits' : List CreditAnswer)
        (rest' : List WireAnswer),
        s'.params = s.params → Memory.wf s'.mem → s'.ready → s'.crcSound → x'.buf = some base' → x'.dataLen = 512 →
        x'.blockLength = 512 → s'.fc.configured = true → s'.creditIs a' credits' → 512 ≤ a' →
        s'.fc.rxGotBytes + 512 < 2 ^ s'.params.cntW → skips.length < x'.timeout →
        (∀ b ∈ skips, b ≠ Config.tokStartSingleByte) → s'.slaveSends (skips ++ w.map Prod.fst) rest' →
        ∃ t' u', exec (.xferRdSingle x') s' = .next t' ∧ steps (skips.length + 516) t' = .next u' ∧
          u'.results.outcome = some .success ∧ u'.results.bytesTransferred = some 512 ∧
          memReadBlock u'.mem base' 512 = memReadBlock s.mem base 512

/-! ### The flow-control tracker -/

/-- R151, R88: RESERVE_SEND, with its encoding: the need in buffer units against a fresh sample; nothing is written. That
a failed credit read carries the phase IDLE (R187, R209) is the model's reading (log entry 19). -/
def Obligations.ReserveSend : Prop :=
  (∀ r : PortRequest, r.asks 0x4 → decodeRequest r = .ok (.reserveSend r.nBytes)) ∧
  ∀ (n : Nat) (s : State), s.ready →
    (s.fc.configured = false →
      exec (.reserveSend n) s = .next (s.endOperation (Results.only .invalidCommand))) ∧
    (s.fc.configured = true → ∀ a rest, s.creditIs a rest →
      (ceilDiv n s.fc.bufferSize ≤ a → ∃ t, exec (.reserveSend n) s = .next t ∧
        step t = .next ((s.creditTaken rest).endOperation (Results.only .ok))) ∧
      (a < ceilDiv n s.fc.bufferSize →
        exec (.reserveSend n) s = .next ((s.creditTaken rest).endOperation (Results.only .insufficientCredit)))) ∧
    (s.fc.configured = true → ∀ code rest, s.env.credit = .error code :: rest →
      exec (.reserveSend n) s = .next ((s.creditTaken rest).endOperation
        (Results.only (.collaboratorError .credit .idle code))))

/-- R152, R88: RESERVE_RECV, with its encoding: the need in bytes against a fresh sample; nothing is written. That a failed
credit read carries the phase IDLE (R187, R209) is the model's reading (log entry 19). -/
def Obligations.ReserveRecv : Prop :=
  (∀ r : PortRequest, r.asks 0x5 → decodeRequest r = .ok (.reserveRecv r.nBytes)) ∧
  ∀ (n : Nat) (s : State), s.ready →
    (s.fc.configured = false →
      exec (.reserveRecv n) s = .next (s.endOperation (Results.only .invalidCommand))) ∧
    (s.fc.configured = true → ∀ a rest, s.creditIs a rest →
      (n ≤ a → ∃ t, exec (.reserveRecv n) s = .next t ∧
        step t = .next ((s.creditTaken rest).endOperation (Results.only .ok))) ∧
      (a < n →
        exec (.reserveRecv n) s = .next ((s.creditTaken rest).endOperation (Results.only .insufficientCredit)))) ∧
    (s.fc.configured = true → ∀ code rest, s.env.credit = .error code :: rest →
      exec (.reserveRecv n) s = .next ((s.creditTaken rest).endOperation
        (Results.only (.collaboratorError .credit .idle code))))

/-- R153, R88: COMMIT_SEND, with its encoding: the counter takes the units, rounded up by each call on its own; a sum that does
not fit CNT_W bits is a fault. -/
def Obligations.CommitSend : Prop :=
  (∀ r : PortRequest, r.asks 0x6 → decodeRequest r = .ok (.commitSend r.nBytes)) ∧
  ∀ (n : Nat) (s : State), s.ready →
    (s.fc.configured = false →
      exec (.commitSend n) s = .next (s.endOperation (Results.only .invalidCommand))) ∧
    (s.fc.configured = true →
      let sum := s.fc.txSentBuffers + ceilDiv n s.fc.bufferSize
      (sum < 2 ^ s.params.cntW → ∃ t, exec (.commitSend n) s = .next t ∧
        step t = .next ({ s with fc := { s.fc with txSentBuffers := sum } }.endOperation (Results.only .ok))) ∧
      (2 ^ s.params.cntW ≤ sum → exec (.commitSend n) s = .fault .counterOverflow))

/-- R154, R88: COMMIT_RECV, with its encoding: the counter takes the bytes, without rounding; a sum that does not fit CNT_W
bits is a fault. -/
def Obligations.CommitRecv : Prop :=
  (∀ r : PortRequest, r.asks 0x7 → decodeRequest r = .ok (.commitRecv r.nBytes)) ∧
  ∀ (n : Nat) (s : State), s.ready →
    (s.fc.configured = false →
      exec (.commitRecv n) s = .next (s.endOperation (Results.only .invalidCommand))) ∧
    (s.fc.configured = true →
      let sum := s.fc.rxGotBytes + n
      (sum < 2 ^ s.params.cntW → ∃ t, exec (.commitRecv n) s = .next t ∧
        step t = .next ({ s with fc := { s.fc with rxGotBytes := sum } }.endOperation (Results.only .ok))) ∧
      (2 ^ s.params.cntW ≤ sum → exec (.commitRecv n) s = .fault .counterOverflow))

/-- R155, R88: FC_RESET, with its encoding: both counters to zero and nothing else; legal before CONFIG, and as often as it is
asked for. -/
def Obligations.FcReset : Prop :=
  (∀ r : PortRequest, r.asks 0x8 → decodeRequest r = .ok .fcReset) ∧
  ∀ s : State, s.ready → ∃ t, exec .fcReset s = .next t ∧
    step t = .next ({ s with fc := { s.fc with txSentBuffers := 0, rxGotBytes := 0 } }.endOperation (Results.only .ok))

/-- R156, R88: CONFIG, with its encoding: legal sizes are written and CORE is configured, illegal ones are refused and nothing is written. -/
def Obligations.ConfigSeeds : Prop :=
  (∀ r : PortRequest, r.asks 0x9 → decodeRequest r = .ok (.config r.cfgBufferSize r.cfgBlockSize)) ∧
  ∀ (bs bk : Nat) (s : State), s.ready →
    (1 ≤ bs → 1 ≤ bk → bk ≤ 2048 → ∃ t, exec (.config bs bk) s = .next t ∧
      step t = .next ({ s with
        fc := { s.fc with bufferSize := bs, blockSize := bk, configured := true } }.endOperation (Results.only .ok))) ∧
    (bs = 0 ∨ bk = 0 ∨ 2048 < bk →
      exec (.config bs bk) s = .next (s.endOperation (Results.only .invalidCommand)))

/-- R158: after any sequence of commits the counters are what they were plus the sums of the committed amounts: the units
of each send commit, rounded up one by one, and the bytes of each receive commit. Rounding up is R11's: the units are the
least number of buffers that hold the bytes, with the exact cases of R157. -/
def Obligations.CommitsAddUp : Prop :=
  (∀ (fc : FlowControl) (n : Nat), fc.units n = ceilDiv n fc.bufferSize) ∧
  (∀ a b : Nat, 1 ≤ b →
    a ≤ ceilDiv a b * b ∧ (∀ q, a ≤ q * b → ceilDiv a b ≤ q) ∧ ceilDiv 0 b = 0 ∧ ceilDiv a 1 = a ∧
      (1 ≤ a → a ≤ b → ceilDiv a b = 1) ∧ ∀ k, ceilDiv (k * b) b = k ∧ ceilDiv (k * b + 1) b = k + 1) ∧
  ∀ (is : List Instr) (s : State), s.ready → s.fc.configured = true →
    (∀ i ∈ is, ∃ n, i = .commitSend n ∨ i = .commitRecv n) →
    s.fc.txSentBuffers + (is.map s.fc.unitsOf).sum < 2 ^ s.params.cntW →
    s.fc.rxGotBytes + (is.map bytesOf).sum < 2 ^ s.params.cntW →
    ∃ t, runCommits is s = .next t ∧ t.ready ∧
      t.fc = { s.fc with
        txSentBuffers := s.fc.txSentBuffers + (is.map s.fc.unitsOf).sum
        rxGotBytes := s.fc.rxGotBytes + (is.map bytesOf).sum }

/-- R36, R136, R137, R160: the only steps that change the flow-control state are the acceptance of a commit, of FC_RESET
or of CONFIG, an accepted data response, which adds the units of one block, and a matching block CRC, which adds the
bytes of one block. None of these steps is a failure. -/
def Obligations.FlowStateChanges : Prop :=
  ∀ s t : State, s.env.resetLine = false → step s = .next t → t.fc ≠ s.fc →
    t.results = s.results ∧
      ((s.phase = .idle ∧ ∃ r rest i, s.env.port = r :: rest ∧ decodeRequest r = .ok i ∧
          ((∃ n, i = .commitSend n ∨ i = .commitRecv n) ∨ i = .fcReset ∨ ∃ bs bk, i = .config bs bk)) ∨
        (∃ j, s.phase = .wDresp j ∧
          t.fc = { s.fc with txSentBuffers := s.fc.txSentBuffers + s.fc.units s.req.blockLength }) ∨
        (∃ j, s.phase = .rCrc j true ∧
          t.fc = { s.fc with rxGotBytes := s.fc.rxGotBytes + s.req.blockLength }))

/-- R35 (a): between two FC_RESETs neither counter decreases. -/
def Obligations.CountersNeverDecrease : Prop :=
  ∀ s t : State, s.env.resetLine = false → step s = .next t →
    (s.phase = .idle → ∀ r rest, s.env.port = r :: rest → decodeRequest r ≠ .ok .fcReset) →
    s.fc.txSentBuffers ≤ t.fc.txSentBuffers ∧ s.fc.rxGotBytes ≤ t.fc.rxGotBytes

/-- R26, R63: no rule reads `S.block_size`, and none depends on HOST_IF_MAP: two states that differ in one of them alone
make the same step, and differ at most in it after it. -/
def Obligations.BlockSizeUnread : Prop :=
  (∀ (s : State) (m : Option HostIfMap),
    Agree (fun t t' => { t' with params := { t'.params with hostIfMap := t.params.hostIfMap } } = t)
      (step s) (step { s with params := { s.params with hostIfMap := m } })) ∧
  ∀ (s : State) (b : Nat),
    Agree (fun t t' => { t' with fc := { t'.fc with blockSize := t.fc.blockSize } } = t)
      (step s) (step { s with fc := { s.fc with blockSize := b } })

/-! ### The dispatcher -/

/-- R166, R165: EXECUTE, with its encoding: a descriptor that fails one of V1 to V5 is refused with InvalidCommand: no wire
byte, no state change. -/
def Obligations.ExecuteValidates : Prop :=
  (∀ r : PortRequest, r.asks 0x3 → decodeRequest r = .ok (.execute r.descriptor)) ∧
  ∀ (d : Descriptor) (s : State), s.phase = .idle →
    63 < d.index ∨ d.flags.noresp ≠ decide (d.sel = .none) ∨ (d.flags.multi = true ∧ d.flags.data = false) ∨
      (d.flags.write = true ∧ d.flags.data = false) ∨
      (d.flags.data = true ∧ (d.buf = none ∨ d.blockLength = 0)) →
    exec (.execute d) s = .next (s.endOperation (Results.only .invalidCommand))

/-- R165, R168 to R170, R172, R175, R203: an EXECUTE without data, of every selector: the frame, the window, the response;
it ends in Success with the response, the status where the selector is R1, and no bytes transferred. The buffer operands
are ignored, and nothing else changes. Where the window holds idle bytes only, `min(8, timeout)` of them, it ends in
ResponseTimeout. -/
def Obligations.ExecuteWithoutData : Prop :=
  ∀ (d : Descriptor) (s : State) (ignored : List Byte) (rest : List WireAnswer), s.ready → s.Inv → s.crcSound →
    d.consistent → d.flags.data = false → ignored.length = 6 →
    ∃ t, exec (.execute d) s = .next t ∧
      (∀ win rsp, d.answered s.params win rsp → s.slaveSends (ignored ++ win) rest →
        steps (d.responseSteps win + 1) t =
          .next ((s.traced ((encodeFrame s.params d.index d.arg).zip ignored ++ pulls win) rest).endOperation
            { outcome := some .success, frame := none, response := some rsp,
              status := if d.sel = .r1 then some (rStatus (rsp.headD 0)) else none, bytesTransferred := some 0 })) ∧
      (d.sel ≠ .none →
        let win := List.replicate (min 8 d.timeout) Config.idleByte
        s.slaveSends (ignored ++ win) rest →
        steps (win.length + 2) t =
          .next ((s.traced ((encodeFrame s.params d.index d.arg).zip ignored ++ pulls win) rest).endOperation
            (Results.only .responseTimeout)))

/-- R126, R165 to R171, R202, R207, R209, R210 (4) to (7): an EXECUTE with data: all checks of its data phase are made
before the frame, the first that fails decides the outcome, and nothing else changes; where all of them pass, after the
frame and the response comes the wire part of the transfer, where `WriteRun` and `ReadRun` go on. That a failed credit
read carries the phase IDLE is the model's reading (log entry 19). -/
def Obligations.ExecuteReachesData : Prop :=
  (∀ (d : Descriptor) (s : State), s.phase = .idle → d.consistent → d.flags.data = true →
    XferRefusals d.flags.write d.flags.multi d.xferArgs s (exec (.execute d) s)) ∧
  ∀ (d : Descriptor) (s : State) (n a : Nat) (credits : List CreditAnswer) (ignored win rsp : List Byte)
    (rest : List WireAnswer), s.ready → s.Inv → s.crcSound →
    d.consistent → d.flags.data = true → d.xferArgs.blocks d.flags.multi n → s.fc.configured = true →
    s.creditIs a credits → s.fc.need d.flags.write n d.blockLength ≤ a →
    ignored.length = 6 → d.answered s.params win rsp → s.slaveSends (ignored ++ win) rest →
    ∃ t, exec (.execute d) s = .next t ∧ t.trace = s.trace ∧
      steps (d.responseSteps win) t = .next { s with
        req := Request.ofDescriptor d
        bx := { BlockXfer.blank with nblocks := n }
        resp := rsp
        phase := if d.flags.write then .wReady d.timeout else .rPoll 0 d.timeout
        env := { s.env with slave := rest, credit := credits }
        trace := s.trace ++ (encodeFrame s.params d.index d.arg).zip ignored ++ pulls win }

/-- R116, R170, R208: StatusError is raised only by an EXECUTE whose selector is R1, after its response and before its
data phase, when the status byte has a bit of the fatal mask; it carries the whole byte. It is always raised then. -/
def Obligations.StatusErrorIsFatalStatus : Prop :=
  (∀ (s t : State) (bits : Byte), s.Inv → s.env.resetLine = false → step s = .next t →
    t.results.outcome = some (.statusError bits) → t.results ≠ s.results →
    s.phase = .status ∧ s.req.op = .execute ∧ s.req.sel = .r1 ∧ s.resp = [bits] ∧ s.bx.doneBytes = 0 ∧
      bits &&& fatalMask s.params s.req.index ≠ 0 ∧ t.failedWith (.statusError bits)) ∧
  (∀ (s : State) (m : Byte), s.env.resetLine = false → s.phase = .status → s.req.op = .execute → s.resp = [m] →
    step s =
      if m &&& fatalMask s.params s.req.index ≠ 0 then
        .next (s.endOperation (Results.only (.statusError m)))
      else .next { s with phase := if s.req.flags.data = true then s.req.dataStart else .done })

/-- R173: whatever ran before leaves nothing that a run depends on. Two EXECUTEs of one descriptor, on machines with equal
flow-control state, equal lent buffers and equal answers of the collaborators, free ones included, behave alike, whatever
the rest of memory, the wire trace, the result registers and the waiting requests are. And two machines that differ only
in the wire trace and in the result registers behave alike for any number of steps of whatever they run. -/
def Obligations.RunForgetsPast : Prop :=
  (∀ (d : Descriptor) (s s' : State) (n : Nat), s.ready → s.Inv → s'.Inv → SameGround d s s' →
    Agree (SameRun d s s') (runOperation (.execute d) n s) (runOperation (.execute d) n s')) ∧
  ∀ (s : State) (r' : Results) (w' : List (Byte × Byte)) (n : Nat), s.env.resetLine = false →
    Agree (Alike s.results r' s.trace w') (steps n s) (steps n { s with results := r', trace := w' })

/-! ### Failures -/

/-- R209: a collaborator call that ends in an error ends the operation with CollaboratorError, which names the
collaborator, the phase and the error; nothing is committed. In phase FRAME one call sends six bytes, and it fails
whichever of its answers is the error. Three points are the model's choice: a failed transfer call
adds nothing to the trace (log entry 10), a block's `crc16` is called in the first W_CRC and in the second R_CRC phase
(log entry 8), and the `crc7` of an EXECUTE in phase FRAME (log entry 19). -/
def Obligations.CollaboratorErrorEnds : Prop :=
  ∀ (s : State) (code : Nat), s.env.resetLine = false →
    (∀ rest, s.env.slave = .error code :: rest → s.crcSound → s.exchangesNext = true →
      ∃ t, step s = .next t ∧ t.failedWith (.collaboratorError .transfer s.phase code) ∧ t.fc = s.fc ∧
        t.trace = s.trace) ∧
    (∀ bs rest, s.phase = .frame → s.crcSound → bs.length < 6 → s.slaveSends bs (.error code :: rest) →
      ∃ t, step s = .next t ∧ t.failedWith (.collaboratorError .transfer .frame code) ∧ t.fc = s.fc ∧
        t.trace = s.trace) ∧
    (∀ rest, s.env.crcErrs = some code :: rest →
      (s.phase = .frame → ∃ t, step s = .next t ∧ t.failedWith (.collaboratorError .crc7 .frame code) ∧ t.fc = s.fc ∧
        t.trace = s.trace) ∧
      (∀ j, s.phase = .wCrc j false → ∃ t, step s = .next t ∧
        t.failedWith (.collaboratorError .crc16 (.wCrc j false) code) ∧ t.fc = s.fc ∧ t.trace = s.trace) ∧
      (∀ j payload crc, s.phase = .rCrc j true → ∃ t, exec (.dataBlock payload crc) s = .next t ∧
        t.failedWith (.collaboratorError .crc16 (.rCrc j true) code) ∧ t.fc = s.fc ∧ t.trace = s.trace))

/-- R211, R212, R217: a step that ends an operation either finalizes it, in phase DONE, or ends it with a failure: every
result register but the outcome without a value, the transient state discarded, nothing committed, IDLE. -/
def Obligations.FailureEndsOperation : Prop :=
  ∀ s t : State, step s = .next t → s.phase ≠ .idle → t.phase = .idle →
    (s.phase = .done ∧ t.fc = s.fc ∧ t.trace = s.trace ∧ t.mem = s.mem ∧ t.req = Request.blank ∧
      t.bx = BlockXfer.blank ∧ t.resp = []) ∨
    (∃ f, f ≠ .success ∧ f ≠ .ok ∧ t.failedWith f ∧ t.fc = s.fc ∧ t.params = s.params ∧ t.env.port = s.env.port)

/-! ### The whole machine -/

/-- R15, R39, R53: no step changes the parameters; the wire trace only grows, by at most the six bytes of a frame. -/
def Obligations.TraceGrows : Prop :=
  ∀ s t : State, s.env.resetLine = false → step s = .next t →
    t.params = s.params ∧ ∃ w, t.trace = s.trace ++ w ∧ w.length ≤ 6

/-- R20, R25, R26, R31, R32, R35, R186: every step keeps the invariant. -/
def Obligations.InvariantKept : Prop := ∀ s t : State, s.Inv → step s = .next t → t.Inv

/-- R200, U3, U4: from a state that meets the invariant, with the reset signal low, the only faults are a counter that
would overflow and a request whose operand does not fit the port; no step is refused. -/
def Obligations.NoOtherFault : Prop :=
  ∀ s : State, s.Inv → s.env.resetLine = false →
    (∃ t, step s = .next t) ∨ step s = .fault .counterOverflow ∨ (s.phase = .idle ∧ step s = .fault .operandTooWide)

/-- R190: every operation ends, within the number of steps that `stepsLeft` gives, whatever the slave answers: the machine
is back in IDLE, or a counter has overflowed. -/
def Obligations.EveryOperationEnds : Prop :=
  ∀ s : State, s.Inv → s.env.resetLine = false →
    ∃ n, n ≤ s.stepsLeft ∧ ((∃ t, steps n s = .next t ∧ t.phase = .idle) ∨ steps n s = .fault .counterOverflow)

/-- R190: the wire bytes of one EXECUTE, from its frame on, are at most the number the rule gives for its direction. -/
def Obligations.WireBudget : Prop :=
  ∀ (s t : State) (k : Nat), s.Inv → s.env.resetLine = false → s.phase = .frame → s.env.port = [] →
    steps k s = .next t →
    let T := s.req.timeout
    let n := s.bx.nblocks
    let bl := s.req.blockLength
    t.trace.length ≤ s.trace.length +
      if s.req.flags.write = true then 6 + (min 8 T + 4) + T + 1 + n * (bl + 3) + 1 + T
      else 6 + (min 8 T + 4) + n * (T + bl + 2)
end

