-- ==== Sys2Proof/Laws/Memory.lean ====
section
/-! SUPPORT. What the memory operations do: a read after a write, and the canonical form that every operation keeps. -/

namespace Sys2Proof.Machine

theorem memWrite_addrs_le {m : Memory} {a b : Nat} {v : Byte} (hb : b < a) (hm : ∀ c ∈ m, b < c.1) :
    ∀ c ∈ memWrite m a v, b < c.1 := by
  induction m with
  | nil =>
    intro c hc
    by_cases hv : v = unlisted
    · simp [memWrite, hv] at hc
    · simp only [memWrite, hv, if_false, List.mem_singleton] at hc
      simpa [hc] using hb
  | cons d m ih =>
    obtain ⟨e, w⟩ := d
    have he : b < e := hm _ List.mem_cons_self
    have hm' : ∀ c ∈ m, b < c.1 := fun c hc => hm c (List.mem_cons_of_mem _ hc)
    intro c hc
    simp only [memWrite] at hc
    split_ifs at hc with h1 h2 h3 h3
    · rcases List.mem_cons.1 hc with rfl | hc
      · exact he
      · exact ih hm' c hc
    · exact hm' c hc
    · exact hm c hc
    · rcases List.mem_cons.1 hc with rfl | hc
      · exact hb
      · exact hm' c hc
    · rcases List.mem_cons.1 hc with rfl | hc
      · exact hb
      · exact hm c hc

/-- A store keeps the canonical form. -/
theorem memWrite_wf {m : Memory} {a : Nat} {v : Byte} (h : Memory.wf m) : Memory.wf (memWrite m a v) := by
  induction m with
  | nil => by_cases hv : v = unlisted <;> simp [memWrite, Memory.wf, hv]
  | cons d m ih =>
    obtain ⟨e, w⟩ := d
    obtain ⟨hp, hn⟩ := h
    rw [List.pairwise_cons] at hp
    have hm : Memory.wf m := ⟨hp.2, fun c hc => hn c (List.mem_cons_of_mem _ hc)⟩
    have hw : w ≠ unlisted := hn _ List.mem_cons_self
    simp only [memWrite]
    split_ifs with h1 h2 h3 h3
    · obtain ⟨ihp, ihn⟩ := ih hm
      refine ⟨List.pairwise_cons.2 ⟨memWrite_addrs_le h1 hp.1, ihp⟩, ?_⟩
      intro c hc
      rcases List.mem_cons.1 hc with rfl | hc
      · exact hw
      · exact ihn c hc
    · exact hm
    · exact ⟨List.pairwise_cons.2 hp, hn⟩
    · subst h3
      refine ⟨List.pairwise_cons.2 ⟨hp.1, hp.2⟩, ?_⟩
      intro c hc
      rcases List.mem_cons.1 hc with rfl | hc
      · exact h2
      · exact hm.2 c hc
    · refine ⟨List.pairwise_cons.2 ⟨?_, List.pairwise_cons.2 hp⟩, ?_⟩
      · intro c hc
        rcases List.mem_cons.1 hc with rfl | hc
        · show a < e; omega
        · have := hp.1 c hc
          show a < c.1
          simp only at this
          omega
      · intro c hc
        rcases List.mem_cons.1 hc with rfl | hc
        · exact h2
        · exact hn c hc

/-- A block store keeps the canonical form. -/
theorem memWriteBlock_wf {m : Memory} {a : Nat} {bs : List Byte} (h : Memory.wf m) :
    Memory.wf (memWriteBlock m a bs) := by
  induction bs generalizing m a with
  | nil => exact h
  | cons b bs ih => exact ih (memWrite_wf h)

/-- What a failed read leaves behind keeps the canonical form. -/
theorem memSpoil_wf {m : Memory} {a n d : Nat} (h : Memory.wf m) : Memory.wf (memSpoil m a n d) := by
  induction n generalizing m a d with
  | zero => exact h
  | succ n ih => exact ih (memWrite_wf h)

theorem memRead_of_lt {m : Memory} {a : Nat} (h : ∀ c ∈ m, a < c.1) : memRead m a = unlisted := by
  induction m with
  | nil => rfl
  | cons d m ih =>
    obtain ⟨e, w⟩ := d
    have : a < e := h _ List.mem_cons_self
    simp only [memRead]
    rw [if_neg (by omega), ih fun c hc => h c (List.mem_cons_of_mem _ hc)]

/-- A read after a store: the byte stored at its address, and every other byte as before. -/
theorem memRead_memWrite {m : Memory} (h : Memory.wf m) (a : Nat) (v : Byte) (b : Nat) :
    memRead (memWrite m a v) b = if b = a then v else memRead m b := by
  induction m with
  | nil =>
    by_cases hv : v = unlisted
    · simp [memWrite, memRead, hv]
    · simp only [memWrite, hv, if_false, memRead]
      split_ifs <;> simp_all
  | cons d m ih =>
    obtain ⟨e, w⟩ := d
    obtain ⟨hp, hn⟩ := h
    rw [List.pairwise_cons] at hp
    have hm : Memory.wf m := ⟨hp.2, fun c hc => hn c (List.mem_cons_of_mem _ hc)⟩
    have hlow : ∀ b, b ≤ e → memRead m b = unlisted := fun b hb =>
      memRead_of_lt fun c hc => by have := hp.1 c hc; simp only at this; omega
    rw [memWrite]
    by_cases h1 : e < a
    · rw [if_pos h1, memRead, memRead, ih hm]
      by_cases h2 : e = b
      · rw [if_pos h2, if_pos h2, if_neg (by omega)]
      · rw [if_neg h2, if_neg h2]
    rw [if_neg h1]
    by_cases h2 : v = unlisted
    · rw [if_pos h2]
      by_cases h3 : e = a
      · rw [if_pos h3]
        by_cases h4 : b = a
        · rw [if_pos h4, h2]; exact hlow b (by omega)
        · rw [if_neg h4, memRead, if_neg (by omega)]
      · rw [if_neg h3]
        by_cases h4 : b = a
        · rw [if_pos h4, memRead, if_neg (by omega), h2]; exact hlow b (by omega)
        · rw [if_neg h4]
    · rw [if_neg h2]
      by_cases h3 : e = a
      · rw [if_pos h3, memRead, memRead]
        by_cases h4 : a = b
        · rw [if_pos h4, if_pos h4.symm]
        · rw [if_neg h4, if_neg (Ne.symm h4), if_neg (by omega)]
      · rw [if_neg h3, memRead]
        by_cases h4 : a = b
        · rw [if_pos h4, if_pos h4.symm]
        · rw [if_neg h4, if_neg (Ne.symm h4)]

/-- A block read has the length asked for. -/
@[simp] theorem memReadBlock_length (m : Memory) (a n : Nat) : (memReadBlock m a n).length = n := by
  induction n generalizing a with
  | zero => rfl
  | succ n ih => simp [memReadBlock, ih]

/-- A read outside a block store gives what it gave before. -/
theorem memRead_memWriteBlock_outside {m : Memory} (h : Memory.wf m) {a b : Nat} {bs : List Byte}
    (hb : b < a ∨ a + bs.length ≤ b) : memRead (memWriteBlock m a bs) b = memRead m b := by
  induction bs generalizing m a with
  | nil => rfl
  | cons v bs ih =>
    simp only [List.length_cons] at hb
    rw [memWriteBlock, ih (memWrite_wf h) (by omega), memRead_memWrite h, if_neg (by omega)]

/-- A read inside a block store gives the byte stored there. -/
theorem memRead_memWriteBlock_inside {m : Memory} (h : Memory.wf m) {a i : Nat} {bs : List Byte}
    (hi : i < bs.length) : memRead (memWriteBlock m a bs) (a + i) = bs.getD i 0 := by
  induction bs generalizing m a i with
  | nil => simp at hi
  | cons v bs ih =>
    rw [memWriteBlock]
    cases i with
    | zero => rw [memRead_memWriteBlock_outside (memWrite_wf h) (by omega), memRead_memWrite h, if_pos (Nat.add_zero a)]; rfl
    | succ i =>
      have := ih (m := memWrite m a v) (a := a + 1) (i := i) (memWrite_wf h) (by simpa using hi)
      rw [show a + (i + 1) = a + 1 + i by omega, this]
      simp

/-- A block read after a store of that block gives the block. -/
theorem memReadBlock_memWriteBlock {m : Memory} (h : Memory.wf m) (a : Nat) (bs : List Byte) :
    memReadBlock (memWriteBlock m a bs) a bs.length = bs := by
  induction bs generalizing m a with
  | nil => rfl
  | cons v bs ih =>
    rw [List.length_cons, memReadBlock, memWriteBlock, ih (memWrite_wf h),
      memRead_memWriteBlock_outside (memWrite_wf h) (by omega), memRead_memWrite h, if_pos rfl]

/-- A block read depends on the bytes of the block alone. -/
theorem memReadBlock_congr {m m' : Memory} {a n : Nat}
    (h : ∀ i, i < n → memRead m (a + i) = memRead m' (a + i)) : memReadBlock m a n = memReadBlock m' a n := by
  induction n generalizing a with
  | zero => rfl
  | succ n ih =>
    have h0 := h 0 (by omega)
    rw [memReadBlock, memReadBlock, ih fun i hi => ?_]
    · rw [Nat.add_zero] at h0; rw [h0]
    · have := h (i + 1) (by omega)
      rwa [show a + (i + 1) = a + 1 + i by omega] at this

/-- A read outside the bytes a failed read leaves behind gives what it gave before. -/
theorem memRead_memSpoil_outside {m : Memory} (h : Memory.wf m) {a b n d : Nat} (hb : b < a ∨ a + n ≤ b) :
    memRead (memSpoil m a n d) b = memRead m b := by
  induction n generalizing m a d with
  | zero => rfl
  | succ n ih => rw [memSpoil, ih (memWrite_wf h) (by omega), memRead_memWrite h, if_neg (by omega)]

end Sys2Proof.Machine
end

