-- ==== Sys2Proof/Laws/State.lean ====
section
/-! SUPPORT. One lemma per field per update of the state: what the update makes of the field. -/

namespace Sys2Proof.Machine

variable (s : State)

@[simp] theorem State.goto_params (p : Phase) : (s.goto p).params = s.params := rfl
@[simp] theorem State.goto_fc (p : Phase) : (s.goto p).fc = s.fc := rfl
@[simp] theorem State.goto_req (p : Phase) : (s.goto p).req = s.req := rfl
@[simp] theorem State.goto_phase (p : Phase) : (s.goto p).phase = p := rfl
@[simp] theorem State.goto_bx (p : Phase) : (s.goto p).bx = s.bx := rfl
@[simp] theorem State.goto_resp (p : Phase) : (s.goto p).resp = s.resp := rfl
@[simp] theorem State.goto_results (p : Phase) : (s.goto p).results = s.results := rfl
@[simp] theorem State.goto_trace (p : Phase) : (s.goto p).trace = s.trace := rfl
@[simp] theorem State.goto_mem (p : Phase) : (s.goto p).mem = s.mem := rfl
@[simp] theorem State.goto_env (p : Phase) : (s.goto p).env = s.env := rfl

@[simp] theorem State.latch_params (r : Request) : (s.latch r).params = s.params := rfl
@[simp] theorem State.latch_fc (r : Request) : (s.latch r).fc = s.fc := rfl
@[simp] theorem State.latch_req (r : Request) : (s.latch r).req = r := rfl
@[simp] theorem State.latch_phase (r : Request) : (s.latch r).phase = s.phase := rfl
@[simp] theorem State.latch_bx (r : Request) : (s.latch r).bx = s.bx := rfl
@[simp] theorem State.latch_resp (r : Request) : (s.latch r).resp = s.resp := rfl
@[simp] theorem State.latch_results (r : Request) : (s.latch r).results = s.results := rfl
@[simp] theorem State.latch_trace (r : Request) : (s.latch r).trace = s.trace := rfl
@[simp] theorem State.latch_mem (r : Request) : (s.latch r).mem = s.mem := rfl
@[simp] theorem State.latch_env (r : Request) : (s.latch r).env = s.env := rfl

@[simp] theorem State.startBlocks_params (n : Nat) : (s.startBlocks n).params = s.params := rfl
@[simp] theorem State.startBlocks_fc (n : Nat) : (s.startBlocks n).fc = s.fc := rfl
@[simp] theorem State.startBlocks_req (n : Nat) : (s.startBlocks n).req = s.req := rfl
@[simp] theorem State.startBlocks_phase (n : Nat) : (s.startBlocks n).phase = s.phase := rfl
@[simp] theorem State.startBlocks_bx (n : Nat) : (s.startBlocks n).bx = { BlockXfer.blank with nblocks := n } := rfl
@[simp] theorem State.startBlocks_resp (n : Nat) : (s.startBlocks n).resp = s.resp := rfl
@[simp] theorem State.startBlocks_results (n : Nat) : (s.startBlocks n).results = s.results := rfl
@[simp] theorem State.startBlocks_trace (n : Nat) : (s.startBlocks n).trace = s.trace := rfl
@[simp] theorem State.startBlocks_mem (n : Nat) : (s.startBlocks n).mem = s.mem := rfl
@[simp] theorem State.startBlocks_env (n : Nat) : (s.startBlocks n).env = s.env := rfl

@[simp] theorem State.endOperation_params (r : Results) : (s.endOperation r).params = s.params := rfl
@[simp] theorem State.endOperation_fc (r : Results) : (s.endOperation r).fc = s.fc := rfl
@[simp] theorem State.endOperation_req (r : Results) : (s.endOperation r).req = Request.blank := rfl
@[simp] theorem State.endOperation_phase (r : Results) : (s.endOperation r).phase = .idle := rfl
@[simp] theorem State.endOperation_bx (r : Results) : (s.endOperation r).bx = BlockXfer.blank := rfl
@[simp] theorem State.endOperation_resp (r : Results) : (s.endOperation r).resp = [] := rfl
@[simp] theorem State.endOperation_results (r : Results) : (s.endOperation r).results = r := rfl
@[simp] theorem State.endOperation_trace (r : Results) : (s.endOperation r).trace = s.trace := rfl
@[simp] theorem State.endOperation_mem (r : Results) : (s.endOperation r).mem = s.mem := rfl
@[simp] theorem State.endOperation_env (r : Results) : (s.endOperation r).env = s.env := rfl

@[simp] theorem State.blockDone_params (p : Phase) : (s.blockDone p).params = s.params := rfl
@[simp] theorem State.blockDone_fc (p : Phase) : (s.blockDone p).fc = s.fc := rfl
@[simp] theorem State.blockDone_req (p : Phase) : (s.blockDone p).req = s.req := rfl
@[simp] theorem State.blockDone_phase (p : Phase) : (s.blockDone p).phase = p := rfl
@[simp] theorem State.blockDone_bx (p : Phase) :
    (s.blockDone p).bx =
      { s.bx with doneBytes := s.bx.doneBytes + s.req.blockLength } := rfl
@[simp] theorem State.blockDone_resp (p : Phase) : (s.blockDone p).resp = s.resp := rfl
@[simp] theorem State.blockDone_results (p : Phase) : (s.blockDone p).results = s.results := rfl
@[simp] theorem State.blockDone_trace (p : Phase) : (s.blockDone p).trace = s.trace := rfl
@[simp] theorem State.blockDone_mem (p : Phase) : (s.blockDone p).mem = s.mem := rfl
@[simp] theorem State.blockDone_env (p : Phase) : (s.blockDone p).env = s.env := rfl

@[simp] theorem State.loadBlock_params (j : Nat) : (s.loadBlock j).params = s.params := rfl
@[simp] theorem State.loadBlock_fc (j : Nat) : (s.loadBlock j).fc = s.fc := rfl
@[simp] theorem State.loadBlock_req (j : Nat) : (s.loadBlock j).req = s.req := rfl
@[simp] theorem State.loadBlock_phase (j : Nat) : (s.loadBlock j).phase = s.phase := rfl
@[simp] theorem State.loadBlock_bx (j : Nat) :
    (s.loadBlock j).bx =
      { s.bx with held := memReadBlock s.mem (s.req.blockAddr j) s.req.blockLength } := rfl
@[simp] theorem State.loadBlock_resp (j : Nat) : (s.loadBlock j).resp = s.resp := rfl
@[simp] theorem State.loadBlock_results (j : Nat) : (s.loadBlock j).results = s.results := rfl
@[simp] theorem State.loadBlock_trace (j : Nat) : (s.loadBlock j).trace = s.trace := rfl
@[simp] theorem State.loadBlock_mem (j : Nat) : (s.loadBlock j).mem = s.mem := rfl
@[simp] theorem State.loadBlock_env (j : Nat) : (s.loadBlock j).env = s.env := rfl

@[simp] theorem State.spoilFrom_params (j : Nat) : (s.spoilFrom j).params = s.params := rfl
@[simp] theorem State.spoilFrom_fc (j : Nat) : (s.spoilFrom j).fc = s.fc := rfl
@[simp] theorem State.spoilFrom_req (j : Nat) : (s.spoilFrom j).req = s.req := rfl
@[simp] theorem State.spoilFrom_phase (j : Nat) : (s.spoilFrom j).phase = s.phase := rfl
@[simp] theorem State.spoilFrom_bx (j : Nat) : (s.spoilFrom j).bx = s.bx := rfl
@[simp] theorem State.spoilFrom_resp (j : Nat) : (s.spoilFrom j).resp = s.resp := rfl
@[simp] theorem State.spoilFrom_results (j : Nat) : (s.spoilFrom j).results = s.results := rfl
@[simp] theorem State.spoilFrom_trace (j : Nat) : (s.spoilFrom j).trace = s.trace := rfl
@[simp] theorem State.spoilFrom_mem (j : Nat) :
    (s.spoilFrom j).mem =
      memSpoil s.mem (s.req.blockAddr j) (s.req.dataLen - j * s.req.blockLength) s.env.draws := rfl
@[simp] theorem State.spoilFrom_env (j : Nat) :
    (s.spoilFrom j).env =
      { s.env with draws := s.env.draws + (s.req.dataLen - j * s.req.blockLength) } := rfl

@[simp] theorem State.feed_params (bs : List Byte) : (s.feed bs).params = s.params := rfl
@[simp] theorem State.feed_fc (bs : List Byte) : (s.feed bs).fc = s.fc := rfl
@[simp] theorem State.feed_req (bs : List Byte) : (s.feed bs).req = s.req := rfl
@[simp] theorem State.feed_phase (bs : List Byte) : (s.feed bs).phase = s.phase := rfl
@[simp] theorem State.feed_bx (bs : List Byte) : (s.feed bs).bx = s.bx := rfl
@[simp] theorem State.feed_resp (bs : List Byte) : (s.feed bs).resp = s.resp := rfl
@[simp] theorem State.feed_results (bs : List Byte) : (s.feed bs).results = s.results := rfl
@[simp] theorem State.feed_trace (bs : List Byte) : (s.feed bs).trace = s.trace := rfl
@[simp] theorem State.feed_mem (bs : List Byte) : (s.feed bs).mem = s.mem := rfl
@[simp] theorem State.feed_env (bs : List Byte) :
    (s.feed bs).env =
      { s.env with slave := bs.map WireAnswer.byte ++ s.env.slave } := rfl

end Sys2Proof.Machine
end

