-- ==== Sys2Proof/Laws/Ops.lean ====
section
/-! SUPPORT. Everything a shared operation can do, said once: what holds of the next state if it holds after every way
the operation can go on or end (`…_ensures`), and what it does when the collaborator's answer is known. -/

namespace Sys2Proof.Machine

/-- `P` holds of the next state, if the outcome is one. -/
def Ensures (P : State → Prop) : Out → Prop
  | .next t => P t
  | .fault _ => True
  | .refused _ => True

theorem ensures_iff {P : State → Prop} {o : Out} : Ensures P o ↔ ∀ t, o = .next t → P t := by
  cases o <;> simp [Ensures]

@[simp] theorem ensures_next {P : State → Prop} {t : State} : Ensures P (.next t) ↔ P t := Iff.rfl

@[simp] theorem ensures_fault {P : State → Prop} {f : Fault} : Ensures P (.fault f) := trivial

theorem ensures_raise {P : State → Prop} {f : OpOutcome} {s : State} (h : P (s.fail f)) : Ensures P (raise f s) := h

/-! ### Failure entry -/

/-- What a failure leaves of each field: the transient ones are discarded, the buffer may hold free values (R211). -/
theorem State.fail_fields (f : OpOutcome) (s : State) :
    (s.fail f).params = s.params ∧ (s.fail f).fc = s.fc ∧ (s.fail f).trace = s.trace ∧ (s.fail f).phase = .idle ∧
      (s.fail f).req = Request.blank ∧ (s.fail f).bx = BlockXfer.blank ∧ (s.fail f).resp = [] ∧
      (s.fail f).results = { Results.blank with outcome := some f } := by
  unfold State.fail State.spoilRead
  split <;> exact ⟨rfl, rfl, rfl, rfl, rfl, rfl, rfl, rfl⟩

theorem State.fail_port (f : OpOutcome) (s : State) :
    (s.fail f).env.port = s.env.port ∧ (s.fail f).env.resetLine = s.env.resetLine ∧
      (s.fail f).env.slave = s.env.slave := by
  unfold State.fail State.spoilRead
  split <;> exact ⟨rfl, rfl, rfl⟩

/-- A failure outside the bytes of a block being read leaves memory as it is (R68, R211). -/
theorem State.fail_mem {f : OpOutcome} {s : State} (h1 : ∀ j i, s.phase ≠ .rData j i)
    (h2 : ∀ j h, s.phase ≠ .rCrc j h) : (s.fail f).mem = s.mem := by
  unfold State.fail State.spoilRead
  split
  · exact absurd ‹_› (h1 _ _)
  · exact absurd ‹_› (h2 _ _)
  · rfl

theorem State.fail_mem_wf {f : OpOutcome} {s : State} (h : Memory.wf s.mem) : Memory.wf (s.fail f).mem := by
  unfold State.fail State.spoilRead
  split
  · exact memSpoil_wf h
  · exact memSpoil_wf h
  · exact h

/-! ### The slave -/

theorem Env.nextWire_env (e : Env) : ∃ sl d, e.nextWire.2 = { e with slave := sl, draws := d } := by
  unfold Env.nextWire
  split
  · exact ⟨_, e.draws, rfl⟩
  · next h => exact ⟨[], e.draws + 1, by rw [← h]⟩

theorem Env.nextWires_env (n : Nat) (e : Env) :
    ∃ sl d, (Env.nextWires n e).2 = { e with slave := sl, draws := d } := by
  induction n generalizing e with
  | zero => exact ⟨e.slave, e.draws, rfl⟩
  | succ n ih =>
    obtain ⟨sl, d, h⟩ := e.nextWire_env
    rw [Env.nextWires]
    rcases hw : e.nextWire with ⟨_ | _, e'⟩
    · rw [hw] at h
      simp only at h
      subst h
      obtain ⟨sl', d', h'⟩ := ih { e with slave := sl, draws := d }
      rcases hn : Env.nextWires n { e with slave := sl, draws := d } with ⟨_ | _, e''⟩ <;>
        · rw [hn] at h'
          exact ⟨sl', d', by simp only [hn]; exact h'⟩
    · rw [hw] at h
      exact ⟨sl, d, h⟩

/-- One byte exchanged: the slave's answer is an error, which ends the operation, or a byte, with which it goes on. -/
theorem xfer_ensures {P : State → Prop} {t : Byte} {s : State} {k : Byte → State → Out}
    (herr : ∀ c sl d, P (State.fail (.collaboratorError .transfer s.phase c)
      { s with env := { s.env with slave := sl, draws := d } }))
    (hok : ∀ b sl d, Ensures P (k b { s with
      env := { s.env with slave := sl, draws := d }, trace := s.trace ++ [(t, b)] })) :
    Ensures P (xfer t s k) := by
  obtain ⟨sl, d, h⟩ := s.env.nextWire_env
  unfold xfer
  rcases hw : s.env.nextWire with ⟨_ | _, e⟩
  · rw [hw] at h
    simp only at h
    subst h
    exact hok _ _ _
  · rw [hw] at h
    simp only at h
    subst h
    exact herr _ _ _

theorem pull_ensures {P : State → Prop} {s : State} {k : Byte → State → Out}
    (herr : ∀ c sl d, P (State.fail (.collaboratorError .transfer s.phase c)
      { s with env := { s.env with slave := sl, draws := d } }))
    (hok : ∀ b sl d, Ensures P (k b { s with
      env := { s.env with slave := sl, draws := d }, trace := s.trace ++ [(Config.idleByte, b)] })) :
    Ensures P (pull s k) := xfer_ensures herr hok

theorem push_ensures {P : State → Prop} {t : Byte} {s : State} {k : State → Out}
    (herr : ∀ c sl d, P (State.fail (.collaboratorError .transfer s.phase c)
      { s with env := { s.env with slave := sl, draws := d } }))
    (hok : ∀ b sl d, Ensures P (k { s with
      env := { s.env with slave := sl, draws := d }, trace := s.trace ++ [(t, b)] })) :
    Ensures P (push t s k) := xfer_ensures herr hok

theorem Env.nextWires_length {n : Nat} {e e' : Env} {bs : List Byte} (h : Env.nextWires n e = (.ok bs, e')) :
    bs.length = n := by
  induction n generalizing e e' bs with
  | zero => simp only [Env.nextWires, Prod.mk.injEq, Except.ok.injEq] at h; rw [← h.1]; rfl
  | succ n ih =>
    rw [Env.nextWires] at h
    rcases hw : e.nextWire with ⟨_ | _, e1⟩
    · rw [hw] at h
      rcases hn : Env.nextWires n e1 with ⟨_ | _, e2⟩
      · simp [hn] at h
      · simp only [hn, Prod.mk.injEq, Except.ok.injEq] at h
        rw [← h.1, List.length_cons, ih hn]
    · simp [hw] at h

/-- One call of several bytes: an error ends the operation and leaves the trace, or every byte is answered. -/
theorem xferN_ensures {P : State → Prop} {ts : List Byte} {s : State} {k : List Byte → State → Out}
    (herr : ∀ c sl d, P (State.fail (.collaboratorError .transfer s.phase c)
      { s with env := { s.env with slave := sl, draws := d } }))
    (hok : ∀ bs sl d, bs.length = ts.length → Ensures P (k bs { s with
      env := { s.env with slave := sl, draws := d }, trace := s.trace ++ ts.zip bs })) :
    Ensures P (xferN ts s k) := by
  obtain ⟨sl, d, h⟩ := Env.nextWires_env ts.length s.env
  unfold xferN
  rcases hw : Env.nextWires ts.length s.env with ⟨_ | _, e⟩
  · rw [hw] at h
    simp only at h
    subst h
    exact herr _ _ _
  · rw [hw] at h
    simp only at h
    subst h
    exact hok _ _ _ (Env.nextWires_length hw)

/-- One byte exchanged, where the slave's answer is known. -/
theorem xfer_byte {t b : Byte} {s : State} {rest : List WireAnswer} {k : Byte → State → Out}
    (h : s.env.slave = .byte b :: rest) :
    xfer t s k = k b { s with env := { s.env with slave := rest }, trace := s.trace ++ [(t, b)] } := by
  simp [xfer, Env.nextWire, h]

theorem pull_byte {b : Byte} {s : State} {rest : List WireAnswer} {k : Byte → State → Out}
    (h : s.env.slave = .byte b :: rest) :
    pull s k = k b { s with env := { s.env with slave := rest }, trace := s.trace ++ [(Config.idleByte, b)] } :=
  xfer_byte h

theorem push_byte {t b : Byte} {s : State} {rest : List WireAnswer} {k : State → Out}
    (h : s.env.slave = .byte b :: rest) :
    push t s k = k { s with env := { s.env with slave := rest }, trace := s.trace ++ [(t, b)] } :=
  xfer_byte h

/-- One byte exchanged, where the collaborator answers with an error (R209). -/
theorem xfer_error {t : Byte} {c : Nat} {s : State} {rest : List WireAnswer} {k : Byte → State → Out}
    (h : s.env.slave = .error c :: rest) :
    xfer t s k = raise (.collaboratorError .transfer s.phase c) { s with env := { s.env with slave := rest } } := by
  simp [xfer, Env.nextWire, h]

theorem Env.nextWires_bytes {bs : List Byte} {rest : List WireAnswer} {e : Env}
    (h : e.slave = bs.map WireAnswer.byte ++ rest) :
    Env.nextWires bs.length e = (.ok bs, { e with slave := rest }) := by
  induction bs generalizing e with
  | nil =>
    simp only [List.map_nil, List.nil_append] at h
    rw [← h]; rfl
  | cons b bs ih =>
    simp only [List.map_cons, List.cons_append] at h
    rw [List.length_cons, Env.nextWires]
    have hw : e.nextWire = (.byte b, { e with slave := bs.map WireAnswer.byte ++ rest }) := by
      simp [Env.nextWire, h]
    have hi := ih (e := { e with slave := bs.map WireAnswer.byte ++ rest }) rfl
    rw [hw]
    simp only [hi]

/-- A call of several bytes, where the slave's answers are known. -/
theorem xferN_bytes {ts bs : List Byte} {s : State} {rest : List WireAnswer} {k : List Byte → State → Out}
    (h : s.env.slave = bs.map WireAnswer.byte ++ rest) (hl : bs.length = ts.length) :
    xferN ts s k = k bs { s with env := { s.env with slave := rest }, trace := s.trace ++ ts.zip bs } := by
  unfold xferN
  rw [← hl, Env.nextWires_bytes h]

/-- The answers to one call up to the first error, which is all that the call takes (R56). -/
theorem Env.nextWires_error {bs : List Byte} {c n : Nat} {rest : List WireAnswer} {e : Env}
    (h : e.slave = bs.map WireAnswer.byte ++ .error c :: rest) (hn : bs.length < n) :
    Env.nextWires n e = (.error c, { e with slave := rest }) := by
  obtain ⟨m, rfl⟩ : ∃ m, n = m + 1 := ⟨n - 1, by omega⟩
  induction bs generalizing m e with
  | nil => simp [Env.nextWires, Env.nextWire, show e.slave = .error c :: rest from h]
  | cons b bs ih =>
    obtain ⟨m, rfl⟩ : ∃ k, m = k + 1 := ⟨m - 1, by simp only [List.length_cons] at hn; omega⟩
    have hw : e.nextWire = (.byte b, { e with slave := bs.map WireAnswer.byte ++ .error c :: rest }) := by
      simp [Env.nextWire, h]
    have hi := ih (e := { e with slave := bs.map WireAnswer.byte ++ .error c :: rest }) rfl m
      (by simp only [List.length_cons] at hn; omega)
    rw [Env.nextWires, hw]
    simp only [hi]

/-- A call of several bytes, where one of the slave's answers is an error (R209). -/
theorem xferN_error {ts bs : List Byte} {c : Nat} {s : State} {rest : List WireAnswer} {k : List Byte → State → Out}
    (h : s.env.slave = bs.map WireAnswer.byte ++ .error c :: rest) (hl : bs.length < ts.length) :
    xferN ts s k = raise (.collaboratorError .transfer s.phase c) { s with env := { s.env with slave := rest } } := by
  unfold xferN
  rw [Env.nextWires_error h hl]

/-! ### The CRC primitives and the credit collaborator -/

theorem crcCall_ensures {P : State → Prop} {c : Collab} {s : State} {k : State → Out}
    (herr : ∀ code rest, P (State.fail (.collaboratorError c s.phase code)
      { s with env := { s.env with crcErrs := rest } }))
    (hok : ∀ es, Ensures P (k { s with env := { s.env with crcErrs := es } })) :
    Ensures P (crcCall c s k) := by
  unfold crcCall
  split
  · next h =>
    have := hok []
    rwa [← h] at this
  · exact hok _
  · exact herr _ _

/-- A CRC call that does not fail. -/
theorem crcCall_sound {c : Collab} {s : State} {k : State → Out} (h : s.env.crcErrs = []) : crcCall c s k = k s := by
  simp [crcCall, h]

theorem availCredit_ensures {P : State → Prop} {s : State} {k : Nat → State → Out}
    (herr : ∀ code rest, P (State.fail (.collaboratorError .credit s.phase code)
      { s with env := { s.env with credit := rest } }))
    (hok : ∀ a cs d, Ensures P (k a { s with env := { s.env with credit := cs, draws := d } })) :
    Ensures P (availCredit s k) := by
  unfold availCredit
  split
  · exact hok _ _ s.env.draws
  · exact herr _ _
  · next h =>
    have := hok (Config.creditCount s.env.draws % 2 ^ s.params.creditW) [] (s.env.draws + 1)
    rwa [← h] at this

/-- A credit read whose answer is known and fits CREDIT_W bits. -/
theorem availCredit_count {n : Nat} {s : State} {rest : List CreditAnswer} {k : Nat → State → Out}
    (h : s.env.credit = .count n :: rest) (hn : n < 2 ^ s.params.creditW) :
    availCredit s k = k n { s with env := { s.env with credit := rest } } := by
  simp [availCredit, h, Nat.mod_eq_of_lt hn]

/-- A credit read that ends in an error (R209). -/
theorem availCredit_error {code : Nat} {s : State} {rest : List CreditAnswer} {k : Nat → State → Out}
    (h : s.env.credit = .error code :: rest) :
    availCredit s k =
      raise (.collaboratorError .credit s.phase code) { s with env := { s.env with credit := rest } } := by
  rw [availCredit, h]

/-! ### Commits, acceptance, admission -/

theorem commitSendUnits_ensures {P : State → Prop} {n : Nat} {s : State} {k : State → Out}
    (hok : s.fc.txSentBuffers + s.fc.units n < 2 ^ s.params.cntW → Ensures P (k { s with
      fc := { s.fc with txSentBuffers := s.fc.txSentBuffers + s.fc.units n } })) :
    Ensures P (commitSendUnits n s k) := by
  unfold commitSendUnits
  split
  · exact hok ‹_›
  · trivial

theorem commitRecvBytes_ensures {P : State → Prop} {n : Nat} {s : State} {k : State → Out}
    (hok : s.fc.rxGotBytes + n < 2 ^ s.params.cntW → Ensures P (k { s with
      fc := { s.fc with rxGotBytes := s.fc.rxGotBytes + n } })) :
    Ensures P (commitRecvBytes n s k) := by
  unfold commitRecvBytes
  split
  · exact hok ‹_›
  · trivial

theorem atIdle_ensures {P : State → Prop} {s : State} {k : State → Out}
    (hidle : s.phase = .idle → Ensures P (k s)) (hbusy : s.phase ≠ .idle → P s) : Ensures P (atIdle s k) := by
  unfold atIdle
  split
  · exact hidle ‹_›
  · exact hbusy ‹_›

theorem atIdle_idle {s : State} {k : State → Out} (h : s.phase = .idle) : atIdle s k = k s := if_pos h

/-- What A1 to A4 leave of a request that gets as far as the credit check (R126). -/
structure Request.Sound (r : Request) : Prop where
  lent : r.buf ≠ none
  pos : 1 ≤ r.blockLength
  small : r.blockLength ≤ Config.maxBlock
  some : 1 ≤ r.nblocks
  whole : r.dataLen = r.nblocks * r.blockLength
  single : r.flags.multi = false → r.nblocks = 1

theorem Request.sound_of_checks {r : Request} (h1 : ¬(r.buf = none ∨ r.blockLength = 0))
    (h2 : ¬r.payload > Config.maxBlock) (h3 : ¬r.badGeometry = true) : r.Sound := by
  simp only [Request.badGeometry, Bool.or_eq_true, beq_iff_eq, bne_iff_ne, Bool.and_eq_true, Bool.not_eq_true',
    not_or, not_and, not_not, ne_eq] at h1 h3
  obtain ⟨hb, hl⟩ := h1
  obtain ⟨⟨hd, hm⟩, hs⟩ := h3
  have hdvd : r.blockLength ∣ r.dataLen := Nat.dvd_of_mod_eq_zero hm
  have hpos : 1 ≤ r.blockLength := Nat.one_le_iff_ne_zero.2 hl
  have hwhole : r.dataLen = r.nblocks * r.blockLength := (Nat.div_mul_cancel hdvd).symm
  refine ⟨hb, hpos, ?_, ?_, hwhole, ?_⟩
  · unfold Request.payload at h2
    split at h2
    · omega
    · have := Nat.le_max_left r.blockLength r.dataLen
      omega
  · refine Nat.one_le_iff_ne_zero.2 fun h0 => hd ?_
    rw [hwhole, h0, Nat.zero_mul]
  · intro hmul
    have := hs (by simpa using hmul)
    rw [Request.nblocks, this, Nat.div_self (by omega)]

/-- Admission (R126): a refusal or a collaborator's error, or an admitted transfer on a configured CORE. -/
theorem xferAdmit_ensures {P : State → Prop} {s : State} {k : Nat → State → Out}
    (hfail : ∀ f cs d, P (State.fail f { s with env := { s.env with credit := cs, draws := d } }))
    (hok : ∀ cs d, s.req.Sound → s.fc.configured = true →
      Ensures P (k s.req.nblocks { s with env := { s.env with credit := cs, draws := d } })) :
    Ensures P (xferAdmit s k) := by
  have hf : ∀ f, Ensures P (raise f s) := fun f => hfail f s.env.credit s.env.draws
  unfold xferAdmit
  split_ifs with h1 h2 h3 h4
  · exact hf _
  · exact hf _
  · exact hf _
  · exact hf _
  · refine availCredit_ensures (fun code rest => hfail _ rest s.env.draws) fun a cs d => ?_
    simp only
    split
    · exact hfail _ _ _
    · exact hok cs d (Request.sound_of_checks h1 h2 h3) (by simpa using h4)

end Sys2Proof.Machine
end

