-- ==== Sys2Proof/Laws/PerInstr.lean ====
section
/-! SUPPORT. One lemma per instruction: its encoding has the length that its format has (R70), and a request's reserved
control bits are zero (R88). -/

namespace Sys2Proof.Laws.FormatLength

/-- The numbers of bytes a wire format has (R70, R77, R79). -/
def lengthOk (f : WireFormat) (n : Nat) : Bool :=
  match f with
  | .cmdFrame => n == Config.frameLen
  | .dataBlock => decide (3 ≤ n) && decide (n ≤ Config.maxBlock + 2)
  | .rspR4 => n == 5
  | .rspR5 => n == 2
  | _ => n == 1

/-- What the encoding of a well-formed instruction keeps. -/
def Statement (i : Instr) : Prop :=
  ∀ p, i.wf p = true →
    match encode i with
    | .request r => r.ctl.extractLsb' 10 6 = 0
    | .wire f bytes => lengthOk f bytes.length = true

/-- The reserved bits of a control word are zero. -/
theorem encodeCtl_reserved (op : BitVec 4) (sel : Sel) (f : Flags) : (encodeCtl op sel f).extractLsb' 10 6 = 0 := by
  unfold encodeCtl
  ext i hi
  simp only [BitVec.getElem_extractLsb', BitVec.getLsbD_append]
  have h1 : ¬10 + i < 4 := by omega
  have h2 : ¬10 + i - 4 < 2 := by omega
  have h3 : ¬10 + i - 4 - 2 < 4 := by omega
  simp [h1, h2, h3]

theorem encode (index : Nat) (arg : Word32) : Statement (.encode index arg) :=
  fun _ _ => encodeCtl_reserved _ _ _

theorem decodeNone : Statement .decodeNone :=
  fun _ _ => encodeCtl_reserved _ _ _

theorem decodeR1 : Statement .decodeR1 :=
  fun _ _ => encodeCtl_reserved _ _ _

theorem decodeR4 : Statement .decodeR4 :=
  fun _ _ => encodeCtl_reserved _ _ _

theorem decodeR5 : Statement .decodeR5 :=
  fun _ _ => encodeCtl_reserved _ _ _

theorem xferWrSingle (x : XferArgs) : Statement (.xferWrSingle x) :=
  fun _ _ => encodeCtl_reserved _ _ _

theorem xferWrMulti (x : XferArgs) : Statement (.xferWrMulti x) :=
  fun _ _ => encodeCtl_reserved _ _ _

theorem xferRdSingle (x : XferArgs) : Statement (.xferRdSingle x) :=
  fun _ _ => encodeCtl_reserved _ _ _

theorem xferRdMulti (x : XferArgs) : Statement (.xferRdMulti x) :=
  fun _ _ => encodeCtl_reserved _ _ _

theorem execute (d : Descriptor) : Statement (.execute d) :=
  fun _ _ => encodeCtl_reserved _ _ _

theorem reserveSend (n : Nat) : Statement (.reserveSend n) :=
  fun _ _ => encodeCtl_reserved _ _ _

theorem reserveRecv (n : Nat) : Statement (.reserveRecv n) :=
  fun _ _ => encodeCtl_reserved _ _ _

theorem commitSend (n : Nat) : Statement (.commitSend n) :=
  fun _ _ => encodeCtl_reserved _ _ _

theorem commitRecv (n : Nat) : Statement (.commitRecv n) :=
  fun _ _ => encodeCtl_reserved _ _ _

theorem fcReset : Statement .fcReset :=
  fun _ _ => encodeCtl_reserved _ _ _

theorem config (bs bk : Nat) : Statement (.config bs bk) :=
  fun _ _ => encodeCtl_reserved _ _ _

theorem reservedAB (b : BitVec 1) : Statement (.reservedAB b) :=
  fun _ _ => encodeCtl_reserved _ _ _

theorem reservedCF (b : BitVec 2) : Statement (.reservedCF b) :=
  fun _ _ => encodeCtl_reserved _ _ _

theorem cmdFrame (index : BitVec 6) (arg : Word32) (crc : BitVec 7) : Statement (.cmdFrame index arg crc) :=
  fun _ _ => rfl

theorem idle : Statement .idle :=
  fun _ _ => rfl

theorem tokStartSingle : Statement .tokStartSingle :=
  fun _ _ => rfl

theorem tokStartMultiWr : Statement .tokStartMultiWr :=
  fun _ _ => rfl

theorem tokStop : Statement .tokStop :=
  fun _ _ => rfl

theorem dataBlock (payload : List Byte) (crc : BitVec 16) : Statement (.dataBlock payload crc) := by
  intro p h
  simp only [Instr.wf, Bool.and_eq_true, decide_eq_true_eq] at h
  show lengthOk .dataBlock (payload ++ crcBytes crc).length = true
  simp only [lengthOk, crcBytes, List.length_append, List.length_cons, List.length_nil, Bool.and_eq_true,
    decide_eq_true_eq]
  omega

theorem dataResp (d : Byte) : Statement (.dataResp d) :=
  fun _ _ => rfl

theorem rspR1 (m : Byte) : Statement (.rspR1 m) :=
  fun _ _ => rfl

theorem rspR4 (m p1 p2 p3 p4 : Byte) : Statement (.rspR4 m p1 p2 p3 p4) :=
  fun _ _ => rfl

theorem rspR5 (m p1 : Byte) : Statement (.rspR5 m p1) :=
  fun _ _ => rfl

end Sys2Proof.Laws.FormatLength
end

