-- ==== Sys2Proof/Laws/Step.lean ====
section
/-! SUPPORT. What a step can do, said once: the inversion of a step outside IDLE (`step_wire`), whose cases are the rows
of R186, and of the acceptance of a request (`exec_request`). -/

namespace Sys2Proof.Machine

/-- The inputs after a step: the port, the reset signal and the credit answers are as before. -/
def Env.Moved (e e' : Env) : Prop :=
  e'.port = e.port ∧ e'.resetLine = e.resetLine ∧ e'.credit = e.credit

/-- Why a running operation fails with `f` (R202 to R209): in the data phase or in the scan for a reason of its own, in
phase STATUS with a fatal status byte. -/
def State.failsWith (s : State) : OpOutcome → Prop
  | .success => False
  | .ok => False
  | .invalidCommand => False
  | .blockTooLarge => False
  | .insufficientCredit => False
  | .statusError bits => s.phase = .status ∧ s.req.op = .execute ∧ bits = s.resp.headD 0 ∧
      isFatal s.params s.req.index bits = true
  | .responseTimeout => ∃ k, s.phase = .rspScan k ∧ s.req.scanBound ≤ k
  | .blockTimeout => s.phase = .wReady 0 ∨ s.phase = .wBusy 0 ∨ ∃ j, s.phase = .rPoll j 0
  | .crcMismatch => (∃ j, s.phase = .wDresp j) ∨ ∃ j, s.phase = .rCrc j true
  | .collaboratorError _ p _ => p = s.phase

/-- The rows of R186 for the phases other than IDLE: `t` follows `s`. `e` is what the collaborators leave of the
inputs. -/
inductive WireStep (s : State) : State → Prop
  | fails (f : OpOutcome) (e : Env) (w : List (Byte × Byte)) : s.env.Moved e → s.failsWith f →
      (w = [] ∨ ∃ b, w = [(Config.idleByte, b)] ∧ ((∃ j, s.phase = .wDresp j) ∨ ∃ j, s.phase = .rCrc j true)) →
      WireStep s (State.fail f { s with env := e, trace := s.trace ++ w })
  | frame (e : Env) (rx : List Byte) : s.env.Moved e → s.phase = .frame → rx.length = Config.frameLen →
      WireStep s { s with
        env := e
        trace := s.trace ++ (encodeFrame s.params s.req.index s.req.arg).zip rx
        phase := s.req.afterFrame }
  | scanIdle (k : Nat) (e : Env) : s.env.Moved e → s.phase = .rspScan k → k < s.req.scanBound →
      WireStep s { s with
        env := e, trace := s.trace ++ [(Config.idleByte, Config.idleByte)], phase := .rspScan (k + 1) }
  | scanMarker (k : Nat) (e : Env) (b : Byte) : s.env.Moved e → s.phase = .rspScan k → k < s.req.scanBound →
      b ≠ Config.idleByte →
      WireStep s { s with
        env := e, trace := s.trace ++ [(Config.idleByte, b)], resp := [b]
        phase := if s.req.sel = .r1 then .status else .rspRest (rspLen s.req.sel - 1) }
  | rest (r : Nat) (e : Env) (b : Byte) : s.env.Moved e → s.phase = .rspRest r →
      WireStep s { s with
        env := e, trace := s.trace ++ [(Config.idleByte, b)], resp := s.resp ++ [b]
        phase := if r ≤ 1 then s.req.afterResponse else .rspRest (r - 1) }
  | status : s.phase = .status →
      (s.req.op = .execute → isFatal s.params s.req.index (s.resp.headD 0) = false) →
      WireStep s { s with phase := s.req.afterResponse }
  | ready (p : Nat) (e : Env) (b : Byte) : s.env.Moved e → s.phase = .wReady p → 0 < p →
      WireStep s { s with
        env := e, trace := s.trace ++ [(Config.idleByte, b)]
        phase := if b = Config.idleByte then .wToken else .wReady (p - 1) }
  | token (e : Env) (x b : Byte) : s.env.Moved e → s.phase = .wToken →
      WireStep s { s with env := e, trace := s.trace ++ [(x, b)], phase := .wData 0 0 }
  | data (j i : Nat) (h : List Byte) (e : Env) (x b : Byte) : s.env.Moved e → s.phase = .wData j i →
      h = (if i = 0 then memReadBlock s.mem (s.req.blockAddr j) s.req.blockLength else s.bx.held) →
      WireStep s { s with
        env := e, trace := s.trace ++ [(x, b)], bx := { s.bx with held := h }
        phase := if i + 1 < s.req.blockLength then .wData j (i + 1) else .wCrc j false }
  | crc (j : Nat) (low : Bool) (e : Env) (x b : Byte) : s.env.Moved e → s.phase = .wCrc j low →
      WireStep s { s with
        env := e, trace := s.trace ++ [(x, b)], phase := if low = true then .wDresp j else .wCrc j true }
  | accepted (j : Nat) (e : Env) (b : Byte) : s.env.Moved e → s.phase = .wDresp j →
      drespAccepted s.params b = true →
      s.fc.txSentBuffers + s.fc.units s.req.blockLength < 2 ^ s.params.cntW →
      WireStep s { s with
        env := e, trace := s.trace ++ [(Config.idleByte, b)]
        fc := { s.fc with txSentBuffers := s.fc.txSentBuffers + s.fc.units s.req.blockLength }
        bx := { s.bx with doneBytes := s.bx.doneBytes + s.req.blockLength }
        phase := s.afterWrite j }
  | stop (e : Env) (b : Byte) : s.env.Moved e → s.phase = .wStop →
      WireStep s { s with
        env := e, trace := s.trace ++ [(Config.tokStopByte, b)], phase := .wBusy s.req.timeout }
  | busy (p : Nat) (e : Env) (b : Byte) : s.env.Moved e → s.phase = .wBusy p → 0 < p →
      WireStep s { s with
        env := e, trace := s.trace ++ [(Config.idleByte, b)]
        phase := if b = Config.idleByte then .done else .wBusy (p - 1) }
  | poll (j p : Nat) (e : Env) (b : Byte) : s.env.Moved e → s.phase = .rPoll j p → 0 < p →
      b ≠ Config.tokStartSingleByte →
      WireStep s { s with
        env := e, trace := s.trace ++ [(Config.idleByte, b)], phase := .rPoll j (p - 1) }
  | start (j p : Nat) (e : Env) : s.env.Moved e → s.phase = .rPoll j p → 0 < p →
      WireStep s { s with
        env := e, trace := s.trace ++ [(Config.idleByte, Config.tokStartSingleByte)]
        bx := { s.bx with held := [] }, phase := .rData j 0 }
  | payload (j i : Nat) (e : Env) (b : Byte) : s.env.Moved e → s.phase = .rData j i →
      WireStep s { s with
        env := e, trace := s.trace ++ [(Config.idleByte, b)], bx := { s.bx with held := s.bx.held ++ [b] }
        phase := if i + 1 < s.req.blockLength then .rData j (i + 1) else .rCrc j false }
  | crcHigh (j : Nat) (e : Env) (b : Byte) : s.env.Moved e → s.phase = .rCrc j false →
      WireStep s { s with
        env := e, trace := s.trace ++ [(Config.idleByte, b)], bx := { s.bx with crcHi := b }, phase := .rCrc j true }
  | matched (j : Nat) (e : Env) (b : Byte) : s.env.Moved e → s.phase = .rCrc j true →
      s.bx.crcHi ++ b = crc16 s.params s.bx.held → s.fc.rxGotBytes + s.req.blockLength < 2 ^ s.params.cntW →
      WireStep s { s with
        env := e, trace := s.trace ++ [(Config.idleByte, b)]
        mem := memWriteBlock s.mem (s.req.blockAddr j) s.bx.held
        fc := { s.fc with rxGotBytes := s.fc.rxGotBytes + s.req.blockLength }
        bx := { s.bx with doneBytes := s.bx.doneBytes + s.req.blockLength }
        phase := s.afterRead j }
  | done : s.phase = .done → WireStep s s.finish

/-! ### The wire items, each in the phase it belongs to -/

section

variable {s : State}

theorem execCmdFrame_frame {index : BitVec 6} {arg : Word32} {crc : BitVec 7} (h : s.phase = .frame) :
    execCmdFrame index arg crc s = xferN (frameOf index arg crc) s fun _ s => .next (s.goto s.req.afterFrame) := by
  unfold execCmdFrame; rw [h]

theorem execIdle_scan {k : Nat} (h : s.phase = .rspScan k) : execIdle s = .next (s.goto (.rspScan (k + 1))) := by
  unfold execIdle; rw [h]

theorem execIdle_ready {p : Nat} (h : s.phase = .wReady p) : execIdle s = .next (s.goto .wToken) := by
  unfold execIdle; rw [h]

theorem execIdle_busy {p : Nat} (h : s.phase = .wBusy p) : execIdle s = .next (s.goto .done) := by
  unfold execIdle; rw [h]

theorem execIdle_poll {j p : Nat} (h : s.phase = .rPoll j p) : execIdle s = .next (s.goto (.rPoll j (p - 1))) := by
  unfold execIdle; rw [h]

theorem execTokStartSingle_token (h : s.phase = .wToken) :
    execTokStartSingle s = push Config.tokStartSingleByte s fun s => .next (s.goto (.wData 0 0)) := by
  unfold execTokStartSingle; rw [h]

theorem execTokStartSingle_poll {j p : Nat} (h : s.phase = .rPoll j p) :
    execTokStartSingle s = .next ({ s with bx := { s.bx with held := [] } }.goto (.rData j 0)) := by
  unfold execTokStartSingle; rw [h]

theorem execTokStartMultiWr_token (h : s.phase = .wToken) :
    execTokStartMultiWr s = push Config.tokStartMultiWrByte s fun s => .next (s.goto (.wData 0 0)) := by
  unfold execTokStartMultiWr; rw [h]

theorem execTokStop_stop (h : s.phase = .wStop) :
    execTokStop s = push Config.tokStopByte s fun s => .next (s.goto (.wBusy s.req.timeout)) := by
  unfold execTokStop; rw [h]

theorem execDataBlock_data {payload : List Byte} {crc : BitVec 16} {j i : Nat} (h : s.phase = .wData j i) :
    execDataBlock payload crc s = push (payload.getD i 0) s fun s =>
      .next (s.goto (if i + 1 < s.req.blockLength then .wData j (i + 1) else .wCrc j false)) := by
  unfold execDataBlock; rw [h]

theorem execDataBlock_crcHigh {payload : List Byte} {crc : BitVec 16} {j : Nat} (h : s.phase = .wCrc j false) :
    execDataBlock payload crc s = push (crc.extractLsb' 8 8) s fun s => .next (s.goto (.wCrc j true)) := by
  unfold execDataBlock; rw [h]

theorem execDataBlock_crcLow {payload : List Byte} {crc : BitVec 16} {j : Nat} (h : s.phase = .wCrc j true) :
    execDataBlock payload crc s = push (crc.extractLsb' 0 8) s fun s => .next (s.goto (.wDresp j)) := by
  unfold execDataBlock; rw [h]

theorem execDataBlock_received {payload : List Byte} {crc : BitVec 16} {j : Nat} (h : s.phase = .rCrc j true) :
    execDataBlock payload crc s = crcCall .crc16 s fun s =>
      if crc = crc16 s.params payload then
        commitRecvBytes s.req.blockLength { s with mem := memWriteBlock s.mem (s.req.blockAddr j) payload } fun s =>
          .next (s.blockDone (s.afterRead j))
      else raise .crcMismatch s := by
  unfold execDataBlock; rw [h]

theorem execDataResp_dresp {d : Byte} {j : Nat} (h : s.phase = .wDresp j) :
    execDataResp d s =
      if drespAccepted s.params d then
        commitSendUnits s.req.blockLength s fun s => .next (s.blockDone (s.afterWrite j))
      else raise .crcMismatch s := by
  unfold execDataResp; rw [h]

theorem execRspR1_scan {m : Byte} {k : Nat} (h : s.phase = .rspScan k) :
    execRspR1 m s = .next { s with resp := [m], phase := .status } := by
  unfold execRspR1; rw [h]

theorem takeResponse_rest {bytes : List Byte} {r : Nat} (h : s.phase = .rspRest r) :
    takeResponse bytes s = .next { s with resp := bytes, phase := s.req.afterResponse } := by
  unfold takeResponse; rw [h]

end

/-! ### What a step fetches, phase by phase -/

section

variable {run : Run} {s : State}

/-- In IDLE the sequencer fetches from the port. -/
theorem fetch_idle (h : s.phase = .idle) :
    fetch run s = match s.env.port with
      | [] => .next s
      | r :: rest => fetchRequest run r { s with env := { s.env with port := rest } } := by
  unfold fetch
  split
  · rfl
  all_goals next hp => rw [h] at hp; exact Phase.noConfusion hp

theorem fetch_frame (h : s.phase = .frame) :
    fetch run s = crcCall .crc7 s fun s => run s.frameItem s := by
  unfold fetch; rw [h]

theorem fetch_scan {k : Nat} (h : s.phase = .rspScan k) :
    fetch run s = fetchScan run k s := by
  unfold fetch; rw [h]

theorem fetch_rest {r : Nat} (h : s.phase = .rspRest r) :
    fetch run s = fetchRest run r s := by
  unfold fetch; rw [h]

theorem fetch_status (h : s.phase = .status) :
    fetch run s = statusCheck s := by
  unfold fetch; rw [h]

theorem fetch_ready {p : Nat} (h : s.phase = .wReady p) :
    fetch run s = fetchWait run p (.wReady (p - 1)) s := by
  unfold fetch; rw [h]

theorem fetch_token (h : s.phase = .wToken) :
    fetch run s = run (if s.req.flags.multi then .tokStartMultiWr else .tokStartSingle) s := by
  unfold fetch; rw [h]

theorem fetch_data_first {j : Nat} (h : s.phase = .wData j 0) :
    fetch run s = run (s.loadBlock j).heldBlock (s.loadBlock j) := by
  unfold fetch; rw [h]

theorem fetch_data_next {j i : Nat} (h : s.phase = .wData j (i + 1)) :
    fetch run s = run s.heldBlock s := by
  unfold fetch; rw [h]

theorem fetch_crcHigh {j : Nat} (h : s.phase = .wCrc j false) :
    fetch run s = crcCall .crc16 s fun s => run s.heldBlock s := by
  unfold fetch; rw [h]

theorem fetch_crcLow {j : Nat} (h : s.phase = .wCrc j true) :
    fetch run s = run s.heldBlock s := by
  unfold fetch; rw [h]

theorem fetch_dresp {j : Nat} (h : s.phase = .wDresp j) :
    fetch run s = pull s fun b s => received .dataResp [b] run s := by
  unfold fetch; rw [h]

theorem fetch_stop (h : s.phase = .wStop) :
    fetch run s = run .tokStop s := by
  unfold fetch; rw [h]

theorem fetch_busy {p : Nat} (h : s.phase = .wBusy p) :
    fetch run s = fetchWait run p (.wBusy (p - 1)) s := by
  unfold fetch; rw [h]

theorem fetch_poll {j p : Nat} (h : s.phase = .rPoll j p) :
    fetch run s = fetchPoll run j p s := by
  unfold fetch; rw [h]

theorem fetch_payload {j i : Nat} (h : s.phase = .rData j i) :
    fetch run s = pull s fun b s => .next { s with
        bx := { s.bx with held := s.bx.held ++ [b] },
        phase := if i + 1 < s.req.blockLength then .rData j (i + 1) else .rCrc j false } := by
  unfold fetch; rw [h]

theorem fetch_readHigh {j : Nat} (h : s.phase = .rCrc j false) :
    fetch run s = pull s fun b s => .next { s with bx := { s.bx with crcHi := b }, phase := .rCrc j true } := by
  unfold fetch; rw [h]

theorem fetch_readLow {j : Nat} (h : s.phase = .rCrc j true) :
    fetch run s = pull s fun b s => received .dataBlock (s.bx.held ++ [s.bx.crcHi, b]) run s := by
  unfold fetch; rw [h]

theorem fetch_done (h : s.phase = .done) :
    fetch run s = .next s.finish := by
  unfold fetch; rw [h]

/-- With the reset signal low a step is what the sequencer fetches, run by `exec`. -/
theorem step_fetch (h : s.env.resetLine = false) : step s = fetch exec s := by
  simp [step, stepWith, h]

theorem steps_zero : steps 0 s = .next s := rfl

/-- Runs compose. -/
theorem steps_add {m n : Nat} {t : State} (h : steps m s = .next t) : steps (m + n) s = steps n t := by
  induction m generalizing s with
  | zero =>
    injection h with h
    rw [h, Nat.zero_add]
  | succ m ih =>
    rw [Nat.add_right_comm, steps]
    rw [steps] at h
    rcases hs : step s with u | r | r
    · rw [hs] at h
      exact ih h
    · simp [hs] at h
    · simp [hs] at h

theorem steps_succ {n : Nat} {t : State} (h : step s = .next t) : steps (n + 1) s = steps n t := by
  rw [steps, h]

end

/-! ### The inversion -/

theorem Env.Moved.refl (e : Env) : e.Moved e := ⟨rfl, rfl, rfl⟩

theorem received_ensures {P : State → Prop} {f : WireFormat} {bytes : List Byte} {run : Run} {s : State}
    (h : ∀ i, decodeWire f bytes = .ok i → Ensures P (run i s)) : Ensures P (received f bytes run s) := by
  unfold received
  split
  · exact h _ ‹_›
  · trivial

/-- A failure before any exchange is a case of the inversion. -/
theorem WireStep.failNow {s : State} {f : OpOutcome} {e : Env} (he : s.env.Moved e) (hf : s.failsWith f) :
    WireStep s (State.fail f { s with env := e }) := by
  simpa using WireStep.fails f e [] he hf (Or.inl rfl)

/-- A pull whose error is a case of the inversion. -/
theorem pull_wire {s : State} {k : Byte → State → Out}
    (hok : ∀ b e, s.env.Moved e →
      Ensures (WireStep s) (k b { s with env := e, trace := s.trace ++ [(Config.idleByte, b)] })) :
    Ensures (WireStep s) (pull s k) :=
  pull_ensures (fun _ _ _ => WireStep.failNow ⟨rfl, rfl, rfl⟩ rfl) (fun _ _ _ => hok _ _ ⟨rfl, rfl, rfl⟩)

/-- A push, made after the block was loaded, whose error is a case of the inversion. -/
theorem push_wire {s : State} {x : Byte} {bx : BlockXfer} {env : Env} {k : State → Out}
    (henv : env.port = s.env.port ∧ env.resetLine = s.env.resetLine ∧ env.credit = s.env.credit)
    (hok : ∀ b e, s.env.Moved e →
      Ensures (WireStep s) (k { s with bx := bx, env := e, trace := s.trace ++ [(x, b)] }))
    (hr : ∀ j, s.phase ≠ .rCrc j true ∧ s.phase ≠ .rCrc j false) (hd : ∀ j i, s.phase ≠ .rData j i) :
    Ensures (WireStep s) (push x { s with bx := bx, env := env } k) := by
  refine push_ensures (fun c sl d => ?_) (fun b sl d => hok b _ henv)
  have h := WireStep.failNow (s := s) (f := .collaboratorError .transfer s.phase c)
    (e := { env with slave := sl, draws := d }) henv rfl
  have he : State.fail (.collaboratorError .transfer s.phase c)
      { s with bx := bx, env := { env with slave := sl, draws := d } } =
      State.fail (.collaboratorError .transfer s.phase c) { s with env := { env with slave := sl, draws := d } } := by
    unfold State.fail State.spoilRead State.endOperation
    split
    · exact absurd ‹_› (hd _ _)
    · next low h => cases low <;> exact absurd h (by first | exact (hr _).1 | exact (hr _).2)
    · rfl
  exact he ▸ h

/-- A call of a CRC primitive whose error is a case of the inversion. -/
theorem crcCall_wire {s : State} {c : Collab} {k : State → Out}
    (hok : ∀ e, s.env.Moved e → Ensures (WireStep s) (k { s with env := e })) :
    Ensures (WireStep s) (crcCall c s k) :=
  crcCall_ensures (fun _ _ => WireStep.failNow ⟨rfl, rfl, rfl⟩ rfl) (fun _ => hok _ ⟨rfl, rfl, rfl⟩)

theorem fetchWait_wire {s : State} {p : Nat} {again : Phase}
    (hzero : p = 0 → s.failsWith .blockTimeout)
    (hok : ∀ b e, s.env.Moved e → 0 < p →
      (b = Config.idleByte →
        Ensures (WireStep s) (exec .idle { s with env := e, trace := s.trace ++ [(Config.idleByte, b)] })) ∧
      (b ≠ Config.idleByte →
        WireStep s { s with env := e, trace := s.trace ++ [(Config.idleByte, b)], phase := again })) :
    Ensures (WireStep s) (fetchWait exec p again s) := by
  unfold fetchWait
  split_ifs with h
  · exact WireStep.failNow (Env.Moved.refl _) (hzero h)
  · refine pull_wire fun b e he => ?_
    obtain ⟨h1, h2⟩ := hok b e he (Nat.pos_of_ne_zero h)
    split_ifs with hb
    · refine received_ensures fun i hi => ?_
      simp only [decodeWire, decodeFixed, if_pos hb, Except.ok.injEq] at hi
      exact hi ▸ h1 hb
    · exact h2 hb

/-- What a step in a phase other than IDLE can do (R186). -/
theorem fetch_wire {s : State} (hw : s.phase ≠ .idle) : Ensures (WireStep s) (fetch exec s) := by
  unfold fetch
  rcases hph : s.phase with
    _ | _ | k | r | _ | p | _ | ⟨j, i⟩ | ⟨j, low⟩ | j | _ | p | ⟨j, p⟩ | ⟨j, i⟩ | ⟨j, low⟩ | _
  · exact absurd hph hw
  all_goals simp only
  · -- FRAME
    refine crcCall_wire fun e he => ?_
    simp only [State.frameItem, exec, execCmdFrame_frame (s := { s with env := e }) hph]
    refine xferN_ensures (fun c sl d => WireStep.failNow ⟨he.1, he.2.1, he.2.2⟩ rfl) fun bs sl d hl => ?_
    · exact WireStep.frame _ bs ⟨he.1, he.2.1, he.2.2⟩ hph hl
  · -- RSP_SCAN
    unfold fetchScan
    split_ifs with h1
    · exact WireStep.failNow (Env.Moved.refl _) ⟨k, hph, h1⟩
    · refine pull_wire fun b e he => ?_
      simp only
      split_ifs with h2
      · refine received_ensures fun i hi => ?_
        simp only [decodeWire, decodeFixed, if_pos h2, Except.ok.injEq] at hi
        subst hi h2
        simp only [exec]
        rw [execIdle_scan (s := { s with env := e, trace := _ }) hph]
        exact WireStep.scanIdle k e he hph (by omega)
      · have := WireStep.scanMarker k e b he hph (by omega) h2
        split
        · next hs =>
          refine received_ensures fun i hi => ?_
          simp only [decodeWire, decodeMarked, if_neg h2, Except.ok.injEq] at hi
          subst hi
          simp only [exec]
          rw [execRspR1_scan (s := { s with env := e, trace := _ }) hph]
          simpa [hs] using this
        · next hs => exact (if_neg hs : _ = Phase.rspRest _) ▸ this
  · -- RSP_REST
    unfold fetchRest
    refine pull_wire fun b e he => ?_
    have hstep := WireStep.rest r e b he hph
    simp only
    split_ifs with h1
    · refine received_ensures fun i hi => ?_
      rw [if_pos h1] at hstep
      have key : Ensures (WireStep s) (takeResponse (s.resp ++ [b])
          { s with env := e, trace := s.trace ++ [(Config.idleByte, b)] }) := by
        rw [takeResponse_rest (s := { s with env := e, trace := _ }) hph]
        exact hstep
      unfold restFormat at hi
      split at hi <;> simp only [decodeWire] at hi <;> split at hi
      · next hm =>
        simp only [decodeMarked] at hi
        split_ifs at hi
        injection hi with hi
        subst hi
        rw [hm] at key
        exact key
      · simp at hi
      · next hm =>
        simp only [decodeMarked] at hi
        split_ifs at hi
        injection hi with hi
        subst hi
        rw [hm] at key
        exact key
      · simp at hi
    · simpa [h1] using hstep
  · -- STATUS
    unfold statusCheck
    split
    · next hop =>
      split_ifs with hf
      · exact WireStep.failNow (Env.Moved.refl _) ⟨hph, hop, rfl, hf⟩
      · exact WireStep.status hph fun _ => by simpa using hf
    · next hop => exact WireStep.status hph fun h => absurd h hop
  · -- W_READY
    refine fetchWait_wire (fun h => Or.inl (h ▸ hph)) fun b e he hp => ?_
    have := WireStep.ready p e b he hph hp
    refine ⟨fun hb => ?_, fun hb => by simpa [hb] using this⟩
    simpa [exec, execIdle, hph, hb, State.goto] using this
  · -- W_TOKEN
    have key : ∀ x : Byte, Ensures (WireStep s) (push x s fun s => .next (s.goto (.wData 0 0))) := fun x =>
      push_wire (bx := s.bx) (env := s.env) ⟨rfl, rfl, rfl⟩ (fun b e he => WireStep.token e x b he hph)
        (by simp [hph]) (by simp [hph])
    split_ifs
    · simpa only [exec, execTokStartMultiWr_token hph] using key _
    · simpa only [exec, execTokStartSingle_token hph] using key _
  · -- W_DATA
    cases i with
    | zero =>
      simp only [State.heldBlock, exec]
      rw [execDataBlock_data (s := s.loadBlock j) hph]
      exact push_wire (env := s.env) ⟨rfl, rfl, rfl⟩ (fun b e he => WireStep.data j 0 _ e _ b he hph rfl)
        (by simp [hph]) (by simp [hph])
    | succ i =>
      simp only [State.heldBlock, exec, execDataBlock_data hph]
      exact push_wire (bx := s.bx) (env := s.env) ⟨rfl, rfl, rfl⟩
        (fun b e he => WireStep.data j (i + 1) s.bx.held e _ b he hph rfl) (by simp [hph]) (by simp [hph])
  · -- W_CRC
    cases low with
    | false =>
      refine crcCall_wire fun e he => ?_
      simp only [State.heldBlock, exec]
      rw [execDataBlock_crcHigh (s := { s with env := e }) hph]
      exact push_wire (bx := s.bx) (env := e) he
        (fun b e' he' => WireStep.crc j false e' _ b he' hph) (by simp [hph]) (by simp [hph])
    | true =>
      simp only [State.heldBlock, exec, execDataBlock_crcLow hph]
      exact push_wire (bx := s.bx) (env := s.env) ⟨rfl, rfl, rfl⟩
        (fun b e he => WireStep.crc j true e _ b he hph) (by simp [hph]) (by simp [hph])
  · -- W_DRESP
    refine pull_wire fun b e he => ?_
    refine received_ensures fun i hi => ?_
    simp only [decodeWire, Except.ok.injEq] at hi
    subst hi
    simp only [exec]
    rw [execDataResp_dresp (s := { s with env := e, trace := _ }) hph]
    split_ifs with h1
    · exact commitSendUnits_ensures fun hlt => WireStep.accepted j e b he hph h1 hlt
    · exact WireStep.fails .crcMismatch e _ he (Or.inl ⟨j, hph⟩) (Or.inr ⟨b, rfl, Or.inl ⟨j, hph⟩⟩)
  · -- W_STOP
    simp only [exec, execTokStop_stop hph]
    exact push_wire (bx := s.bx) (env := s.env) ⟨rfl, rfl, rfl⟩ (fun b e he => WireStep.stop e b he hph)
      (by simp [hph]) (by simp [hph])
  · -- W_BUSY
    refine fetchWait_wire (fun h => Or.inr (Or.inl (h ▸ hph))) fun b e he hp => ?_
    have := WireStep.busy p e b he hph hp
    refine ⟨fun hb => ?_, fun hb => by simpa [hb] using this⟩
    simpa [exec, execIdle, hph, hb, State.goto] using this
  · -- R_POLL
    unfold fetchPoll
    split_ifs with h1
    · exact WireStep.failNow (Env.Moved.refl _) (Or.inr (Or.inr ⟨j, h1 ▸ hph⟩))
    · refine pull_wire fun b e he => ?_
      split_ifs with h2 h3
      · refine received_ensures fun i hi => ?_
        simp only [decodeWire, decodeFixed, if_pos h2, Except.ok.injEq] at hi
        subst hi h2
        simp only [exec]
        rw [execTokStartSingle_poll (s := { s with env := e, trace := _ }) hph]
        exact WireStep.start j p e he hph (Nat.pos_of_ne_zero h1)
      · have := WireStep.poll j p e b he hph (Nat.pos_of_ne_zero h1) h2
        refine received_ensures fun i hi => ?_
        simp only [decodeWire, decodeFixed, if_pos h3, Except.ok.injEq] at hi
        subst hi
        simp only [exec]
        rw [execIdle_poll (s := { s with env := e, trace := _ }) hph]
        exact this
      · exact WireStep.poll j p e b he hph (Nat.pos_of_ne_zero h1) h2
  · -- R_DATA
    exact pull_wire fun b e he => WireStep.payload j i e b he hph
  · -- R_CRC
    cases low with
    | false => exact pull_wire fun b e he => WireStep.crcHigh j e b he hph
    | true =>
      refine pull_wire fun b e he => ?_
      refine received_ensures fun i hi => ?_
      have hcrc : ∀ e', s.env.Moved e' → ∀ f, s.failsWith f → WireStep s (State.fail f
          { s with env := e', trace := s.trace ++ [(Config.idleByte, b)] }) := fun e' he' f hf =>
        WireStep.fails f e' _ he' hf (Or.inr ⟨b, rfl, Or.inr ⟨j, hph⟩⟩)
      simp only [decodeWire, decodeBlock] at hi
      split_ifs at hi with hc
      injection hi with hi
      have hpay : (s.bx.held ++ [s.bx.crcHi, b]).take ((s.bx.held ++ [s.bx.crcHi, b]).length - 2) = s.bx.held := by
        simp
      have hword : (s.bx.held ++ [s.bx.crcHi, b]).getD ((s.bx.held ++ [s.bx.crcHi, b]).length - 2) 0 ++
          (s.bx.held ++ [s.bx.crcHi, b]).getD ((s.bx.held ++ [s.bx.crcHi, b]).length - 1) 0 = s.bx.crcHi ++ b := by
        simp
      rw [hpay, hword] at hi
      subst hi
      simp only [exec]
      rw [execDataBlock_received (s := { s with env := e, trace := _ }) hph]
      refine crcCall_ensures (fun c rest => hcrc { e with crcErrs := rest } he
        (.collaboratorError .crc16 s.phase c) rfl) fun es => ?_
      split_ifs with h1
      · exact commitRecvBytes_ensures fun hlt => WireStep.matched j _ b ⟨he.1, he.2.1, he.2.2⟩ hph h1 hlt
      · exact hcrc { e with crcErrs := es } he .crcMismatch (Or.inr ⟨j, hph⟩)
  · -- DONE
    exact WireStep.done hph

/-- What a step in a phase other than IDLE can do. -/
theorem step_wire {s t : State} (hw : s.phase ≠ .idle) (h : step s = .next t) : WireStep s t := by
  unfold step stepWith at h
  split_ifs at h
  exact ensures_iff.1 (fetch_wire hw) t h

/-! ### The acceptance of a request -/

/-- What an accepted request makes of the flow-control state (R153 to R156); every other request leaves it. -/
def fcAfter (i : Instr) (s : State) (fc : FlowControl) : Prop :=
  match i with
  | .commitSend n => s.fc.txSentBuffers + s.fc.units n < 2 ^ s.params.cntW ∧
      fc = { s.fc with txSentBuffers := s.fc.txSentBuffers + s.fc.units n }
  | .commitRecv n => s.fc.rxGotBytes + n < 2 ^ s.params.cntW ∧
      fc = { s.fc with rxGotBytes := s.fc.rxGotBytes + n }
  | .fcReset => fc = { s.fc with txSentBuffers := 0, rxGotBytes := 0 }
  | .config bs bk => 1 ≤ bs ∧ 1 ≤ bk ∧ bk ≤ Config.blockSizeMax ∧
      fc = { s.fc with bufferSize := bs, blockSize := bk, configured := true }
  | _ => fc = s.fc

/-- The inputs after a request is run: the port, the reset signal and the slave's answers are as before. -/
def Env.Asked (e e' : Env) : Prop :=
  e'.port = e.port ∧ e'.resetLine = e.resetLine ∧ e'.slave = e.slave

/-- Whether a failure is one that a request can meet before its first wire byte (R202, R206, R207, R209). -/
def OpOutcome.early : OpOutcome → Bool
  | .invalidCommand => true
  | .blockTooLarge => true
  | .insufficientCredit => true
  | .collaboratorError _ _ _ => true
  | _ => false

/-- A request in IDLE is refused, or accepted and on its way. -/
inductive RequestStep (i : Instr) (s : State) : State → Prop
  | refused (f : OpOutcome) (e : Env) : s.env.Asked e → f.early = true →
      RequestStep i s (State.fail f { s with env := e })
  | accepted (r : Request) (bx : BlockXfer) (p : Phase) (fc : FlowControl) (e : Env) : s.env.Asked e → p ≠ .idle →
      fcAfter i s fc → RequestStep i s { s with req := r, bx := bx, phase := p, fc := fc, env := e }

/-- Discarding the latched request, a failure in IDLE is the same whether or not it was latched. -/
theorem State.fail_latch {f : OpOutcome} {s : State} {r : Request} (h : s.phase = .idle) :
    (s.latch r).fail f = s.fail f := by
  have hl : (s.latch r).phase = .idle := h
  unfold State.fail State.spoilRead
  rw [h, hl]
  rfl

theorem fail_request {i : Instr} {s : State} {f : OpOutcome} {r : Request} {e : Env} (h : s.phase = .idle)
    (he : s.env.Asked e) (hf : f.early = true) :
    RequestStep i s (State.fail f { s with req := r, env := e }) :=
  State.fail_latch (s := { s with env := e }) (r := r) h ▸ RequestStep.refused f e he hf

theorem xferAdmit_request {i : Instr} {s : State} {r : Request} {k : Nat → State → Out} (h : s.phase = .idle)
    (hok : ∀ e, s.env.Asked e → Ensures (RequestStep i s) (k r.nblocks { s with req := r, env := e })) :
    Ensures (RequestStep i s) (xferAdmit (s.latch r) k) := by
  have hf : ∀ f : OpOutcome, f.early = true → Ensures (RequestStep i s) (raise f (s.latch r)) := fun f hf =>
    fail_request (r := r) (e := s.env) h ⟨rfl, rfl, rfl⟩ hf
  unfold xferAdmit
  split_ifs
  · exact hf _ rfl
  · exact hf _ rfl
  · exact hf _ rfl
  · exact hf _ rfl
  · refine availCredit_ensures (fun _ _ => fail_request h ⟨rfl, rfl, rfl⟩ rfl) fun a cs d => ?_
    simp only
    split
    · exact fail_request (e := { s.env with credit := cs, draws := d }) h ⟨rfl, rfl, rfl⟩ rfl
    · exact hok { s.env with credit := cs, draws := d } ⟨rfl, rfl, rfl⟩

theorem reserve_request {i : Instr} {s : State} {r : Request} {need : Nat} (h : s.phase = .idle)
    (hi : ∀ fc, fcAfter i s fc ↔ fc = s.fc) : Ensures (RequestStep i s) (reserve r need s) := by
  unfold reserve
  rw [atIdle_idle h]
  split_ifs
  · exact fail_request (e := s.env) h ⟨rfl, rfl, rfl⟩ rfl
  · refine availCredit_ensures (fun _ _ => fail_request h ⟨rfl, rfl, rfl⟩ rfl) fun a cs d => ?_
    simp only
    split
    · exact fail_request (e := { s.env with credit := cs, draws := d }) h ⟨rfl, rfl, rfl⟩ rfl
    · exact RequestStep.accepted r s.bx .done s.fc { s.env with credit := cs, draws := d } ⟨rfl, rfl, rfl⟩
        Phase.noConfusion ((hi _).2 rfl)

theorem startXfer_request {i : Instr} {s : State} {write multi : Bool} {x : XferArgs} (h : s.phase = .idle)
    (hi : ∀ fc, fcAfter i s fc ↔ fc = s.fc) : Ensures (RequestStep i s) (startXfer write multi x s) := by
  unfold startXfer
  rw [atIdle_idle h]
  refine xferAdmit_request h fun e he => RequestStep.accepted _ _ _ s.fc e he ?_ ((hi _).2 rfl)
  unfold Request.dataStart
  split <;> exact Phase.noConfusion

/-- What the acceptance of a request can do. -/
theorem exec_request {i : Instr} {s : State} (hi : isRequest i = true) (h : s.phase = .idle) :
    Ensures (RequestStep i s) (exec i s) := by
  have stay : s.env.Asked s.env := ⟨rfl, rfl, rfl⟩
  have go : ∀ (r : Request) (p : Phase) (fc : FlowControl), p ≠ .idle → fcAfter i s fc →
      RequestStep i s { s with req := r, phase := p, fc := fc } := fun r p fc hp hfc =>
    RequestStep.accepted r s.bx p fc s.env stay hp hfc
  have no : ∀ r, RequestStep i s ((s.latch r).fail .invalidCommand) := fun r =>
    fail_request (e := s.env) h stay rfl
  cases i with
  | encode index arg =>
    simp only [exec, execEncode, atIdle_idle h]
    split_ifs
    · exact no _
    · refine crcCall_ensures (fun _ _ => fail_request h ⟨rfl, rfl, rfl⟩ rfl) fun es => ?_
      exact RequestStep.accepted _ s.bx .done s.fc { s.env with crcErrs := es } ⟨rfl, rfl, rfl⟩ Phase.noConfusion rfl
  | decodeNone => simp only [exec, execDecodeNone, atIdle_idle h]; exact go _ _ _ Phase.noConfusion rfl
  | decodeR1 => simp only [exec, execDecodeR1, startDecode, atIdle_idle h]; exact go _ _ _ Phase.noConfusion rfl
  | decodeR4 => simp only [exec, execDecodeR4, startDecode, atIdle_idle h]; exact go _ _ _ Phase.noConfusion rfl
  | decodeR5 => simp only [exec, execDecodeR5, startDecode, atIdle_idle h]; exact go _ _ _ Phase.noConfusion rfl
  | xferWrSingle x => exact startXfer_request h fun _ => Iff.rfl
  | xferWrMulti x => exact startXfer_request h fun _ => Iff.rfl
  | xferRdSingle x => exact startXfer_request h fun _ => Iff.rfl
  | xferRdMulti x => exact startXfer_request h fun _ => Iff.rfl
  | execute d =>
    simp only [exec, execExecute, atIdle_idle h]
    split_ifs
    · exact no _
    · exact xferAdmit_request h fun e he => RequestStep.accepted _ _ .frame s.fc e he Phase.noConfusion rfl
    · exact go _ _ _ Phase.noConfusion rfl
  | reserveSend n => exact reserve_request h fun _ => Iff.rfl
  | reserveRecv n => exact reserve_request h fun _ => Iff.rfl
  | commitSend n =>
    simp only [exec, execCommitSend, atIdle_idle h]
    split_ifs
    · exact no _
    · exact commitSendUnits_ensures fun hlt => go _ _ _ Phase.noConfusion ⟨hlt, rfl⟩
  | commitRecv n =>
    simp only [exec, execCommitRecv, atIdle_idle h]
    split_ifs
    · exact no _
    · exact commitRecvBytes_ensures fun hlt => go _ _ _ Phase.noConfusion ⟨hlt, rfl⟩
  | fcReset => simp only [exec, execFcReset, atIdle_idle h]; exact go _ _ _ Phase.noConfusion rfl
  | config bs bk =>
    simp only [exec, execConfig, atIdle_idle h]
    split_ifs with hc
    · exact no _
    · exact go _ _ _ Phase.noConfusion ⟨by omega, by omega, by omega, rfl⟩
  | reservedAB b =>
    simp only [exec, execReservedAB, atIdle_idle h]; exact RequestStep.refused _ s.env stay rfl
  | reservedCF b =>
    simp only [exec, execReservedCF, atIdle_idle h]; exact RequestStep.refused _ s.env stay rfl
  | cmdFrame _ _ _ => simp [isRequest, encode] at hi
  | idle => simp [isRequest, encode] at hi
  | tokStartSingle => simp [isRequest, encode] at hi
  | tokStartMultiWr => simp [isRequest, encode] at hi
  | tokStop => simp [isRequest, encode] at hi
  | dataBlock _ _ => simp [isRequest, encode] at hi
  | dataResp _ => simp [isRequest, encode] at hi
  | rspR1 _ => simp [isRequest, encode] at hi
  | rspR4 _ _ _ _ _ => simp [isRequest, encode] at hi
  | rspR5 _ _ => simp [isRequest, encode] at hi

/-- The decoder of requests gives requests. -/
theorem decodeRequest_isRequest {r : PortRequest} {i : Instr} (h : decodeRequest r = .ok i) : isRequest i = true := by
  unfold decodeRequest at h
  split_ifs at h
  injection h with h
  subst h
  unfold decodeOp
  split <;> (try split) <;> rfl

/-- What a step in IDLE with the reset signal low can do: wait, refuse a request, or accept one. -/
theorem step_idle {s t : State} (hp : s.phase = .idle) (hr : s.env.resetLine = false) (h : step s = .next t) :
    (s.env.port = [] ∧ t = s) ∨
      ∃ r rest, s.env.port = r :: rest ∧
        ((∃ f, f.early = true ∧ t = State.fail f { s with env := { s.env with port := rest } }) ∨
          ∃ i, decodeRequest r = .ok i ∧ RequestStep i { s with env := { s.env with port := rest } } t) := by
  unfold step stepWith at h
  rw [hr] at h
  simp only [Bool.false_eq_true, if_false] at h
  rw [fetch_idle hp] at h
  split at h
  · next hport =>
    injection h with h
    exact Or.inl ⟨hport, h.symm⟩
  · next r rest hport =>
    refine Or.inr ⟨r, rest, hport, ?_⟩
    unfold fetchRequest at h
    split at h
    · injection h with h
      exact Or.inl ⟨_, rfl, h.symm⟩
    · next i hi =>
      split_ifs at h
      refine Or.inr ⟨i, hi, ensures_iff.1 (exec_request (decodeRequest_isRequest hi) ?_) t h⟩
      exact hp

end Sys2Proof.Machine
end

