-- ==== Sys2Proof/Tests/Slice0.lean ====
section
/-! SUPPORT. The model's own tests: ill-formed terms that the check refuses, one word per instruction written out from
the spec's encodings, one or two single steps per instruction with the values of spec 95, and for every statement with
hypotheses a witness that meets them. -/

namespace Sys2Proof.Tests

open Sys2Proof Sys2Proof.Machine

/-! ### Well-formedness: one ill-formed term for each check -/

def wide : XferArgs := { buf := some 0, dataLen := 1, blockLength := 1, timeout := 1 }

def desc : Descriptor :=
  { index := 52, arg := 0, sel := .r5, flags := Flags.clear, buf := none, dataLen := 0, blockLength := 0, timeout := 8 }

theorem test_wf_accepts :
    (Instr.encode 255 0).wf Params.default = true ∧ (Instr.execute desc).wf Params.default = true ∧
      (Instr.xferRdMulti wide).wf Params.default = true ∧ (Instr.config 65535 65535).wf Params.default = true ∧
      (Instr.dataBlock [0] 0).wf Params.default = true ∧ (Instr.rspR1 0xFE).wf Params.default = true := by decide

theorem test_wf_refuses_encode_index : (Instr.encode 256 0).wf Params.default = false := by decide
theorem test_wf_refuses_data_len :
    (Instr.xferWrSingle { wide with dataLen := 4294967296 }).wf Params.default = false := by decide
theorem test_wf_refuses_block_length :
    (Instr.xferWrMulti { wide with blockLength := 4294967296 }).wf Params.default = false := by decide
theorem test_wf_refuses_timeout :
    (Instr.xferRdSingle { wide with timeout := 4294967296 }).wf Params.default = false := by decide
theorem test_wf_refuses_xfer_rd_multi :
    (Instr.xferRdMulti { wide with dataLen := 4294967296 }).wf Params.default = false := by decide
theorem test_wf_refuses_execute_index :
    (Instr.execute { desc with index := 256 }).wf Params.default = false := by decide
theorem test_wf_refuses_execute_lengths :
    (Instr.execute { desc with dataLen := 4294967296 }).wf Params.default = false ∧
      (Instr.execute { desc with blockLength := 4294967296 }).wf Params.default = false ∧
      (Instr.execute { desc with timeout := 4294967296 }).wf Params.default = false := by decide
theorem test_wf_refuses_n_bytes :
    (Instr.reserveSend 4294967296).wf Params.default = false ∧
      (Instr.reserveRecv 4294967296).wf Params.default = false ∧
      (Instr.commitSend 4294967296).wf Params.default = false ∧
      (Instr.commitRecv 4294967296).wf Params.default = false := by decide
theorem test_wf_refuses_sizes :
    (Instr.config 65536 1).wf Params.default = false ∧ (Instr.config 1 65536).wf Params.default = false := by decide
theorem test_wf_refuses_empty_block : (Instr.dataBlock [] 0).wf Params.default = false := by decide
theorem test_wf_refuses_long_block :
    (Instr.dataBlock (List.replicate 513 0) 0).wf Params.default = false := by decide +kernel
theorem test_wf_refuses_idle_marker :
    (Instr.rspR1 0xFF).wf Params.default = false ∧ (Instr.rspR4 0xFF 0 0 0 0).wf Params.default = false ∧
      (Instr.rspR5 0xFF 0).wf Params.default = false := by decide

/-- R10: IDX_IN_W is more than 6, and SIZE_W holds 2048. -/
theorem test_legal_widths :
    Params.default.legal ∧ ¬{ Params.default with idxInW := 6 }.legal ∧ ¬{ Params.default with sizeW := 11 }.legal ∧
      { Params.default with idxInW := 7, sizeW := 12 }.legal := by decide

/-! ### Decoding: words written out from R71 to R82 and R90 (`ctl` is 0 | flags | sel | op) -/

/-- What a request decodes to. -/
def asked (r : PortRequest) : Option Instr := (decodeRequest r).toOption

/-- What wire bytes decode to. -/
def heard (f : WireFormat) (bytes : List Byte) : Option Instr := (decodeWire f bytes).toOption

/-- A request with some operands, so that an operand read from the wrong field shows. -/
def operands (ctl : BitVec 16) : PortRequest :=
  { ctl := ctl, index := 1, arg := 2, buf := some 3, dataLen := 4, blockLength := 5, timeout := 6, nBytes := 7,
    cfgBufferSize := 8, cfgBlockSize := 9 }

def operandsXfer : XferArgs := { buf := some 3, dataLen := 4, blockLength := 5, timeout := 6 }

theorem test_decode_encode : asked (operands 0b000000_0000_00_0000) = some (.encode 1 2) := by decide
theorem test_decode_decode_none : asked (operands 0b000000_0000_00_0001) = some .decodeNone := by decide
theorem test_decode_decode_r1 : asked (operands 0b000000_0000_01_0001) = some .decodeR1 := by decide
theorem test_decode_decode_r4 : asked (operands 0b000000_0000_10_0001) = some .decodeR4 := by decide
theorem test_decode_decode_r5 : asked (operands 0b000000_0000_11_0001) = some .decodeR5 := by decide
theorem test_decode_wr_single :
    asked (operands 0b000000_0010_00_0010) = some (.xferWrSingle operandsXfer) := by decide
theorem test_decode_wr_multi : asked (operands 0b000000_0110_00_0010) = some (.xferWrMulti operandsXfer) := by decide
theorem test_decode_rd_single :
    asked (operands 0b000000_1001_11_0010) = some (.xferRdSingle operandsXfer) := by decide
theorem test_decode_rd_multi : asked (operands 0b000000_0100_00_0010) = some (.xferRdMulti operandsXfer) := by decide
theorem test_decode_execute :
    asked (operands 0b000000_0111_01_0011) = some (.execute
      { index := 1, arg := 2, sel := .r1, flags := { data := true, write := true, multi := true, noresp := false },
        buf := some 3, dataLen := 4, blockLength := 5, timeout := 6 }) := by decide
theorem test_decode_execute_noresp :
    asked (operands 0b000000_1000_00_0011) = some (.execute
      { index := 1, arg := 2, sel := .none, flags := { data := false, write := false, multi := false, noresp := true },
        buf := some 3, dataLen := 4, blockLength := 5, timeout := 6 }) := by decide
/-- V114 to V116: fields an operation does not read are ignored, whatever they hold. -/
theorem test_decode_ignored_fields :
    asked (operands 0x03F0) = some (.encode 1 2) ∧ asked (operands 0x0271) = some .decodeR5 ∧
      asked (operands 0x02F2) = some (.xferWrSingle operandsXfer) ∧ asked (operands 0x03F8) = some .fcReset := by decide
theorem test_decode_reserve_send : asked (operands 0b000000_0000_00_0100) = some (.reserveSend 7) := by decide
theorem test_decode_reserve_recv : asked (operands 0b000000_0000_00_0101) = some (.reserveRecv 7) := by decide
theorem test_decode_commit_send : asked (operands 0b000000_0000_00_0110) = some (.commitSend 7) := by decide
theorem test_decode_commit_recv : asked (operands 0b000000_0000_00_0111) = some (.commitRecv 7) := by decide
theorem test_decode_fc_reset : asked (operands 0b000000_0000_00_1000) = some .fcReset := by decide
theorem test_decode_config : asked (operands 0b000000_0000_00_1001) = some (.config 8 9) := by decide
theorem test_decode_reserved_ab :
    asked (operands 0b000000_0000_00_1010) = some (.reservedAB 0) ∧
      asked (operands 0b000000_0000_00_1011) = some (.reservedAB 1) := by decide
theorem test_decode_reserved_cf :
    asked (operands 0b000000_0000_00_1100) = some (.reservedCF 0) ∧
      asked (operands 0b000000_0000_00_1111) = some (.reservedCF 3) := by decide
theorem test_decode_reserved_bits :
    asked (operands 0b000001_0000_00_0000) = none ∧ asked (operands 0b100000_0000_00_1001) = none := by decide
/-- V5: index 24, argument 0x12345678, CRC 0x33. -/
theorem test_decode_cmd_frame :
    heard .cmdFrame [0b01_011000, 0x12, 0x34, 0x56, 0x78, 0b0110011_1] = some (.cmdFrame 24 0x12345678 0x33) := by
  decide
theorem test_decode_cmd_frame_fixed_bits :
    heard .cmdFrame [0b11_011000, 0, 0, 0, 0, 1] = none ∧ heard .cmdFrame [0b00_011000, 0, 0, 0, 0, 1] = none ∧
      heard .cmdFrame [0b01_011000, 0, 0, 0, 0, 0] = none := by decide
theorem test_decode_idle : heard .idle [0b11111111] = some .idle ∧ heard .idle [0b01111111] = none := by decide
theorem test_decode_tok_start_single :
    heard .tokStartSingle [0b11111110] = some .tokStartSingle ∧ heard .tokStartSingle [0b11111100] = none := by decide
theorem test_decode_tok_start_multi_wr : heard .tokStartMultiWr [0b11111100] = some .tokStartMultiWr := by decide
theorem test_decode_tok_stop : heard .tokStop [0b11111101] = some .tokStop := by decide
/-- The block of R127's example: payload 11 22, CRC 0x3462. -/
theorem test_decode_data_block :
    heard .dataBlock [0x11, 0x22, 0x34, 0x62] = some (.dataBlock [0x11, 0x22] 0x3462) ∧
      heard .dataBlock [0x34, 0x62] = none := by decide
theorem test_decode_data_resp : heard .dataResp [0b111_0_010_1] = some (.dataResp 0xE5) := by decide
theorem test_decode_rsp_r1 : heard .rspR1 [0b10000001] = some (.rspR1 0x81) ∧ heard .rspR1 [0xFF] = none := by decide
theorem test_decode_rsp_r4 :
    heard .rspR4 [0x00, 0x10, 0xFF, 0x80, 0x01] = some (.rspR4 0x00 0x10 0xFF 0x80 0x01) := by decide
theorem test_decode_rsp_r5 : heard .rspR5 [0x5A, 0xFF] = some (.rspR5 0x5A 0xFF) := by decide

/-! ### The default parameters: check values of spec 95 section 2.0, and R78 -/

theorem test_crc7_check : standardCrc7 [0x31, 0x32, 0x33, 0x34, 0x35, 0x36, 0x37, 0x38, 0x39] = 0x75 := by decide +kernel
theorem test_crc16_check : standardCrc16 [0x31, 0x32, 0x33, 0x34, 0x35, 0x36, 0x37, 0x38, 0x39] = 0x31C3 := by decide +kernel
theorem test_default_acceptance :
    drespAccepted Params.default 0x05 = true ∧ drespAccepted Params.default 0xE5 = true ∧
      drespAccepted Params.default 0x0B = false ∧ drespAccepted Params.default 0x0D = false ∧
      drespAccepted Params.default 0xFF = false := by decide
theorem test_default_fatal_mask :
    fatalMask Params.default 0 = 0xFE ∧ fatalMask Params.default 63 = 0xFE := by decide

/-! ### Small states -/

/-- Configured with `S = (4, 512, 0, 0, 1)` and send and receive credit 100, as the vectors of spec 95 section 2.3. -/
def base : State :=
  { State.reset with
    fc := { bufferSize := 4, blockSize := 512, txSentBuffers := 0, rxGotBytes := 0, configured := true }
    env := { Env.quiet with credit := [.count 100] } }

/-- The slave's coming answers. -/
def sends (bytes : List Byte) (s : State) : State :=
  { s with env := { s.env with slave := bytes.map WireAnswer.byte } }

/-- A multi-block transfer of two blocks of two bytes, lent at address 100, in the given phase. -/
def moving (write : Bool) (done : Nat) (held : List Byte) (p : Phase) : State :=
  { base with
    req := Request.ofXfer write true { buf := some 100, dataLen := 4, blockLength := 2, timeout := 3 }
    bx := { nblocks := 2, doneBytes := done, held := held, crcHi := 0x34 }
    mem := [(100, 0x11), (101, 0x22), (102, 0x33), (103, 0x44)]
    phase := p }

/-- A running DECODE of the given selector. -/
def decoding (sel : Sel) (resp : List Byte) (p : Phase) : State :=
  { base with req := Request.ofDecode sel, resp := resp, phase := p }

/-- A running EXECUTE of R4's or another selector, index 52, no data. -/
def executing (sel : Sel) (resp : List Byte) (p : Phase) : State :=
  { base with req := Request.ofDescriptor { desc with sel := sel }, resp := resp, phase := p }

/-- Whether the outcome is a next state with the property. -/
def lands (o : Out) (p : State → Bool) : Bool :=
  match o with
  | .next t => p t
  | .fault _ => false
  | .refused _ => false

/-- Whether the outcome is the fault. -/
def faults (o : Out) (f : Fault) : Bool :=
  match o with
  | .next _ => false
  | .fault g => f == g
  | .refused _ => false

/-- Whether the outcome is the end of the operation with the given outcome. -/
def ends (o : Out) (r : OpOutcome) : Bool :=
  lands o fun t => t.phase == .idle && t.results == Results.only r

/-! ### One step of each instruction -/

/-- V8. -/
theorem test_encode_64 : ends (exec (.encode 64 0) base) .invalidCommand = true := by decide
/-- V4: the frame of index 52, argument 0. -/
theorem test_encode_52 :
    lands (step { base with req := Request.ofEncode 52 0, phase := .done })
      (fun t => t.results.frame == some [0x74, 0, 0, 0, 0, 0xD1]) = true := by decide +kernel
/-- V19a. -/
theorem test_decode_none : lands (exec .decodeNone base) (fun t => t.phase == .done) = true := by decide
theorem test_decode_r1_opens_window :
    lands (exec .decodeR1 base) (fun t => t.phase == .rspScan 0 && t.req.sel == .r1) = true := by decide
theorem test_decode_r4_opens_window :
    lands (exec .decodeR4 base) (fun t => t.phase == .rspScan 0 && t.req.sel == .r4) = true := by decide
theorem test_decode_r5_opens_window :
    lands (exec .decodeR5 base) (fun t => t.phase == .rspScan 0 && t.req.sel == .r5) = true := by decide
/-- V70: 513 bytes. -/
theorem test_wr_single_513 :
    ends (exec (.xferWrSingle { buf := some 0, dataLen := 513, blockLength := 513, timeout := 8 }) base)
      .blockTooLarge = true := by decide
/-- A1 comes before A2. -/
theorem test_wr_single_null :
    ends (exec (.xferWrSingle { buf := none, dataLen := 513, blockLength := 513, timeout := 8 }) base)
      .invalidCommand = true := by decide
/-- R126 A5: 3 blocks of 5 bytes need 3 * 2 units of 4, which 5 do not cover. -/
theorem test_wr_multi_reserves_per_block :
    ends (exec (.xferWrMulti { buf := some 0, dataLen := 15, blockLength := 5, timeout := 8 })
      { base with env := { base.env with credit := [.count 5] } }) .insufficientCredit = true := by decide
theorem test_wr_multi_admitted :
    lands (exec (.xferWrMulti { buf := some 0, dataLen := 15, blockLength := 5, timeout := 8 })
      { base with env := { base.env with credit := [.count 6] } })
      (fun t => t.phase == .wReady 8 && t.bx.nblocks == 3) = true := by decide
/-- A3: a single-block transfer of two blocks. -/
theorem test_rd_single_two_blocks :
    ends (exec (.xferRdSingle { buf := some 0, dataLen := 4, blockLength := 2, timeout := 8 }) base)
      .invalidCommand = true := by decide
theorem test_rd_multi_admitted :
    lands (exec (.xferRdMulti { buf := some 0, dataLen := 4, blockLength := 2, timeout := 8 }) base)
      (fun t => t.phase == .rPoll 0 8 && t.bx.nblocks == 2) = true := by decide
/-- A3: five bytes in blocks of two. -/
theorem test_rd_multi_ragged :
    ends (exec (.xferRdMulti { buf := some 0, dataLen := 5, blockLength := 2, timeout := 8 }) base)
      .invalidCommand = true := by decide
/-- R210's example: index 64 comes before the size of the block. -/
theorem test_execute_index_first :
    ends (exec (.execute { desc with
      index := 64, flags := { Flags.clear with data := true }, buf := some 0, dataLen := 600, blockLength := 600 }) base) .invalidCommand = true := by decide
/-- V2: `noresp` disagrees with the selector. -/
theorem test_execute_noresp : ends (exec (.execute { desc with sel := .none }) base) .invalidCommand = true := by decide
/-- R151's example. -/
theorem test_reserve_send_513 :
    ends (exec (.reserveSend 513) { base with
      fc := { base.fc with bufferSize := 512 }, env := { base.env with credit := [.count 1] } })
      .insufficientCredit = true := by decide
theorem test_reserve_send_before_config :
    ends (exec (.reserveSend 0) State.reset) .invalidCommand = true := by decide
/-- R152's example. -/
theorem test_reserve_recv_1024 :
    ends (exec (.reserveRecv 1024) { base with env := { base.env with credit := [.count 1000] } })
      .insufficientCredit = true := by decide
theorem test_reserve_recv_equal :
    lands (exec (.reserveRecv 100) base) (fun t => t.phase == .done) = true := by decide
/-- R153's example. -/
theorem test_commit_send_600 :
    lands (exec (.commitSend 600) { base with fc := { base.fc with bufferSize := 512, txSentBuffers := 7 } })
      (fun t => t.fc.txSentBuffers == 9) = true := by decide
theorem test_commit_send_overflow :
    faults (exec (.commitSend 1) { base with fc := { base.fc with txSentBuffers := 4294967295 } })
      .counterOverflow = true := by decide
/-- R154's example. -/
theorem test_commit_recv_512 :
    lands (exec (.commitRecv 512) { base with fc := { base.fc with rxGotBytes := 100 } })
      (fun t => t.fc.rxGotBytes == 612) = true := by decide
theorem test_commit_recv_overflow :
    faults (exec (.commitRecv 2) { base with fc := { base.fc with rxGotBytes := 4294967294 } })
      .counterOverflow = true := by decide
/-- R155's example, before CONFIG. -/
theorem test_fc_reset :
    lands (exec .fcReset { State.reset with fc := { FlowControl.reset with txSentBuffers := 9, rxGotBytes := 612 } })
      (fun t => t.fc == FlowControl.reset) = true := by decide
/-- R156's example. -/
theorem test_config_512 :
    lands (exec (.config 512 512) State.reset) (fun t => t.fc ==
      { bufferSize := 512, blockSize := 512, txSentBuffers := 0, rxGotBytes := 0, configured := true }) = true := by
  decide
theorem test_config_2049 : ends (exec (.config 512 2049) State.reset) .invalidCommand = true := by decide
theorem test_reserved_ab : ends (exec (.reservedAB 1) base) .invalidCommand = true := by decide
theorem test_reserved_cf : ends (exec (.reservedCF 3) base) .invalidCommand = true := by decide
/-- R165's example: the frame of index 52 goes out in order. -/
theorem test_cmd_frame :
    lands (step (sends [1, 2, 3, 4, 5, 6] (executing .r5 [] .frame))) (fun t =>
      t.trace == [(0x74, 1), (0, 2), (0, 3), (0, 4), (0, 5), (0xD1, 6)] && t.phase == .rspScan 0) = true := by decide +kernel
theorem test_idle_scan :
    lands (step (sends [0xFF] (decoding .r1 [] (.rspScan 6)))) (fun t => t.phase == .rspScan 7) = true := by decide
theorem test_idle_ready :
    lands (step (sends [0xFF] (moving true 0 [] (.wReady 1)))) (fun t => t.phase == .wToken) = true := by decide
theorem test_tok_start_single_received :
    lands (step (sends [0xFE] (moving false 2 [7] (.rPoll 1 1))))
      (fun t => t.phase == .rData 1 0 && t.bx.held == []) = true := by decide
/-- R128: 0xFC once, before block 0. -/
theorem test_tok_start_multi_wr :
    lands (step (sends [0] (moving true 0 [] .wToken)))
      (fun t => t.trace == [(0xFC, 0)] && t.phase == .wData 0 0) = true := by decide
theorem test_tok_stop :
    lands (step (sends [0] (moving true 4 [] .wStop)))
      (fun t => t.trace == [(0xFD, 0)] && t.phase == .wBusy 3) = true := by decide
/-- R129's example block 11 22 34 62, here block 1 of a read. -/
theorem test_data_block_matches :
    lands (step (sends [0x62] (moving false 2 [0x11, 0x22] (.rCrc 1 true)))) (fun t =>
      t.mem == [(100, 0x11), (101, 0x22), (102, 0x11), (103, 0x22)] && t.fc.rxGotBytes == 2 && t.phase == .done) =
      true := by decide +kernel
/-- The CRC high byte of block 1, whose payload is 33 44 (R130's example: 58 86). -/
theorem test_data_block_crc_high :
    lands (step (sends [0] (moving true 2 [0x33, 0x44] (.wCrc 1 false))))
      (fun t => t.trace == [(0x58, 0)] && t.phase == .wCrc 1 true) = true := by decide +kernel
theorem test_data_resp_accepted :
    lands (step (sends [0xE5] (moving true 0 [] (.wDresp 0))))
      (fun t => t.fc.txSentBuffers == 1 && t.phase == .wData 1 0) = true := by decide
theorem test_data_resp_rejected :
    lands (step (sends [0x0B] (moving true 0 [] (.wDresp 0))))
      (fun t => t.results == Results.only .crcMismatch && t.fc.txSentBuffers == 0) = true := by decide
/-- V14: a marker with the high bit set. -/
theorem test_rsp_r1 :
    lands (step (sends [0x80] (decoding .r1 [] (.rspScan 7)))) (fun t => t.resp == [0x80] && t.phase == .status) =
      true := by decide
/-- V16: 0xFF in the payload is data. -/
theorem test_rsp_r4 :
    lands (step (sends [0xFF] (decoding .r4 [0x20, 0xFF, 0xFF, 0xFF] (.rspRest 1))))
      (fun t => t.resp == [0x20, 0xFF, 0xFF, 0xFF, 0xFF] && t.phase == .done) = true := by decide
/-- V19. -/
theorem test_rsp_r5 :
    lands (step (sends [0xFF] (decoding .r5 [0x00] (.rspRest 1)))) (fun t => t.resp == [0x00, 0xFF] && t.phase == .done) =
      true := by decide
/-- R170: idle alone is not fatal, any other flag is; the whole byte is carried. -/
theorem test_status_check :
    ends (step (executing .r1 [0x05] .status)) (.statusError 0x05) = true ∧
      lands (step (executing .r1 [0x01] .status)) (fun t => t.phase == .done) = true := by decide
/-- V12: a DECODE never fails on a status bit. -/
theorem test_decode_status :
    lands (step (decoding .r1 [0x05] .done)) (fun t => t.results.status == some
      { idle := true, eraseReset := false, illegalCommand := true, crcError := false, eraseSequenceError := false,
        addressError := false, parameterError := false, noResponse := false }) = true := by decide

/-! ### The fetch of a table word -/

theorem test_fetch_word_config :
    lands (step (State.reset.withFetchWord 16 0x0008)) (fun t => t.phase == .done && t.req.op == .fcReset) = true := by
  decide
theorem test_fetch_word_token :
    lands (step (State.reset.withFetchWord 8 0xFE)) (fun t => t.phase == .wData 0 0) = true := by decide

/-! ### Witnesses: states and operands that meet the hypotheses of a statement, clause by clause -/

/-- `base` with CORE asked by a request. -/
def asking (r : PortRequest) : State := { base with env := { base.env with port := [r] } }

/-- `base` with the reset signal asserted. -/
def resetting (p : Phase) : State := { base with phase := p, env := { base.env with resetLine := true } }

theorem witness_HardwareReset :
    ((resetting .idle).env.resetLine = true ∧ (resetting .idle).phase = .idle) ∧
      ((resetting .done).env.resetLine = true ∧ (resetting .done).phase ≠ .idle) := by decide

theorem base_ready : base.ready := ⟨rfl, rfl⟩

theorem default_legal : Params.default.legal := by decide

theorem empty_wf : Memory.wf [] := ⟨List.Pairwise.nil, fun _ h => absurd h List.not_mem_nil⟩

/-- At rest, configured, with nothing in memory, the invariant holds whatever waits outside. -/
theorem base_inv (e : Env) : State.Inv { base with env := e } :=
  ⟨default_legal, empty_wf, fun _ => ⟨(by decide : 1 ≤ 4), (by decide : 1 ≤ 512), (by decide : 512 ≤ 2048)⟩,
    (by decide : 0 < 2 ^ 32), (by decide : 0 < 2 ^ 32), rfl, rfl, rfl⟩

theorem witness_StepRunsRequest :
    (base.ready ∧ base.env.port = []) ∧
      ((asking (operands 0x0004)).ready ∧ (asking (operands 0x0004)).env.port = [operands 0x0004] ∧
        decodeRequest (operands 0x0004) = .ok (.reserveSend 7) ∧ (Instr.reserveSend 7).wf base.params = true) ∧
      (let r := { operands 0x0004 with nBytes := 4294967296 }
       (asking r).ready ∧ decodeRequest r = .ok (.reserveSend 4294967296) ∧
        (Instr.reserveSend 4294967296).wf base.params = false) :=
  ⟨⟨base_ready, rfl⟩, ⟨⟨rfl, rfl⟩, rfl, rfl, by decide⟩, ⟨rfl, rfl⟩, rfl, by decide⟩

theorem witness_StepRunsWireItem_sent :
    base.env.resetLine = false ∧ (executing .r5 [] .frame).phase = .frame ∧ (executing .r5 [] .frame).crcSound ∧
      (moving true 0 [] .wToken).phase = .wToken ∧ (moving true 0 [] (.wData 0 0)).phase = .wData 0 0 ∧
      (moving true 0 [0x11, 0x22] (.wData 0 1)).phase = .wData 0 (0 + 1) ∧
      (moving true 0 [0x11, 0x22] (.wCrc 0 false)).phase = .wCrc 0 false ∧
      (moving true 4 [] .wStop).phase = .wStop := ⟨rfl, rfl, rfl, rfl, rfl, rfl, rfl, rfl⟩

theorem witness_StepRunsWireItem_received :
    (sends [0xFF] base).env.slave = .byte 0xFF :: [] ∧
      ((decoding .r1 [] (.rspScan 7)).phase = .rspScan 7 ∧ 7 < (decoding .r1 [] (.rspScan 7)).req.scanBound) ∧
      ((0x20 : Byte) ≠ Config.idleByte ∧ (decoding .r4 [0x20, 1, 2, 3] (.rspRest 1)).req.sel = .r4 ∧
        (decoding .r4 [0x20, 1, 2, 3] (.rspRest 1)).resp = [0x20, 1, 2, 3] ∧
        (decoding .r5 [0x20] (.rspRest 1)).req.sel = .r5 ∧ (decoding .r5 [0x20] (.rspRest 1)).resp = [0x20]) ∧
      (decoding .r4 [0x20] (.rspRest 4)).phase = .rspRest (2 + 2) ∧
      (moving true 0 [] (.wReady 1)).phase = .wReady (0 + 1) ∧ (moving true 4 [] (.wBusy 1)).phase = .wBusy (0 + 1) ∧
      (moving true 0 [] (.wDresp 0)).phase = .wDresp 0 ∧ (moving false 0 [] (.rPoll 1 1)).phase = .rPoll 1 (0 + 1) ∧
      (moving false 0 [0x11] (.rData 0 1)).phase = .rData 0 1 ∧
      (moving false 0 [0x11, 0x22] (.rCrc 0 false)).phase = .rCrc 0 false ∧
      (1 ≤ (moving false 0 [0x11, 0x22] (.rCrc 0 true)).bx.held.length ∧
        (moving false 0 [0x11, 0x22] (.rCrc 0 true)).bx.held.length ≤ Config.maxBlock) := by decide

theorem witness_DecodeEncodeAgree :
    (Instr.dataBlock (List.replicate 512 0xFF) 0x7FA1).wf Params.default = true ∧
      (Instr.rspR4 0xFE 0 0 0 0).wf Params.default = true := by decide +kernel

theorem witness_ReservedRequestsRefused :
    (asking (operands 0x0400)).ready ∧ (asking (operands 0x0400)).env.port = operands 0x0400 :: [] ∧
      (operands 0x0400).ctl.extractLsb' 10 6 ≠ 0 ∧ 10 ≤ ((operands 0x000A).ctl.extractLsb' 0 4).toNat :=
  ⟨⟨rfl, rfl⟩, rfl, by decide, by decide⟩

theorem witness_RequestsWaitOutsideIdle :
    (moving true 4 [] .wStop).phase ≠ .idle ∧ isRequest .fcReset = true ∧
      lands (step (sends [0] (moving true 4 [] .wStop))) (fun _ => true) = true := by decide

theorem witness_RequestFrame :
    isRequest (.commitSend 5) = true ∧ lands (exec (.commitSend 5) base) (fun t => t.fc.txSentBuffers == 2) = true ∧
      lands (exec (.commitRecv 5) base) (fun t => t.fc.rxGotBytes == 5) = true ∧
      lands (exec .fcReset base) (fun _ => true) = true ∧ lands (exec (.config 1 2048) base) (fun _ => true) = true ∧
      lands (exec .decodeR1 base) (fun _ => true) = true := by decide

theorem witness_WireItemFrame :
    isRequest .tokStop = false ∧
      lands (exec (.cmdFrame 0 0 0) (sends [1, 2, 3, 4, 5, 6] (executing .r5 [] .frame))) (fun _ => true) = true ∧
      lands (exec .tokStartSingle (sends [0] (moving true 0 [] .wToken))) (fun _ => true) = true ∧
      lands (exec .tokStartMultiWr (sends [0] (moving true 0 [] .wToken))) (fun _ => true) = true ∧
      lands (exec .tokStop (sends [0] (moving true 4 [] .wStop))) (fun _ => true) = true ∧
      lands (exec (.dataBlock [1, 2] 3) (sends [0] (moving true 0 [1, 2] (.wData 0 1)))) (fun _ => true) = true ∧
      lands (exec (.dataResp 5) (moving true 0 [] (.wDresp 1))) (fun _ => true) = true ∧
      lands (exec .idle (moving true 0 [] (.wReady 1))) (fun _ => true) = true := by decide

/-- The trace clauses: a token and a block received, and a sent item of each kind whose transfer call fails. -/
theorem witness_WireItemFrame_trace :
    (let failing := fun s : State => { s with env := { s.env with slave := [.error 6] } }
     lands (exec .tokStartSingle (moving false 0 [] (.rPoll 0 1))) (fun t => t.trace == []) = true ∧
      lands (exec (.dataBlock [0x11, 0x23] 0) (moving false 0 [0x11, 0x23] (.rCrc 0 true))) (fun t => t.trace == []) = true ∧
      lands (exec (.cmdFrame 0 0 0) (sends [1, 2, 3, 4, 5, 6] (executing .r5 [] .frame)))
        (fun t => t.trace.length == 6) = true ∧
      ends (exec (.cmdFrame 0 0 0) (failing (executing .r5 [] .frame))) (.collaboratorError .transfer .frame 6) = true ∧
      ends (exec .tokStartSingle (failing (moving true 0 [] .wToken))) (.collaboratorError .transfer .wToken 6) = true ∧
      ends (exec .tokStop (failing (moving true 4 [] .wStop))) (.collaboratorError .transfer .wStop 6) = true ∧
      ends (exec (.dataBlock [1, 2] 3) (failing (moving true 0 [1, 2] (.wData 0 1))))
        (.collaboratorError .transfer (.wData 0 1) 6) = true) := by decide +kernel

/-- The memory clauses: a block stored at 100 and 101, one whose CRC is wrong, and a byte of a write. -/
theorem witness_WireItemFrame_memory :
    (let s := moving false 0 [0x11, 0x23] (.rCrc 0 true)
     s.phase = .rCrc 0 true ∧ Memory.wf s.mem ∧
      lands (exec (.dataBlock [0x11, 0x23] 0x2443) s) (fun t => t.phase != .idle && memRead t.mem 102 == 0x33) = true ∧
      s.req.blockAddr 0 + 2 ≤ 102 ∧
      lands (exec (.dataBlock [0x11, 0x23] 0) s) (fun t => t.phase == .idle) = true ∧
      s.req.blockAddr 0 + (s.req.dataLen - 0 * s.req.blockLength) ≤ 104) ∧
      (moving true 0 [1, 2] (.wData 0 1)).phase ≠ .rCrc 0 true := by decide +kernel

/-! The invariant, in a state of each direction. -/

theorem moving_wf : Memory.wf (moving true 0 [] .wToken).mem := by decide

theorem moving_admitted (write : Bool) (done : Nat) (held : List Byte) (p : Phase) :
    (moving write done held p).admitted :=
  ⟨rfl, Option.some_ne_none _, (by decide : 1 ≤ 2), (by decide : 2 ≤ 512), (by decide : 1 ≤ 2), rfl,
    fun h => Bool.noConfusion h, Or.inl rfl⟩

theorem moving_inv {write : Bool} {done : Nat} {held : List Byte} {p : Phase}
    (h : (moving write done held p).phaseInv) : (moving write done held p).Inv :=
  ⟨default_legal, moving_wf, fun _ => ⟨(by decide : 1 ≤ 4), (by decide : 1 ≤ 512), (by decide : 512 ≤ 2048)⟩,
    (by decide : 0 < 2 ^ 32), (by decide : 0 < 2 ^ 32), h⟩

theorem reading_start_inv (p : Nat) (h : p ≤ 3) : (moving false 0 [] (.rPoll 0 p)).Inv :=
  moving_inv ⟨⟨moving_admitted _ _ _ _, rfl, rfl, rfl⟩, (by decide : 0 < 2), h⟩

theorem writing_start_inv (p : Nat) (h : p ≤ 3) : (moving true 0 [] (.wReady p)).Inv :=
  moving_inv ⟨⟨moving_admitted _ _ _ _, rfl, rfl, rfl⟩, h⟩

/-- The payload 11 23 with its CRC changes address 101. -/
def changing : State :=
  { sends [0x43] (moving false 0 [0x11, 0x23] (.rCrc 0 true)) with
    bx := { nblocks := 2, doneBytes := 0, held := [0x11, 0x23], crcHi := 0x24 } }

theorem witness_StoresStayInBuffer :
    changing.Inv ∧ lands (step changing) (fun t => memRead t.mem 101 != memRead changing.mem 101) = true :=
  ⟨⟨default_legal, moving_wf, fun _ => ⟨by decide, by decide, by decide⟩, by decide, by decide,
    ⟨moving_admitted false 0 [0x11, 0x23] (.rCrc 0 true), rfl, rfl, rfl⟩, by decide, rfl⟩, by decide +kernel⟩

/-! The frame codec and the decoder. -/

theorem witness_EncodeBuildsFrame :
    base.ready ∧ (operands 0x03F0).asks 0x0 ∧ 63 < 64 ∧ 63 ≤ 63 ∧ base.crcAnswers base ∧
      (let s := { base with env := { base.env with crcErrs := [none] } }
       s.ready ∧ s.crcAnswers base) ∧
      (let s := { base with env := { base.env with crcErrs := [some 7] } }
       s.ready ∧ s.env.crcErrs = some 7 :: []) :=
  ⟨base_ready, ⟨rfl, rfl⟩, by decide, le_refl _, Or.inl ⟨rfl, rfl⟩, ⟨⟨rfl, rfl⟩, Or.inr ⟨[], rfl, rfl⟩⟩, ⟨rfl, rfl⟩, rfl⟩

theorem witness_FrameHasLayout : 0 ≤ 63 ∧ 63 ≤ 63 := by decide

theorem witness_FrameRoundTrip : 0 ≤ 63 ∧ 63 ≤ 63 := by decide

theorem witness_ScanFindsMarker :
    (let s := sends [0xFF, 0xFF, 0xFF, 0xFF, 0xFF, 0xFF, 0xFF, 0xFE] (decoding .r1 [] (.rspScan 0))
     s.env.resetLine = false ∧ s.phase = .rspScan 0 ∧ s.req.op = .decode ∧ 7 < 8 ∧ (0xFE : Byte) ≠ Config.idleByte ∧
      s.slaveSends (List.replicate 7 Config.idleByte ++ [0xFE]) []) ∧
      (let s := sends (List.replicate 8 0xFF) (decoding .r1 [] (.rspScan 0))
       s.env.resetLine = false ∧ s.phase = .rspScan 0 ∧
        s.slaveSends (List.replicate 8 Config.idleByte) []) ∧
      (let s := { executing .r5 [] (.rspScan 0) with req := Request.ofDescriptor { desc with timeout := 0 } }
       s.phase = .rspScan 0 ∧ s.req.op = .execute ∧ 0 = min 8 s.req.timeout ∧
        s.slaveSends (List.replicate 0 Config.idleByte) []) :=
  ⟨⟨rfl, rfl, rfl, by decide, by decide, rfl⟩, ⟨rfl, rfl, rfl⟩, rfl, rfl, rfl, rfl⟩

theorem witness_DecodeNone : base.ready ∧ base.Inv ∧ (operands 0x03C1).asks 0x1 ∧ (operands 0x03C1).sel = 0 :=
  ⟨base_ready, base_inv _, ⟨rfl, rfl⟩, rfl⟩

theorem witness_DecodeR1 :
    ((operands 0x03D1).asks 0x1 ∧ (operands 0x03D1).sel = 1) ∧ (sends (List.replicate 7 0xFF ++ [0x05]) base).ready ∧ 7 ≤ 7 ∧
      (0x05 : Byte) ≠ Config.idleByte ∧
      (sends (List.replicate 7 0xFF ++ [0x05]) base).slaveSends (List.replicate 7 Config.idleByte ++ [0x05]) [] ∧
      (sends (List.replicate 8 0xFF) base).slaveSends (List.replicate 8 Config.idleByte) [] :=
  ⟨⟨⟨rfl, rfl⟩, rfl⟩, ⟨rfl, rfl⟩, le_refl _, by decide, rfl, rfl⟩

theorem witness_DecodeR5 :
    ((operands 0x0271).asks 0x1 ∧ (operands 0x0271).sel = 3) ∧ (sends [0x00, 0xFF] base).ready ∧ 0 ≤ 7 ∧ (0x00 : Byte) ≠ Config.idleByte ∧
      (sends [0x00, 0xFF] base).slaveSends (List.replicate 0 Config.idleByte ++ [0x00, 0xFF]) [] ∧
      (sends (List.replicate 8 0xFF) base).slaveSends (List.replicate 8 Config.idleByte) [] :=
  ⟨⟨⟨rfl, rfl⟩, rfl⟩, ⟨rfl, rfl⟩, by decide, by decide, rfl, rfl⟩

theorem witness_DecodeR4 :
    ((operands 0x0021).asks 0x1 ∧ (operands 0x0021).sel = 2) ∧ (sends [0xFF, 0x00, 0x10, 0xFF, 0x80, 0x00] base).ready ∧ 1 ≤ 7 ∧ (0x00 : Byte) ≠ Config.idleByte ∧
      ([0x10, 0xFF, 0x80, 0x00] : List Byte).length = 4 ∧
      (sends [0xFF, 0x00, 0x10, 0xFF, 0x80, 0x00] base).slaveSends
        (List.replicate 1 Config.idleByte ++ 0x00 :: [0x10, 0xFF, 0x80, 0x00]) [] ∧
      (sends (List.replicate 8 0xFF) base).slaveSends (List.replicate 8 Config.idleByte) [] :=
  ⟨⟨⟨rfl, rfl⟩, rfl⟩, ⟨rfl, rfl⟩, by decide, by decide, rfl, rfl, rfl⟩

theorem witness_StatusFlags :
    (decoding .r1 [0x81] .done).env.resetLine = false ∧ (decoding .r1 [0x81] .done).phase = .done ∧
      (decoding .r1 [0x81] .done).req.op = .decode ∧ (decoding .r1 [0x81] .done).req.sel = .r1 ∧
      (executing .r5 [1, 2] .done).req.op = .execute ∧ (executing .r5 [1, 2] .done).req.sel ≠ .r1 := by decide

theorem witness_ResponsesTaken :
    (decoding .r1 [] (.rspScan 3)).phase = .rspScan 3 ∧ (decoding .r4 [1] (.rspRest 1)).phase = .rspRest 1 := by decide

/-! The wire items of a data phase. -/

theorem witness_CmdFrameSent :
    let s := sends [1, 2, 3, 4, 5, 6] (executing .r5 [] .frame)
    s.phase = .frame ∧ ([1, 2, 3, 4, 5, 6] : List Byte).length = 6 ∧ s.slaveSends [1, 2, 3, 4, 5, 6] [] ∧
      s.env.resetLine = false ∧ s.crcSound ∧ s.req.index ≤ 63 := ⟨rfl, rfl, rfl, rfl, rfl, by decide⟩

theorem witness_IdleReceived :
    (decoding .r1 [] (.rspScan 0)).phase = .rspScan 0 ∧ (moving true 0 [] (.wReady 1)).phase = .wReady 1 ∧
      (moving true 4 [] (.wBusy 1)).phase = .wBusy 1 ∧ (moving false 0 [] (.rPoll 0 1)).phase = .rPoll 0 (0 + 1) := by
  decide

theorem witness_TokensSent :
    (sends [0] (moving true 0 [] .wToken)).env.slave = .byte 0 :: [] ∧
      (sends [0] (moving true 0 [] .wToken)).phase = .wToken ∧ (sends [0] (moving true 4 [] .wStop)).phase = .wStop ∧
      (sends [0] (moving false 0 [] (.rPoll 0 3))).phase = .rPoll 0 3 := by decide

theorem witness_WaitsEnd :
    (let bs : List Byte := [0x00, 0xFE]
     let s := sends [0x00, 0xFE, 0xFF] (moving true 0 [] (.wReady 3))
     s.env.resetLine = false ∧ bs.length < 3 ∧ (∀ b ∈ bs, b ≠ Config.idleByte) ∧
      s.slaveSends (bs ++ [Config.idleByte]) [] ∧ s.phase = .wReady 3) ∧
      (sends [0x00, 0xFE, 0xFF] (moving true 4 [] (.wBusy 3))).phase = .wBusy 3 ∧
      (let bs : List Byte := [0x00, 0xFF]
       let s := sends [0x00, 0xFF, 0xFE] (moving false 2 [] (.rPoll 1 3))
       (∀ b ∈ bs, b ≠ Config.tokStartSingleByte) ∧ s.slaveSends (bs ++ [Config.tokStartSingleByte]) [] ∧
        s.phase = .rPoll 1 3) :=
  ⟨⟨rfl, by decide, by decide, rfl, rfl⟩, rfl, by decide, rfl, rfl⟩

theorem witness_WaitsTimeOut :
    (let s := sends [0x00, 0xFE] (moving true 0 [] (.wReady 2))
     s.env.resetLine = false ∧ s.slaveSends [0x00, 0xFE] [] ∧ (∀ b ∈ ([0x00, 0xFE] : List Byte), b ≠ Config.idleByte) ∧
      s.phase = .wReady ([0x00, 0xFE] : List Byte).length) ∧
      (moving true 4 [] (.wBusy 0)).phase = .wBusy ([] : List Byte).length ∧
      ((∀ b ∈ ([0xFF] : List Byte), b ≠ Config.tokStartSingleByte) ∧
        (moving false 0 [] (.rPoll 1 1)).phase = .rPoll 1 ([0xFF] : List Byte).length) :=
  ⟨⟨rfl, rfl, by decide, rfl⟩, rfl, by decide, rfl⟩

theorem witness_DataBytesSent :
    (sends [0] (moving true 0 [1, 2] (.wData 0 1))).env.slave = .byte 0 :: [] ∧
      (sends [0] (moving true 0 [1, 2] (.wData 0 1))).phase = .wData 0 1 ∧ ([1, 2] : List Byte)[1]? = some 2 ∧
      (sends [0] (moving true 0 [1, 2] (.wCrc 0 false))).phase = .wCrc 0 false ∧
      (sends [0] (moving true 0 [1, 2] (.wCrc 0 true))).phase = .wCrc 0 true := by decide

theorem witness_DataBlockReceived :
    let s := moving false 0 [0x11, 0x22] (.rCrc 0 true)
    Memory.wf s.mem ∧ s.phase = .rCrc 0 true ∧ s.crcSound ∧ 0x3462 = crc16 s.params [0x11, 0x22] ∧
      s.fc.rxGotBytes + s.req.blockLength < 2 ^ s.params.cntW ∧ 0x3463 ≠ crc16 s.params [0x11, 0x22] :=
  ⟨moving_wf, rfl, rfl, by decide +kernel, by decide, by decide +kernel⟩

theorem witness_BlockRead :
    let s := sends [0x11, 0x22, 0x34, 0x62] (moving false 0 [] (.rData 0 0))
    s.env.resetLine = false ∧ s.phase = .rData 0 0 ∧ s.Inv ∧ s.crcSound ∧
      ([0x11, 0x22] : List Byte).length = s.req.blockLength ∧ s.slaveSends ([0x11, 0x22] ++ [0x34, 0x62]) [] ∧
      (0x34 : Byte) ++ (0x62 : Byte) = crc16 s.params [0x11, 0x22] ∧
      s.fc.rxGotBytes + s.req.blockLength < 2 ^ s.params.cntW ∧
      (0x34 : Byte) ++ (0x63 : Byte) ≠ crc16 s.params [0x11, 0x22] :=
  ⟨rfl, rfl, ⟨default_legal, moving_wf, fun _ => ⟨by decide, by decide, by decide⟩, by decide, by decide,
    ⟨moving_admitted false 0 [] (.rData 0 0), rfl, rfl, rfl⟩, by decide, by decide, rfl⟩, rfl, rfl, rfl, by decide +kernel, by decide,
    by decide +kernel⟩

theorem witness_DataResponseTaken :
    let s := moving true 0 [] (.wDresp 0)
    s.phase = .wDresp 0 ∧ drespAccepted s.params 0xE5 = true ∧
      s.fc.txSentBuffers + s.fc.units s.req.blockLength < 2 ^ s.params.cntW ∧
      drespAccepted s.params 0x0B = false := by decide

/-! The block transfer engine. -/

theorem wide_blocks : ({ buf := some 0, dataLen := 1024, blockLength := 512, timeout := 1 } : XferArgs).blocks true 2 :=
  ⟨Option.some_ne_none _, by decide, by decide, by decide, rfl, fun h => Bool.noConfusion h⟩

theorem base_credit : base.creditIs 100 [] := ⟨rfl, by decide⟩

theorem witness_XferRefused :
    (operands 0x02F2).asks 0x2 ∧ base.phase = .idle ∧ base.creditIs 100 [] ∧ 100 < base.fc.need true 1 401 ∧ 100 < base.fc.need false 1 101 ∧
      ({ base with env := { base.env with credit := [.error 9] } } : State).env.credit = .error 9 :: [] :=
  ⟨⟨rfl, rfl⟩, rfl, base_credit, by decide, by decide, rfl⟩

theorem witness_XferAdmitted :
    let x : XferArgs := { buf := some 0, dataLen := 1, blockLength := 1, timeout := 1 }
    base.phase = .idle ∧ x.blocks false 1 ∧ base.fc.configured = true ∧ base.creditIs 100 [] ∧
      base.fc.need true 1 1 ≤ 100 ∧ base.fc.need false 1 1 ≤ 100 :=
  ⟨rfl, ⟨Option.some_ne_none _, by decide, by decide, by decide, rfl, fun _ => rfl⟩, rfl, base_credit, by decide,
    by decide⟩

/-- A consistent descriptor of a write of one block. -/
def writing (bl : Nat) : Descriptor :=
  { desc with
    sel := .r1, flags := { data := true, write := true, multi := false, noresp := false }, buf := some 0
    dataLen := bl, blockLength := bl }

theorem writing_consistent (bl : Nat) : (writing bl).consistent := ⟨(by decide : 52 ≤ 63), rfl, fun h => Bool.noConfusion h⟩

theorem writing_blocks (bl : Nat) (h1 : 1 ≤ bl) (h2 : bl ≤ 512) :
    (writing bl).xferArgs.blocks (writing bl).flags.multi 1 :=
  ⟨Option.some_ne_none _, h1, h2, by decide, (Nat.one_mul bl).symm, fun _ => rfl⟩

theorem witness_BlockTooLarge :
    base.phase = .idle ∧ (writing 513).buf ≠ none ∧ (writing 513).blockLength ≠ 0 ∧ (writing 513).consistent ∧
      (writing 513).flags.data = true ∧ 512 < (writing 513).blockLength ∧
      (writing 512).blockLength ≤ 512 ∧ (writing 512).dataLen ≤ 512 ∧
      lands (exec (.execute (writing 512)) { base with env := { base.env with credit := [.count 128] } })
        (fun t => t.phase == .frame) = true :=
  ⟨rfl, Option.some_ne_none _, by decide, writing_consistent _, rfl, by decide, by decide, by decide, by decide⟩

theorem witness_InsufficientCredit :
    base.phase = .idle ∧ base.fc.configured = true ∧ base.creditIs 100 [] ∧ 100 < base.fc.units 401 ∧ 100 < 101 ∧
      ({ buf := some 0, dataLen := 1024, blockLength := 512, timeout := 1 } : XferArgs).blocks true 2 ∧
      100 < base.fc.need false 2 512 ∧ (writing 401).consistent ∧ (writing 401).flags.data = true ∧
      (writing 401).xferArgs.blocks (writing 401).flags.multi 1 ∧
      100 < base.fc.need (writing 401).flags.write 1 (writing 401).blockLength :=
  ⟨rfl, rfl, base_credit, by decide, by decide, wide_blocks, by decide, writing_consistent _, rfl,
    writing_blocks _ (by decide) (by decide), by decide⟩

/-- V25's shape with two blocks: ready at once, both blocks accepted, not busy after one poll. -/
def written : List (List Byte × Byte) := [([1, 2, 3, 4], 0x05), ([5, 6, 7, 8], 0xE5)]

theorem witness_WriteRun :
    let s := sends ([0x00] ++ [0xFF] ++ [9] ++ written.flatMap (fun q => q.1 ++ [q.2]) ++ [8, 0x00, 0xFF])
      (moving true 0 [] (.wReady 3))
    s.env.resetLine = false ∧ s.Inv ∧ s.crcSound ∧ s.phase = .wReady s.req.timeout ∧ s.req.buf = some 100 ∧
      ([0x00] : List Byte).length < s.req.timeout ∧ (∀ b ∈ ([0x00] : List Byte), b ≠ Config.idleByte) ∧
      written.length = s.bx.nblocks ∧
      (∀ q ∈ written, q.1.length = s.req.blockLength + 2 ∧ drespAccepted s.params q.2 = true) ∧
      s.req.flags.multi = true ∧ [8, 0x00, 0xFF] = (8 : Byte) :: [0x00] ++ [Config.idleByte] ∧
      s.slaveSends ([0x00] ++ [Config.idleByte] ++ [9] ++ written.flatMap (fun q => q.1 ++ [q.2]) ++ [8, 0x00, 0xFF]) [] ∧
      s.fc.txSentBuffers + s.bx.nblocks * s.fc.units s.req.blockLength < 2 ^ s.params.cntW :=
  ⟨rfl, writing_start_inv 3 (by decide), rfl, rfl, rfl, by decide, by decide, rfl, by decide, rfl, rfl, rfl, by decide⟩

/-- A single-block write of two bytes: no stop token. -/
def single : State :=
  { moving true 0 [] (.wReady 3) with
    req := Request.ofXfer true false { buf := some 100, dataLen := 2, blockLength := 2, timeout := 3 }
    bx := { BlockXfer.blank with nblocks := 1 } }

theorem witness_WriteRun_single :
    let s := sends [0xFF, 9, 1, 2, 3, 4, 0x05] single
    s.Inv ∧ s.phase = .wReady s.req.timeout ∧ s.req.flags.multi = false ∧
      ([([1, 2, 3, 4], 0x05)] : List (List Byte × Byte)).length = s.bx.nblocks ∧
      s.slaveSends ([] ++ [Config.idleByte] ++ [9] ++
        ([([1, 2, 3, 4], 0x05)] : List (List Byte × Byte)).flatMap (fun q => q.1 ++ [q.2]) ++ []) [] :=
  ⟨⟨default_legal, moving_wf, fun _ => ⟨by decide, by decide, by decide⟩, by decide, by decide,
    ⟨⟨rfl, Option.some_ne_none _, by decide, by decide, by decide, rfl, fun _ => rfl, Or.inl rfl⟩, rfl, rfl, rfl⟩,
    by decide⟩, rfl, rfl, rfl, rfl⟩

/-- What the slave sends before each of two blocks, and their payloads (R130's example). -/
def blocksRead : List (List Byte × List Byte) := [([], [0x11, 0x22]), ([0xFF, 0x00], [0x33, 0x44])]

theorem witness_ReadRun :
    let s := sends (blocksRead.flatMap (sentBlock Params.default)) (moving false 0 [] (.rPoll 0 3))
    s.env.resetLine = false ∧ s.Inv ∧ s.crcSound ∧ s.phase = .rPoll 0 s.req.timeout ∧ s.req.buf = some 100 ∧
      blocksRead.length = s.bx.nblocks ∧
      (∀ q ∈ blocksRead, q.1.length < s.req.timeout ∧ (∀ b ∈ q.1, b ≠ Config.tokStartSingleByte) ∧
        q.2.length = s.req.blockLength) ∧
      s.slaveSends (blocksRead.flatMap (sentBlock s.params)) [] ∧
      s.fc.rxGotBytes + s.req.dataLen < 2 ^ s.params.cntW :=
  ⟨rfl, reading_start_inv 3 (by decide), rfl, rfl, rfl, rfl, by decide, rfl, by decide⟩

/-- The operands of a 512-byte block at address 0. -/
def loop : XferArgs := { buf := some 0, dataLen := 512, blockLength := 512, timeout := 2 }

/-- `base` with credit 512 in either direction. -/
def rich : State := { base with env := { base.env with credit := [.count 512] } }

theorem witness_Loopback :
    let s := sends ([0x00] ++ [Config.idleByte, 7] ++ List.replicate 514 0 ++ [0x05]) rich
    s.ready ∧ s.crcSound ∧ loop.buf = some 0 ∧ loop.dataLen = 512 ∧ loop.blockLength = 512 ∧ s.fc.configured = true ∧
      1 ≤ s.fc.bufferSize ∧ s.creditIs 512 [] ∧ s.fc.units 512 ≤ 512 ∧
      s.fc.txSentBuffers + s.fc.units 512 < 2 ^ s.params.cntW ∧ ([0x00] : List Byte).length < loop.timeout ∧
      (∀ b ∈ ([0x00] : List Byte), b ≠ Config.idleByte) ∧ (List.replicate 514 (0 : Byte)).length = 514 ∧
      drespAccepted s.params 0x05 = true ∧
      s.slaveSends ([0x00] ++ [Config.idleByte, 7] ++ List.replicate 514 0 ++ [0x05]) [] :=
  ⟨⟨rfl, rfl⟩, rfl, rfl, rfl, rfl, rfl, by decide, ⟨rfl, by decide⟩, by decide, by decide, by decide, by decide,
    List.length_replicate, by decide, (List.append_nil _).symm⟩

/-- The second machine of the loopback property: whatever bytes the first one sent, this one can receive them. -/
theorem witness_Loopback_read (w : List (Byte × Byte)) :
    let s := sends ([0xFF] ++ w.map Prod.fst) rich
    s.params = rich.params ∧ Memory.wf s.mem ∧ s.ready ∧ s.crcSound ∧ s.creditIs 512 [] ∧ 512 ≤ 512 ∧
      s.fc.rxGotBytes + 512 < 2 ^ s.params.cntW ∧ ([0xFF] : List Byte).length < loop.timeout ∧
      (∀ b ∈ ([0xFF] : List Byte), b ≠ Config.tokStartSingleByte) ∧ s.slaveSends ([0xFF] ++ w.map Prod.fst) [] :=
  ⟨rfl, ⟨List.Pairwise.nil, fun _ h => absurd h (List.not_mem_nil)⟩, ⟨rfl, rfl⟩, rfl,
    ⟨rfl, (by decide : 512 < 2 ^ 32)⟩, le_refl _, (by decide : 0 + 512 < 2 ^ 32), by decide, by decide, (List.append_nil _).symm⟩

/-! The flow-control tracker. -/

theorem witness_ReserveSend :
    (operands 0x03F4).asks 0x4 ∧ (State.reset.ready ∧ State.reset.fc.configured = false) ∧
      (base.ready ∧ base.fc.configured = true ∧ base.creditIs 100 [] ∧ ceilDiv 400 base.fc.bufferSize ≤ 100 ∧
        100 < ceilDiv 401 base.fc.bufferSize) ∧
      (let s := { base with env := { base.env with credit := [.error 3] } }
       s.ready ∧ s.env.credit = .error 3 :: []) :=
  ⟨⟨rfl, rfl⟩, ⟨⟨rfl, rfl⟩, rfl⟩, ⟨base_ready, rfl, base_credit, by decide, by decide⟩, ⟨rfl, rfl⟩, rfl⟩

theorem witness_ReserveRecv :
    (operands 0x03F5).asks 0x5 ∧ (State.reset.ready ∧ State.reset.fc.configured = false) ∧
      (base.ready ∧ base.fc.configured = true ∧ base.creditIs 100 [] ∧ 100 ≤ 100 ∧ 100 < 101) ∧
      (let s := { base with env := { base.env with credit := [.error 3] } }
       s.ready ∧ s.env.credit = .error 3 :: []) :=
  ⟨⟨rfl, rfl⟩, ⟨⟨rfl, rfl⟩, rfl⟩, ⟨base_ready, rfl, base_credit, by decide, by decide⟩, ⟨rfl, rfl⟩, rfl⟩

theorem witness_CommitSend :
    (operands 0x03F6).asks 0x6 ∧ (State.reset.ready ∧ State.reset.fc.configured = false) ∧
      (base.ready ∧ base.fc.configured = true ∧
        base.fc.txSentBuffers + ceilDiv 1 base.fc.bufferSize < 2 ^ base.params.cntW) ∧
      (let s := { base with fc := { base.fc with txSentBuffers := 4294967295 } }
       s.ready ∧ 2 ^ s.params.cntW ≤ s.fc.txSentBuffers + ceilDiv 1 s.fc.bufferSize) :=
  ⟨⟨rfl, rfl⟩, ⟨⟨rfl, rfl⟩, rfl⟩, ⟨base_ready, rfl, by decide⟩, ⟨rfl, rfl⟩, by decide⟩

theorem witness_CommitRecv :
    (operands 0x03F7).asks 0x7 ∧ (State.reset.ready ∧ State.reset.fc.configured = false) ∧
      (base.ready ∧ base.fc.configured = true ∧ base.fc.rxGotBytes + 4294967295 < 2 ^ base.params.cntW ∧
        2 ^ base.params.cntW ≤ base.fc.rxGotBytes + 4294967296) :=
  ⟨⟨rfl, rfl⟩, ⟨⟨rfl, rfl⟩, rfl⟩, base_ready, rfl, by decide, by decide⟩

theorem witness_FcReset : (operands 0x03F8).asks 0x8 ∧ base.ready ∧ State.reset.ready :=
  ⟨⟨rfl, rfl⟩, base_ready, rfl, rfl⟩

theorem witness_ConfigSeeds : (operands 0x03F9).asks 0x9 ∧ State.reset.ready ∧ (1 ≤ 1 ∧ 2048 ≤ 2048) ∧ 2048 < 2049 :=
  ⟨⟨rfl, rfl⟩, ⟨rfl, rfl⟩, by decide, by decide⟩

theorem witness_CommitsAddUp :
    let is : List Instr := [.commitSend 1, .commitRecv 5, .commitSend 5]
    base.ready ∧ base.fc.configured = true ∧ (∀ i ∈ is, ∃ n, i = .commitSend n ∨ i = .commitRecv n) ∧
      base.fc.txSentBuffers + (is.map base.fc.unitsOf).sum < 2 ^ base.params.cntW ∧
      base.fc.rxGotBytes + (is.map bytesOf).sum < 2 ^ base.params.cntW := by
  refine ⟨base_ready, rfl, ?_, by decide, by decide⟩
  intro i hi
  simp only [List.mem_cons, List.not_mem_nil, or_false] at hi
  obtain rfl | rfl | rfl := hi
  · exact ⟨1, Or.inl rfl⟩
  · exact ⟨5, Or.inr rfl⟩
  · exact ⟨5, Or.inl rfl⟩

theorem witness_CommitsAddUp_units : 1 ≤ 4 ∧ 5 ≤ 2 * 4 ∧ ceilDiv 5 4 = 2 ∧ ceilDiv 4 4 = 1 ∧ ceilDiv 0 4 = 0 := by decide

theorem witness_FlowStateChanges :
    (let s := asking (operands 0x0006)
     s.env.resetLine = false ∧ lands (step s) (fun t => t.fc != s.fc) = true) ∧
      (let s := sends [0x05] (moving true 0 [] (.wDresp 0))
       s.env.resetLine = false ∧ lands (step s) (fun t => t.fc != s.fc) = true) ∧
      (let s := sends [0x62] (moving false 0 [0x11, 0x22] (.rCrc 0 true))
       s.env.resetLine = false ∧ lands (step s) (fun t => t.fc != s.fc) = true) := by decide +kernel

theorem witness_CountersNeverDecrease :
    (asking (operands 0x0006)).env.resetLine = false ∧ lands (step (asking (operands 0x0006))) (fun _ => true) = true ∧
      (asking (operands 0x0006)).env.port = [operands 0x0006] ∧ asked (operands 0x0006) ≠ some .fcReset := by decide

/-! The dispatcher. -/

theorem witness_ExecuteValidates :
    ((operands 0x0013).ctl.extractLsb' 0 4 = 3 ∧ (operands 0x0013).ctl.extractLsb' 10 6 = 0) ∧ base.phase = .idle ∧ 63 < ({ desc with index := 64 } : Descriptor).index ∧
      ({ desc with sel := .none } : Descriptor).flags.noresp ≠ decide (Sel.none = Sel.none) ∧
      (let f : Flags := { data := false, write := true, multi := true, noresp := false }
       (f.multi = true ∧ f.data = false) ∧ (f.write = true ∧ f.data = false)) ∧
      ((writing 0).flags.data = true ∧ (writing 0).blockLength = 0) := by decide

theorem answered_r5 : desc.answered Params.default [0xFF, 0x5A, 0x00] [0x5A, 0x00] :=
  ⟨1, 0x5A, [0x00], by decide, by decide, rfl, rfl, rfl, fun h => Sel.noConfusion h⟩

theorem witness_ExecuteWithoutData :
    let s := sends ([1, 2, 3, 4, 5, 6] ++ [0xFF, 0x5A, 0x00]) base
    s.ready ∧ s.Inv ∧ s.crcSound ∧ desc.consistent ∧ desc.flags.data = false ∧
      ([1, 2, 3, 4, 5, 6] : List Byte).length = 6 ∧
      desc.answered s.params [0xFF, 0x5A, 0x00] [0x5A, 0x00] ∧
      s.slaveSends ([1, 2, 3, 4, 5, 6] ++ [0xFF, 0x5A, 0x00]) [] :=
  ⟨⟨rfl, rfl⟩, base_inv _, rfl, ⟨by decide, rfl, fun _ => ⟨rfl, rfl⟩⟩, rfl, rfl, answered_r5, rfl⟩

/-- No response expected: nothing of the window is pulled. -/
theorem witness_ExecuteWithoutData_none :
    let d : Descriptor := { desc with sel := .none, flags := { Flags.clear with noresp := true } }
    d.consistent ∧ d.flags.data = false ∧ d.answered Params.default [] [] :=
  ⟨⟨by decide, rfl, fun _ => ⟨rfl, rfl⟩⟩, rfl, rfl, rfl⟩

/-- Eight idle bytes in the window, and a budget of 0 without one. -/
theorem witness_ExecuteWithoutData_timeout :
    desc.sel ≠ .none ∧
      (sends ([1, 2, 3, 4, 5, 6] ++ List.replicate 8 0xFF) base).slaveSends
        ([1, 2, 3, 4, 5, 6] ++ List.replicate (min 8 desc.timeout) Config.idleByte) [] ∧
      (sends [1, 2, 3, 4, 5, 6] base).slaveSends
        ([1, 2, 3, 4, 5, 6] ++ List.replicate (min 8 { desc with timeout := 0 }.timeout) Config.idleByte) [] :=
  ⟨by decide, rfl, rfl⟩

theorem witness_ExecuteReachesData :
    let s := sends ([1, 2, 3, 4, 5, 6] ++ [0x01]) base
    s.ready ∧ s.Inv ∧ s.crcSound ∧ (writing 2).consistent ∧ (writing 2).flags.data = true ∧
      (writing 2).xferArgs.blocks (writing 2).flags.multi 1 ∧ s.fc.configured = true ∧ s.creditIs 100 [] ∧
      s.fc.need (writing 2).flags.write 1 (writing 2).blockLength ≤ 100 ∧
      (writing 2).answered s.params [0x01] [0x01] ∧ s.slaveSends ([1, 2, 3, 4, 5, 6] ++ [0x01]) [] :=
  ⟨⟨rfl, rfl⟩, base_inv _, rfl, writing_consistent _, rfl, writing_blocks _ (by decide) (by decide), rfl, base_credit, by decide,
    ⟨0, 0x01, [], by decide, by decide, rfl, rfl, rfl, fun _ => by decide⟩, rfl⟩

/-- The refusals, with A3 on either operand, A4 as in V64, and A5 as the comparison and as an error of the credit read. -/
theorem witness_ExecuteReachesData_refused :
    base.phase = .idle ∧ (writing 2).consistent ∧ (writing 2).flags.data = true ∧
      ends (exec (.execute { writing 2 with buf := none }) base) .invalidCommand = true ∧
      ends (exec (.execute (writing 513)) base) .blockTooLarge = true ∧
      ends (exec (.execute { writing 2 with dataLen := 0 }) base) .invalidCommand = true ∧
      ends (exec (.execute { writing 2 with dataLen := 4 }) base) .invalidCommand = true ∧
      ends (exec (.execute (writing 2)) State.reset) .invalidCommand = true ∧
      ends (exec (.execute (writing 401)) base) .insufficientCredit = true ∧
      ends (exec (.execute (writing 2)) { base with env := { base.env with credit := [.error 9] } })
        (.collaboratorError .credit .idle 9) = true :=
  ⟨rfl, writing_consistent _, rfl, by decide, by decide, by decide, by decide, by decide, by decide, by decide⟩

theorem witness_StatusErrorIsFatalStatus :
    let s := executing .r1 [0x05] .status
    s.Inv ∧ s.env.resetLine = false ∧
      lands (step s) (fun t => t.results.outcome == some (.statusError 0x05) && t.results != s.results) = true ∧
      s.phase = .status ∧ s.req.op = .execute ∧ s.resp = [0x05] :=
  ⟨⟨default_legal, empty_wf, fun _ => ⟨by decide, by decide, by decide⟩, by decide,
    by decide, ⟨rfl, ⟨by decide, fun h => Bool.noConfusion h⟩⟩, rfl, rfl⟩, rfl, by decide, rfl, rfl, rfl⟩

/-- Another past: other results, a longer trace, a waiting request, another byte outside the buffer of `writing 2`. -/
def elsewhere : State :=
  { base with
    results := Results.only .ok, trace := [(1, 2)], mem := [(7, 1)]
    env := { base.env with port := [operands 0x0008] } }

theorem witness_RunForgetsPast :
    base.env.resetLine = false ∧ base.ready ∧ base.Inv ∧ elsewhere.Inv ∧ SameGround (writing 2) base elsewhere :=
  ⟨rfl, base_ready, base_inv _,
    ⟨default_legal, by decide, fun _ => ⟨by decide, by decide, by decide⟩, by decide, by decide, rfl, rfl, rfl⟩,
    fun a ⟨b, hb, h1, h2⟩ => by
      injection hb with hb
      subst hb
      have h2 : a < 0 + 2 := h2
      show (if 7 = a then (1 : Byte) else 0x00) = 0x00
      rw [if_neg (by omega)],
    rfl⟩

/-! Failures and the whole machine. -/

theorem witness_CollaboratorErrorEnds :
    (let s := { moving true 0 [] (.wReady 1) with env := { base.env with slave := [.error 6] } }
     s.env.resetLine = false ∧ s.env.slave = .error 6 :: [] ∧ s.env.crcErrs = [] ∧ s.exchangesNext = true) ∧
      (let e := { base.env with crcErrs := [some 6] }
       e.crcErrs = some 6 :: [] ∧ ({ executing .r5 [] .frame with env := e } : State).phase = .frame ∧
        ({ moving true 0 [1, 2] (.wCrc 0 false) with env := e } : State).phase = .wCrc 0 false ∧
        ({ moving false 0 [1, 2] (.rCrc 0 true) with env := e } : State).phase = .rCrc 0 true) := by decide

/-- The third and the sixth answer to a frame are an error. -/
theorem witness_CollaboratorErrorEnds_frame :
    (let s := fun bs : List Byte =>
      { executing .r5 [] .frame with env := { base.env with slave := bs.map WireAnswer.byte ++ [.error 6] } }
     (s [1, 2]).env.resetLine = false ∧ (s [1, 2]).phase = .frame ∧ (s [1, 2]).env.crcErrs = [] ∧
      ends (step (s [1, 2])) (.collaboratorError .transfer .frame 6) = true ∧
      ends (step (s [1, 2, 3, 4, 5])) (.collaboratorError .transfer .frame 6) = true) := by decide +kernel

theorem witness_FailureEndsOperation :
    (let s := decoding .r5 [1, 2] .done
     lands (step s) (fun t => t.phase == .idle) = true ∧ s.phase ≠ .idle) ∧
      (let s := moving true 0 [] (.wReady 0)
       lands (step s) (fun t => t.phase == .idle) = true ∧ s.phase ≠ .idle) := by decide

theorem witness_TraceGrows :
    (moving true 4 [] .wStop).env.resetLine = false ∧
      lands (step (sends [0] (moving true 4 [] .wStop))) (fun t => t.trace.length == 1) = true := by decide

theorem witness_InvariantKept : changing.Inv ∧ lands (step changing) (fun _ => true) = true :=
  ⟨witness_StoresStayInBuffer.1, by decide +kernel⟩

/-- The two faults, and a next state. -/
theorem witness_NoOtherFault :
    (changing.Inv ∧ changing.env.resetLine = false) ∧
      (let s := asking { operands 0x0004 with nBytes := 4294967296 }
       s.Inv ∧ faults (step s) .operandTooWide = true) :=
  ⟨⟨witness_StoresStayInBuffer.1, rfl⟩,
    ⟨default_legal, empty_wf, fun _ => ⟨by decide, by decide, by decide⟩, by decide,
      by decide, rfl, rfl, rfl⟩, by decide⟩

theorem witness_EveryOperationEnds :
    (moving true 0 [] (.wReady 3)).Inv ∧ (moving true 0 [] (.wReady 3)).env.resetLine = false :=
  ⟨writing_start_inv 3 (by decide), rfl⟩

theorem witness_WireBudget :
    let s := sends [1, 2, 3, 4, 5, 6] (executing .r5 [] .frame)
    s.Inv ∧ s.env.resetLine = false ∧ s.phase = .frame ∧ s.env.port = [] ∧
      lands (steps 1 s) (fun t => t.trace.length == 6) = true :=
  ⟨⟨default_legal, empty_wf, fun _ => ⟨by decide, by decide, by decide⟩, by decide,
    by decide, rfl, ⟨rfl, by decide, fun h => Bool.noConfusion h⟩, rfl⟩, rfl, rfl, rfl, by decide⟩

end Sys2Proof.Tests
end

section
/-! PROOFS. The statements of the scope: what a step leaves of the parameters, of the trace and of memory, and how a
collaborator's error ends the running operation. -/

namespace Sys2Proof.Machine

/-! ### What a step keeps outside memory -/

/-- The parameters are kept and the trace grows by at most a frame (R15, R39). -/
def State.GrowsTo (s t : State) : Prop :=
  t.params = s.params ∧ ∃ w, t.trace = s.trace ++ w ∧ w.length ≤ Config.frameLen

theorem State.growsTo_of_trace_eq {s t : State} (hp : t.params = s.params) (ht : t.trace = s.trace) : s.GrowsTo t :=
  ⟨hp, [], by rw [ht, List.append_nil], Nat.zero_le _⟩

theorem State.growsTo_of_exchange {s t : State} {x : Byte × Byte} (hp : t.params = s.params)
    (ht : t.trace = s.trace ++ [x]) : s.GrowsTo t :=
  ⟨hp, [x], ht, by simp [Config.frameLen]⟩

/-- Hardware reset is taken in IDLE, and only there (R232). -/
theorem step_reset {s t : State} (hr : s.env.resetLine = true) (h : step s = .next t) :
    s.phase = .idle ∧ t = s.hardwareReset := by
  simp only [step, stepWith, hr, if_true] at h
  split_ifs at h with hp
  injection h with h
  exact ⟨hp, h.symm⟩

/-- A failure in IDLE changes neither the parameters nor the trace nor memory. -/
theorem State.fail_idle_kept (f : OpOutcome) {s : State} (hp : s.phase = .idle) :
    (s.fail f).params = s.params ∧ (s.fail f).trace = s.trace ∧ (s.fail f).mem = s.mem := by
  obtain ⟨hpar, -, htr, -⟩ := State.fail_fields f s
  exact ⟨hpar, htr, State.fail_mem (by simp [hp]) (by simp [hp])⟩

/-- Accepting or refusing a request has no wire byte and no store. -/
theorem RequestStep.kept {i : Instr} {s t : State} (hp : s.phase = .idle) (h : RequestStep i s t) :
    t.params = s.params ∧ t.trace = s.trace ∧ t.mem = s.mem := by
  cases h with
  | refused f e he hf => exact State.fail_idle_kept f (s := { s with env := e }) hp
  | accepted r bx p fc e he hpi hfc => exact ⟨rfl, rfl, rfl⟩

/-- A step in IDLE with the reset signal low waits, refuses or accepts: no wire byte and no store. -/
theorem step_idle_kept {s t : State} (hp : s.phase = .idle) (hr : s.env.resetLine = false) (h : step s = .next t) :
    t.params = s.params ∧ t.trace = s.trace ∧ t.mem = s.mem := by
  rcases step_idle hp hr h with ⟨-, rfl⟩ | ⟨r, rest, -, ⟨f, -, rfl⟩ | ⟨i, -, hreq⟩⟩
  · exact ⟨rfl, rfl, rfl⟩
  · exact State.fail_idle_kept f (s := { s with env := { s.env with port := rest } }) hp
  · exact RequestStep.kept (s := { s with env := { s.env with port := rest } }) hp hreq

theorem WireStep.growsTo {s t : State} (h : WireStep s t) : s.GrowsTo t := by
  cases h with
  | fails f e w he hf hw =>
    obtain ⟨hpar, -, htr, -⟩ := State.fail_fields f { s with env := e, trace := s.trace ++ w }
    rcases hw with rfl | ⟨b, rfl, -⟩
    · exact State.growsTo_of_trace_eq hpar (htr.trans (List.append_nil _))
    · exact State.growsTo_of_exchange hpar htr
  | frame e rx he hp hl => exact ⟨rfl, _, rfl, by rw [List.length_zip, hl]; exact Nat.min_le_right _ _⟩
  | status hp hf => exact State.growsTo_of_trace_eq rfl rfl
  | done hp => exact State.growsTo_of_trace_eq rfl rfl
  | _ => exact State.growsTo_of_exchange rfl rfl

/-! ### What a step stores -/

/-- The phase reads bytes of block `j` (R134, R135). -/
def State.readsBlock (s : State) (j : Nat) : Prop :=
  s.phase = .rCrc j false ∨ s.phase = .rCrc j true ∨ ∃ i, s.phase = .rData j i

/-- The address lies in the lent buffer, in block `j` or after it (R51). -/
def Request.lendsFrom (r : Request) (j a : Nat) : Prop :=
  r.blockAddr j ≤ a ∧ a < r.blockAddr j + (r.dataLen - j * r.blockLength)

theorem Request.lendsFrom.lent {r : Request} {j a : Nat} (h : r.lendsFrom j a) (hb : r.buf ≠ none) :
    ∃ base, r.buf = some base ∧ base ≤ a ∧ a < base + r.dataLen := by
  obtain ⟨base, hbase⟩ := Option.ne_none_iff_exists'.1 hb
  obtain ⟨hlo, hhi⟩ := h
  simp only [Request.blockAddr, Request.bufAddr, hbase, Option.getD_some] at hlo hhi
  exact ⟨base, hbase, by omega, by omega⟩

/-- A failure changes memory only where it ends a read inside a block, and then from that block on (R68). -/
theorem State.fail_mem_changed {f : OpOutcome} {s : State} {a : Nat} (hwf : Memory.wf s.mem)
    (ha : memRead (s.fail f).mem a ≠ memRead s.mem a) : ∃ j, s.readsBlock j ∧ s.req.lendsFrom j a := by
  have spoiled : ∀ j, memRead (s.spoilFrom j).mem a ≠ memRead s.mem a → s.req.lendsFrom j a := fun j h => by
    by_contra hout
    exact h (memRead_memSpoil_outside hwf (by unfold Request.lendsFrom at hout; omega))
  unfold State.fail State.spoilRead at ha
  split at ha
  · next j i hp => exact ⟨j, .inr (.inr ⟨i, hp⟩), spoiled j ha⟩
  · next j low hp => exact ⟨j, by cases low <;> simp [State.readsBlock, hp], spoiled j ha⟩
  · exact absurd rfl ha

theorem State.Inv.mem_wf {s : State} (h : s.Inv) : Memory.wf s.mem := by
  obtain ⟨-, hwf, -⟩ := h
  exact hwf

theorem State.Inv.phaseInv {s : State} (h : s.Inv) : s.phaseInv := by
  obtain ⟨-, -, -, -, -, hph⟩ := h
  exact hph

/-- What the invariant says in the phases that read a block. -/
theorem State.Inv.readsBlock {s : State} {j : Nat} (hinv : s.Inv) (h : s.readsBlock j) :
    s.req.flags.write = false ∧ s.req.buf ≠ none ∧ (j + 1) * s.req.blockLength ≤ s.req.dataLen := by
  have hread : s.reading (j * s.req.blockLength) ∧ j < s.bx.nblocks := by
    have hph := hinv.phaseInv
    unfold State.phaseInv at hph
    rcases h with h | h | ⟨i, h⟩ <;> rw [h] at hph <;> exact ⟨hph.1, hph.2.1⟩
  obtain ⟨⟨⟨-, hbuf, -, -, -, hlen, -⟩, -, hw, -⟩, hj⟩ := hread
  exact ⟨hw, hbuf, hlen ▸ Nat.mul_le_mul_right _ hj⟩

/-- Outside IDLE memory changes in the phases that read a block alone, and there from that block on. -/
theorem WireStep.mem_changed {s t : State} {a : Nat} (hinv : s.Inv) (h : WireStep s t)
    (ha : memRead t.mem a ≠ memRead s.mem a) : ∃ j, s.readsBlock j ∧ s.req.lendsFrom j a := by
  cases h with
  | fails f e w he hf hw =>
    exact State.fail_mem_changed (s := { s with env := e, trace := s.trace ++ w }) hinv.mem_wf ha
  | matched j e b he hp hcrc hlt =>
    have hreads : s.readsBlock j := .inr (.inl hp)
    obtain ⟨-, -, hfit⟩ := hinv.readsBlock hreads
    have hheld : s.bx.held.length = s.req.blockLength := by
      have hph := hinv.phaseInv
      unfold State.phaseInv at hph
      rw [hp] at hph
      obtain ⟨-, -, hheld⟩ := hph
      exact hheld
    refine ⟨j, hreads, ?_⟩
    by_contra hout
    refine ha (memRead_memWriteBlock_outside hinv.mem_wf ?_)
    rw [Nat.succ_mul] at hfit
    unfold Request.lendsFrom at hout
    omega
  | _ => exact absurd rfl ha

/-! ### How a collaborator's error ends the operation -/

/-- The outcome ends the operation of `s` with the failure `f`; nothing is committed and the trace is as before. -/
def EndsWith (f : OpOutcome) (s : State) (o : Out) : Prop :=
  ∃ t, o = .next t ∧ t.failedWith f ∧ t.fc = s.fc ∧ t.trace = s.trace

theorem raise_endsWith (f : OpOutcome) (s : State) : EndsWith f s (raise f s) := by
  obtain ⟨-, hfc, htr, hp, hreq, hbx, hresp, hres⟩ := State.fail_fields f s
  exact ⟨s.fail f, rfl, ⟨hp, hres, hreq, hbx, hresp⟩, hfc, htr⟩

/-- A CRC call that ends in an error (R209). -/
theorem crcCall_error {c : Collab} {code : Nat} {s : State} {rest : List (Option Nat)} {k : State → Out}
    (h : s.env.crcErrs = some code :: rest) :
    crcCall c s k =
      raise (.collaboratorError c s.phase code) { s with env := { s.env with crcErrs := rest } } := by
  rw [crcCall, h]

section

variable {s : State} {p : Phase} {code : Nat} {rest : List WireAnswer}

theorem crcCall_endsWith {c : Collab} {errs : List (Option Nat)} {k : State → Out} (hp : s.phase = p)
    (h : s.env.crcErrs = some code :: errs) : EndsWith (.collaboratorError c p code) s (crcCall c s k) := by
  subst hp
  rw [crcCall_error h]
  exact raise_endsWith _ { s with env := { s.env with crcErrs := errs } }

theorem xfer_endsWith {x : Byte} {k : Byte → State → Out} (hp : s.phase = p)
    (h : s.env.slave = .error code :: rest) : EndsWith (.collaboratorError .transfer p code) s (xfer x s k) := by
  subst hp
  rw [xfer_error h]
  exact raise_endsWith _ { s with env := { s.env with slave := rest } }

theorem pull_endsWith {k : Byte → State → Out} (hp : s.phase = p) (h : s.env.slave = .error code :: rest) :
    EndsWith (.collaboratorError .transfer p code) s (pull s k) := xfer_endsWith hp h

theorem push_endsWith {x : Byte} {k : State → Out} (hp : s.phase = p) (h : s.env.slave = .error code :: rest) :
    EndsWith (.collaboratorError .transfer p code) s (push x s k) := xfer_endsWith hp h

theorem xferN_endsWith {ts bs : List Byte} {k : List Byte → State → Out} (hp : s.phase = p)
    (hl : bs.length < ts.length) (h : s.slaveSends bs (.error code :: rest)) :
    EndsWith (.collaboratorError .transfer p code) s (xferN ts s k) := by
  subst hp
  rw [xferN_error h hl]
  exact raise_endsWith _ { s with env := { s.env with slave := rest } }

/-- The call that sends a frame ends the operation, whichever of its six answers is the error. -/
theorem fetch_frame_endsWith {bs : List Byte} (hp : s.phase = .frame) (hcrc : s.crcSound) (hl : bs.length < 6)
    (h : s.slaveSends bs (.error code :: rest)) :
    EndsWith (.collaboratorError .transfer .frame code) s (fetch exec s) := by
  rw [fetch_frame hp, crcCall_sound hcrc]
  simp only [State.frameItem, exec, execCmdFrame_frame hp]
  exact xferN_endsWith hp hl h

/-- A wait of the write path with a poll left. -/
theorem fetchWait_endsWith {n : Nat} {again : Phase} (hn : 0 < n) (hp : s.phase = p)
    (h : s.env.slave = .error code :: rest) :
    EndsWith (.collaboratorError .transfer p code) s (fetchWait exec n again s) := by
  rw [fetchWait, if_neg (Nat.ne_of_gt hn)]
  exact pull_endsWith hp h

/-- In every phase that exchanges a byte, an error in its place ends the operation. -/
theorem fetch_endsWith (hcrc : s.crcSound) (h : s.env.slave = .error code :: rest) (hx : s.exchangesNext = true) :
    EndsWith (.collaboratorError .transfer s.phase code) s (fetch exec s) := by
  unfold State.exchangesNext at hx
  cases hp : s.phase with
  | idle => simp [hp] at hx
  | frame => exact fetch_frame_endsWith (bs := []) hp hcrc (by decide) h
  | rspScan k =>
    have hk : k < s.req.scanBound := by simpa [hp] using hx
    rw [fetch_scan hp, fetchScan, if_neg (Nat.not_le.2 hk)]
    exact pull_endsWith hp h
  | rspRest r => rw [fetch_rest hp]; exact pull_endsWith hp h
  | status => simp [hp] at hx
  | wReady n => rw [fetch_ready hp]; exact fetchWait_endsWith (by simpa [hp] using hx) hp h
  | wToken =>
    rw [fetch_token hp]
    split_ifs
    · simp only [exec, execTokStartMultiWr_token hp]; exact push_endsWith hp h
    · simp only [exec, execTokStartSingle_token hp]; exact push_endsWith hp h
  | wData j i =>
    cases i with
    | zero =>
      rw [fetch_data_first hp]
      simp only [State.heldBlock, exec]
      rw [execDataBlock_data (s := s.loadBlock j) hp]
      exact push_endsWith (s := s.loadBlock j) hp h
    | succ i =>
      rw [fetch_data_next hp]
      simp only [State.heldBlock, exec, execDataBlock_data hp]
      exact push_endsWith hp h
  | wCrc j low =>
    cases low with
    | false =>
      rw [fetch_crcHigh hp, crcCall_sound hcrc]
      simp only [State.heldBlock, exec, execDataBlock_crcHigh hp]
      exact push_endsWith hp h
    | true =>
      rw [fetch_crcLow hp]
      simp only [State.heldBlock, exec, execDataBlock_crcLow hp]
      exact push_endsWith hp h
  | wDresp j => rw [fetch_dresp hp]; exact pull_endsWith hp h
  | wStop => rw [fetch_stop hp]; simp only [exec, execTokStop_stop hp]; exact push_endsWith hp h
  | wBusy n => rw [fetch_busy hp]; exact fetchWait_endsWith (by simpa [hp] using hx) hp h
  | rPoll j n =>
    have hn : 0 < n := by simpa [hp] using hx
    rw [fetch_poll hp, fetchPoll, if_neg (Nat.ne_of_gt hn)]
    exact pull_endsWith hp h
  | rData j i => rw [fetch_payload hp]; exact pull_endsWith hp h
  | rCrc j low =>
    cases low with
    | false => rw [fetch_readHigh hp]; exact pull_endsWith hp h
    | true => rw [fetch_readLow hp]; exact pull_endsWith hp h
  | done => simp [hp] at hx

end

end Sys2Proof.Machine

namespace Sys2Proof

open Machine

/-- Settles O12: in IDLE nothing is stored, and outside it a byte that changes lies in the lent buffer from the block
being read on. -/
theorem storesStayInBuffer : Obligations.StoresStayInBuffer := by
  intro s t hinv hstep a ha
  by_cases hp : s.phase = .idle
  · have hmem : t.mem = s.mem := by
      cases hr : s.env.resetLine with
      | false => exact (step_idle_kept hp hr hstep).2.2
      | true => rw [(step_reset hr hstep).2]; rfl
    exact absurd (by rw [hmem]) ha
  · obtain ⟨j, hreads, hlends⟩ := (step_wire hp hstep).mem_changed hinv ha
    obtain ⟨hw, hbuf, -⟩ := hinv.readsBlock hreads
    exact ⟨hw, ⟨j, hreads⟩, hlends.lent hbuf⟩

/-- Settles O54: every exchanging phase, the six answers of a frame, and the calls of `crc7` and `crc16`. -/
theorem collaboratorErrorEnds : Obligations.CollaboratorErrorEnds := by
  intro s code hr
  rw [step_fetch hr]
  refine ⟨fun rest h hcrc hx => fetch_endsWith hcrc h hx,
    fun bs rest hp hcrc hl h => fetch_frame_endsWith hp hcrc hl h, fun rest h => ⟨fun hp => ?_, fun j hp => ?_,
      fun j payload crc hp => ?_⟩⟩
  · rw [fetch_frame hp]
    exact crcCall_endsWith hp h
  · rw [fetch_crcHigh hp]
    exact crcCall_endsWith hp h
  · simp only [exec, execDataBlock_received hp]
    exact crcCall_endsWith hp h

/-- Settles O56: only FRAME exchanges more than one byte, and it sends six. -/
theorem traceGrows : Obligations.TraceGrows := by
  intro s t hr hstep
  by_cases hp : s.phase = .idle
  · obtain ⟨hpar, htr, -⟩ := step_idle_kept hp hr hstep
    exact State.growsTo_of_trace_eq hpar htr
  · exact (step_wire hp hstep).growsTo

end Sys2Proof
end

section
/-! PROOFS. The state that reset leaves, what a step can do to the flow-control state, and the invariant. -/

namespace Sys2Proof.Machine

/-! ### What a step does to the flow-control state -/

/-- What a step can do to `S`, with the reset signal low (R36): nothing, the change that an accepted request makes, or
the commit of a block that the slave accepted or whose CRC matches. -/
inductive FlowStep (s t : State) : Prop
  | kept : t.fc = s.fc → FlowStep s t
  | asked (r : PortRequest) (rest : List PortRequest) (i : Instr) : s.phase = .idle → s.env.port = r :: rest →
      decodeRequest r = .ok i → t.results = s.results → fcAfter i s t.fc → FlowStep s t
  | sent (j : Nat) : s.phase = .wDresp j → t.results = s.results →
      s.fc.txSentBuffers + s.fc.units s.req.blockLength < 2 ^ s.params.cntW →
      t.fc = { s.fc with txSentBuffers := s.fc.txSentBuffers + s.fc.units s.req.blockLength } → FlowStep s t
  | got (j : Nat) : s.phase = .rCrc j true → t.results = s.results →
      s.fc.rxGotBytes + s.req.blockLength < 2 ^ s.params.cntW →
      t.fc = { s.fc with rxGotBytes := s.fc.rxGotBytes + s.req.blockLength } → FlowStep s t

theorem State.fail_fc (f : OpOutcome) (s : State) : (s.fail f).fc = s.fc := by
  obtain ⟨-, hfc, -⟩ := State.fail_fields f s
  exact hfc

theorem WireStep.flow {s t : State} (h : WireStep s t) : FlowStep s t := by
  cases h with
  | fails f e w _ _ _ => exact .kept (State.fail_fc f { s with env := e, trace := s.trace ++ w })
  | accepted j e b _ hp _ hlt => exact .sent j hp rfl hlt rfl
  | matched j e b _ hp _ hlt => exact .got j hp rfl hlt rfl
  | _ => exact .kept rfl

theorem step_idle_flow {s t : State} (hp : s.phase = .idle) (hr : s.env.resetLine = false) (h : step s = .next t) :
    FlowStep s t := by
  rcases step_idle hp hr h with ⟨-, rfl⟩ | ⟨r, rest, hport, ⟨f, -, rfl⟩ | ⟨i, hi, hreq⟩⟩
  · exact .kept rfl
  · exact .kept (State.fail_fc f _)
  · cases hreq with
    | refused f e _ _ => exact .kept (State.fail_fc f _)
    | accepted q bx p fc e _ _ hfc => exact .asked r rest i hp hport hi rfl hfc

/-- What a step with the reset signal low can do to `S`. -/
theorem step_flow {s t : State} (hr : s.env.resetLine = false) (h : step s = .next t) : FlowStep s t := by
  by_cases hp : s.phase = .idle
  · exact step_idle_flow hp hr h
  · exact (step_wire hp h).flow

/-- Of the requests only the commits, FC_RESET and CONFIG change `S`. -/
theorem fcAfter_changed {i : Instr} {s : State} {fc : FlowControl} (h : fcAfter i s fc) (hne : fc ≠ s.fc) :
    (∃ n, i = .commitSend n ∨ i = .commitRecv n) ∨ i = .fcReset ∨ ∃ bs bk, i = .config bs bk := by
  cases i with
  | commitSend n => exact .inl ⟨n, .inl rfl⟩
  | commitRecv n => exact .inl ⟨n, .inr rfl⟩
  | fcReset => exact .inr (.inl rfl)
  | config bs bk => exact .inr (.inr ⟨bs, bk, rfl⟩)
  | _ => exact absurd h hne

/-- No request other than FC_RESET decreases a counter (R35 (a)). -/
theorem fcAfter_counters_le {i : Instr} {s : State} {fc : FlowControl} (h : fcAfter i s fc) (hi : i ≠ .fcReset) :
    s.fc.txSentBuffers ≤ fc.txSentBuffers ∧ s.fc.rxGotBytes ≤ fc.rxGotBytes := by
  cases i with
  | commitSend n => obtain ⟨-, rfl⟩ := h; exact ⟨Nat.le_add_right _ _, le_rfl⟩
  | commitRecv n => obtain ⟨-, rfl⟩ := h; exact ⟨le_rfl, Nat.le_add_right _ _⟩
  | fcReset => exact absurd rfl hi
  | config bs bk => obtain ⟨-, -, -, rfl⟩ := h; exact ⟨le_rfl, le_rfl⟩
  | _ => obtain rfl := h; exact ⟨le_rfl, le_rfl⟩

/-! ### The invariant, part by part -/

/-- What the invariant says of `S`: configured sizes are legal and both counters fit CNT_W bits (R25, R26, R241). -/
def FlowControl.wf (p : Params) (fc : FlowControl) : Prop :=
  (fc.configured = true → 1 ≤ fc.bufferSize ∧ 1 ≤ fc.blockSize ∧ fc.blockSize ≤ Config.blockSizeMax) ∧
    fc.txSentBuffers < 2 ^ p.cntW ∧ fc.rxGotBytes < 2 ^ p.cntW

theorem State.inv_iff {s : State} :
    s.Inv ↔ s.params.legal ∧ Memory.wf s.mem ∧ s.fc.wf s.params ∧ s.phaseInv := by
  simp only [State.Inv, FlowControl.wf, and_assoc]

theorem fcAfter_wf {i : Instr} {s : State} {fc : FlowControl} (hs : s.fc.wf s.params) (h : fcAfter i s fc) :
    fc.wf s.params := by
  obtain ⟨hsizes, htx, hrx⟩ := hs
  cases i with
  | commitSend n => obtain ⟨hlt, rfl⟩ := h; exact ⟨hsizes, hlt, hrx⟩
  | commitRecv n => obtain ⟨hlt, rfl⟩ := h; exact ⟨hsizes, htx, hlt⟩
  | fcReset => obtain rfl := h; exact ⟨hsizes, Nat.two_pow_pos _, Nat.two_pow_pos _⟩
  | config bs bk => obtain ⟨hbs, hbk, hmax, rfl⟩ := h; exact ⟨fun _ => ⟨hbs, hbk, hmax⟩, htx, hrx⟩
  | _ => obtain rfl := h; exact ⟨hsizes, htx, hrx⟩

theorem FlowStep.fc_wf {s t : State} (hs : s.fc.wf s.params) (h : FlowStep s t) : t.fc.wf s.params := by
  obtain ⟨hsizes, htx, hrx⟩ := hs
  cases h with
  | kept hfc => rw [hfc]; exact ⟨hsizes, htx, hrx⟩
  | asked r rest i _ _ _ _ hfc => exact fcAfter_wf ⟨hsizes, htx, hrx⟩ hfc
  | sent j _ _ hlt hfc => rw [hfc]; exact ⟨hsizes, hlt, hrx⟩
  | got j _ _ hlt hfc => rw [hfc]; exact ⟨hsizes, htx, hlt⟩

theorem WireStep.mem_wf {s t : State} (hs : Memory.wf s.mem) (h : WireStep s t) : Memory.wf t.mem := by
  cases h with
  | fails f e w _ _ _ => exact State.fail_mem_wf (s := { s with env := e, trace := s.trace ++ w }) hs
  | matched j e b _ _ _ _ => exact memWriteBlock_wf hs
  | _ => exact hs

theorem State.fail_phaseInv (f : OpOutcome) (s : State) : (s.fail f).phaseInv := by
  obtain ⟨-, -, -, hp, hreq, hbx, hresp, -⟩ := State.fail_fields f s
  rw [State.phaseInv, hp]
  exact ⟨hreq, hbx, hresp⟩

/-- Hardware reset meets the invariant, whatever ran before it (R37). -/
theorem State.hardwareReset_inv {s : State} (hpar : s.params.legal) (hmem : Memory.wf s.mem) :
    s.hardwareReset.Inv :=
  State.inv_iff.2 ⟨hpar, hmem, ⟨Bool.noConfusion, Nat.two_pow_pos _, Nat.two_pow_pos _⟩, rfl, rfl, rfl⟩

/-! ### What each phase leads to -/

/-- The operation is complete where its data phase is: every payload byte moved (R187). -/
theorem State.phaseInv_of_moved {s : State} (hp : s.phase = .done) (ha : s.admitted) (hr : s.responded)
    (hd : s.bx.doneBytes = s.req.dataLen) : s.phaseInv := by
  rw [State.phaseInv, hp]
  obtain ⟨-, -, -, -, -, -, -, hop | ⟨hop, hdata⟩⟩ := id ha
  · simp only [hop]
    exact ⟨ha, hr, hd⟩
  · simp only [hop, hdata, if_true]
    exact ⟨hr, hd, fun _ => ha⟩

/-- A data phase starts with nothing moved, at the ready wait or at the first poll (R186). -/
theorem State.phaseInv_of_dataStart {s : State} (hp : s.phase = s.req.dataStart) (ha : s.admitted) (hr : s.responded)
    (hd : s.bx.doneBytes = 0) : s.phaseInv := by
  rw [State.phaseInv, hp, Request.dataStart]
  by_cases hw : s.req.flags.write = true
  · rw [if_pos hw]
    exact ⟨⟨ha, hr, hw, hd⟩, le_rfl⟩
  · rw [if_neg hw]
    have hblocks : 0 < s.bx.nblocks := by obtain ⟨-, -, -, -, hn, -⟩ := ha; exact hn
    exact ⟨⟨ha, hr, by simpa using hw, by rw [hd, Nat.zero_mul]⟩, hblocks, le_rfl⟩

/-- Where a response is complete the operation is done or its data phase starts (R186, R187). -/
theorem State.phaseInv_of_afterResponse {s : State} (hp : s.phase = s.req.afterResponse) (hb : s.beforeData)
    (hlen : s.resp.length = rspLen s.req.sel) : s.phaseInv := by
  obtain ⟨hdone, hop⟩ := hb
  cases op : s.req.op <;> simp only [op] at hop
  case decode =>
    have hp' : s.phase = .done := by rw [hp, Request.afterResponse, op]
    rw [State.phaseInv, hp']
    simpa only [op, State.responded] using hlen
  case execute =>
    obtain ⟨-, hadm⟩ := hop
    have hr : s.responded := by simpa only [State.responded, op] using hlen
    rw [Request.afterResponse, op] at hp
    by_cases hdata : s.req.flags.data = true
    · simp only [hdata, if_true] at hp
      exact State.phaseInv_of_dataStart hp (hadm hdata) hr hdone
    · simp only [hdata] at hp
      rw [State.phaseInv, hp]
      simp only [op, hdata]
      exact ⟨hr, hdone, fun h => Bool.noConfusion h⟩

theorem State.phaseInv_of_afterFrame {s : State} (hp : s.phase = s.req.afterFrame) (hb : s.beforeData)
    (hresp : s.resp = []) : s.phaseInv := by
  by_cases hsel : s.req.sel = .none
  · refine State.phaseInv_of_afterResponse (hp.trans ?_) hb (by simp [hresp, hsel, rspLen])
    rw [Request.afterFrame, hsel]
  · have hp' : s.phase = .rspScan 0 := by
      rw [hp, Request.afterFrame]
      split
      · exact absurd ‹_› hsel
      · rfl
    rw [State.phaseInv, hp']
    exact ⟨hb, hresp, hsel, Nat.zero_le _⟩

/-- After the last of `n` blocks every byte is moved. -/
theorem lastBlock_moved {j n bl : Nat} (hj : j < n) (hlast : ¬j + 1 < n) : j * bl + bl = n * bl := by
  obtain rfl : n = j + 1 := by omega
  rw [Nat.succ_mul]

/-- A written block's acceptance leads to the next block, to the stop token or to the end (R186). -/
theorem State.phaseInv_of_afterWrite {s t : State} {j : Nat} (hs : s.writing (j * s.req.blockLength))
    (hj : j < s.bx.nblocks) (hp : t.phase = s.afterWrite j) (ha : t.admitted) (hr : t.responded) (hreq : t.req = s.req)
    (hbx : t.bx = { s.bx with doneBytes := s.bx.doneBytes + s.req.blockLength }) : t.phaseInv := by
  obtain ⟨⟨-, -, hpos, -, -, hlen, -⟩, -, hw, hdone⟩ := hs
  rw [← hreq] at hdone hpos hlen hw
  have hmoved : t.bx.doneBytes = j * t.req.blockLength + t.req.blockLength := by rw [hbx, ← hdone, hreq]
  have hn : t.bx.nblocks = s.bx.nblocks := by rw [hbx]
  unfold State.afterWrite at hp
  split_ifs at hp with hnext hmulti
  · rw [State.phaseInv, hp]
    exact ⟨⟨ha, hr, hw, by rw [hmoved, Nat.succ_mul]⟩, hn ▸ hnext, hpos, fun h => absurd h (lt_irrefl 0)⟩
  · rw [State.phaseInv, hp]
    exact ⟨⟨ha, hr, hw, by rw [hmoved, lastBlock_moved hj hnext, hlen]⟩, hreq ▸ hmulti⟩
  · exact State.phaseInv_of_moved hp ha hr (by rw [hmoved, lastBlock_moved hj hnext, hlen])

/-- A read block's match leads to the poll for the next block or to the end (R186). -/
theorem State.phaseInv_of_afterRead {s t : State} {j : Nat} (hs : s.reading (j * s.req.blockLength))
    (hj : j < s.bx.nblocks) (hp : t.phase = s.afterRead j) (ha : t.admitted) (hr : t.responded) (hreq : t.req = s.req)
    (hbx : t.bx = { s.bx with doneBytes := s.bx.doneBytes + s.req.blockLength }) : t.phaseInv := by
  obtain ⟨⟨-, -, -, -, -, hlen, -⟩, -, hw, hdone⟩ := hs
  rw [← hreq] at hdone hlen hw
  have hmoved : t.bx.doneBytes = j * t.req.blockLength + t.req.blockLength := by rw [hbx, ← hdone, hreq]
  have hn : t.bx.nblocks = s.bx.nblocks := by rw [hbx]
  unfold State.afterRead at hp
  split_ifs at hp with hnext
  · rw [State.phaseInv, hp]
    exact ⟨⟨ha, hr, hw, by rw [hmoved, Nat.succ_mul]⟩, hn ▸ hnext, hreq ▸ le_rfl⟩
  · exact State.phaseInv_of_moved hp ha hr (by rw [hmoved, lastBlock_moved hj hnext, hlen])

/-- Every row of R186 leads to what its next phase says of the transient state. -/
theorem WireStep.phaseInv {s t : State} (hs : s.phaseInv) (h : WireStep s t) : t.phaseInv := by
  unfold State.phaseInv at hs
  cases h with
  | fails f e w _ _ _ => exact State.fail_phaseInv f _
  | frame e rx _ hp _ =>
    rw [hp] at hs
    obtain ⟨-, hb, hresp⟩ := hs
    exact State.phaseInv_of_afterFrame rfl hb hresp
  | scanIdle k e _ hp hk =>
    rw [hp] at hs
    obtain ⟨hb, hresp, hsel, -⟩ := hs
    exact ⟨hb, hresp, hsel, hk⟩
  | scanMarker k e b _ hp _ hb' =>
    rw [hp] at hs
    obtain ⟨hb, -, hsel, -⟩ := hs
    cases sel : s.req.sel with
    | none => exact absurd sel hsel
    | r1 => exact ⟨hb, sel, rfl⟩
    | r4 => exact ⟨hb, .inl sel, by decide, by simp [sel, rspLen], by simpa using hb', List.cons_ne_nil _ _⟩
    | r5 => exact ⟨hb, .inr sel, by decide, by simp [sel, rspLen], by simpa using hb', List.cons_ne_nil _ _⟩
  | rest r e b _ hp =>
    rw [hp] at hs
    obtain ⟨hb, hsel, hr, hlen, hhead, hne⟩ := hs
    by_cases hlast : r ≤ 1
    · refine State.phaseInv_of_afterResponse (if_pos hlast) hb ?_
      simp only [List.length_append, List.length_singleton]
      omega
    · rw [if_neg hlast]
      refine ⟨hb, hsel, by omega, ?_, ?_, by simp⟩
      · simp only [List.length_append, List.length_singleton]
        omega
      · rwa [List.head?_append_of_ne_nil _ hne]
  | status hp _ =>
    rw [hp] at hs
    obtain ⟨hb, hsel, hlen⟩ := hs
    exact State.phaseInv_of_afterResponse rfl hb (by simp only [hsel, hlen, rspLen])
  | ready p e b _ hp hpos =>
    rw [hp] at hs
    obtain ⟨hw, hle⟩ := hs
    by_cases hb : b = Config.idleByte
    · rw [if_pos hb]; exact hw
    · rw [if_neg hb]; exact ⟨hw, (Nat.sub_le p 1).trans hle⟩
  | token e x b _ hp =>
    rw [hp] at hs
    obtain ⟨ha, hr, hw, hd⟩ := hs
    obtain ⟨-, -, hpos, -, hn, -⟩ := id ha
    exact ⟨⟨ha, hr, hw, by simpa using hd⟩, hn, hpos, fun h => absurd h (lt_irrefl 0)⟩
  | data j i h e x b _ hp hheld =>
    rw [hp] at hs
    obtain ⟨hw, hj, -, hold⟩ := hs
    have hload : h = memReadBlock s.mem (s.req.blockAddr j) s.req.blockLength := by
      rw [hheld]
      split_ifs with hi
      · rfl
      · exact hold (Nat.pos_of_ne_zero hi)
    by_cases hnext : i + 1 < s.req.blockLength
    · rw [if_pos hnext]; exact ⟨hw, hj, hnext, fun _ => hload⟩
    · rw [if_neg hnext]; exact ⟨hw, hj, hload⟩
  | crc j low e x b _ hp =>
    rw [hp] at hs
    obtain ⟨hw, hj, hold⟩ := hs
    cases low with
    | false => exact ⟨hw, hj, hold⟩
    | true => exact ⟨hw, hj⟩
  | accepted j e b _ hp _ _ =>
    rw [hp] at hs
    obtain ⟨hw, hj⟩ := hs
    exact State.phaseInv_of_afterWrite hw hj rfl hw.1 hw.2.1 rfl rfl
  | stop e b _ hp =>
    rw [hp] at hs
    obtain ⟨hw, hm⟩ := hs
    exact ⟨hw, hm, le_rfl⟩
  | busy p e b _ hp hpos =>
    rw [hp] at hs
    obtain ⟨hw, hm, hle⟩ := hs
    by_cases hb : b = Config.idleByte
    · obtain ⟨ha, hr, -, hd⟩ := hw
      exact State.phaseInv_of_moved (if_pos hb) ha hr hd
    · rw [if_neg hb]; exact ⟨hw, hm, (Nat.sub_le p 1).trans hle⟩
  | poll j p e b _ hp hpos _ =>
    rw [hp] at hs
    obtain ⟨hrd, hj, hle⟩ := hs
    exact ⟨hrd, hj, (Nat.sub_le p 1).trans hle⟩
  | start j p e _ hp _ =>
    rw [hp] at hs
    obtain ⟨hrd, hj, -⟩ := hs
    obtain ⟨⟨-, -, hpos, -⟩, -⟩ := id hrd
    exact ⟨hrd, hj, hpos, rfl⟩
  | payload j i e b _ hp =>
    rw [hp] at hs
    obtain ⟨hrd, hj, hi, hlen⟩ := hs
    have hlen' : (s.bx.held ++ [b]).length = i + 1 := by simp [hlen]
    by_cases hnext : i + 1 < s.req.blockLength
    · rw [if_pos hnext]; exact ⟨hrd, hj, hnext, hlen'⟩
    · rw [if_neg hnext]; exact ⟨hrd, hj, hlen'.trans (Nat.le_antisymm hi (Nat.le_of_not_lt hnext))⟩
  | crcHigh j e b _ hp =>
    rw [hp] at hs
    exact hs
  | matched j e b _ hp _ _ =>
    rw [hp] at hs
    obtain ⟨hrd, hj, -⟩ := hs
    exact State.phaseInv_of_afterRead hrd hj rfl hrd.1 hrd.2.1 rfl rfl
  | done hp => exact ⟨rfl, rfl, rfl⟩

/-! ### What an accepted request latches -/

/-- What A1 to A5 establish of a transfer that they admit (R126). -/
theorem Request.Sound.admitted {t : State} (h : t.req.Sound) (hc : t.fc.configured = true)
    (hn : t.bx.nblocks = t.req.nblocks)
    (hop : t.req.op = .transfer ∨ (t.req.op = .execute ∧ t.req.flags.data = true)) : t.admitted :=
  ⟨hc, h.lent, h.pos, h.small, hn ▸ h.some, hn ▸ h.whole, hn ▸ h.single, hop⟩

/-- V1 bounds the command index (R166). -/
theorem Request.index_le_of_valid {r : Request} (h : ¬r.invalidDescriptor = true) : r.index ≤ 63 := by
  simp only [Request.invalidDescriptor, Bool.or_eq_true, decide_eq_true_eq, not_or] at h
  obtain ⟨⟨⟨⟨hindex, -⟩, -⟩, -⟩, -⟩ := h
  exact Nat.le_of_not_gt hindex

section

variable {s : State}

theorem startXfer_phaseInv {write multi : Bool} {x : XferArgs} (hp : s.phase = .idle) (hresp : s.resp = []) :
    Ensures State.phaseInv (startXfer write multi x s) := by
  rw [startXfer, atIdle_idle hp]
  refine xferAdmit_ensures (fun f cs d => State.fail_phaseInv f _) fun cs d hsound hc => ?_
  exact State.phaseInv_of_dataStart rfl (Request.Sound.admitted hsound hc rfl (.inl rfl)) hresp rfl

theorem reserve_phaseInv {op : Op} {n need : Nat} (hop : op = .reserveSend ∨ op = .reserveRecv)
    (hp : s.phase = .idle) (hresp : s.resp = []) :
    Ensures State.phaseInv (reserve (Request.ofBytes op n) need s) := by
  rw [reserve, atIdle_idle hp]
  split_ifs
  · exact State.fail_phaseInv _ _
  · refine availCredit_ensures (fun _ _ => State.fail_phaseInv _ _) fun a cs d => ?_
    simp only
    split_ifs
    · exact State.fail_phaseInv _ _
    · rcases hop with rfl | rfl <;> exact hresp

theorem startDecode_phaseInv {sel : Sel} (hsel : sel ≠ .none) (hp : s.phase = .idle) (hbx : s.bx = BlockXfer.blank)
    (hresp : s.resp = []) : Ensures State.phaseInv (startDecode sel s) := by
  rw [startDecode, atIdle_idle hp]
  exact ⟨⟨by simp [hbx, BlockXfer.blank], trivial⟩, hresp, hsel, Nat.zero_le _⟩

theorem execExecute_phaseInv {d : Descriptor} (hp : s.phase = .idle) (hbx : s.bx = BlockXfer.blank)
    (hresp : s.resp = []) : Ensures State.phaseInv (execExecute d s) := by
  rw [execExecute, atIdle_idle hp]
  split_ifs with hv hdata
  · exact State.fail_phaseInv _ _
  · refine xferAdmit_ensures (fun f cs d => State.fail_phaseInv f _) fun cs n hsound hc => ?_
    refine ⟨rfl, ⟨rfl, ?_, fun _ => Request.Sound.admitted hsound hc rfl (.inr ⟨rfl, hdata⟩)⟩, hresp⟩
    exact Request.index_le_of_valid hv
  · refine ⟨rfl, ⟨by simp [hbx, BlockXfer.blank], ?_, fun h => absurd h hdata⟩, hresp⟩
    exact Request.index_le_of_valid hv

end

/-- A request run in IDLE leaves the transient state that its next phase asks for. -/
theorem exec_phaseInv {i : Instr} {s : State} (hi : isRequest i = true) (hp : s.phase = .idle) (hs : s.phaseInv) :
    Ensures State.phaseInv (exec i s) := by
  rw [State.phaseInv, hp] at hs
  obtain ⟨-, hbx, hresp⟩ := hs
  have refuse : ∀ f s, Ensures State.phaseInv (raise f s) := State.fail_phaseInv
  cases i with
  | encode index arg =>
    simp only [exec, execEncode, atIdle_idle hp]
    split_ifs with hindex
    · exact refuse _ _
    · exact crcCall_ensures (fun _ _ => refuse _ _) fun es => ⟨Nat.le_of_not_gt hindex, hresp⟩
  | decodeNone =>
    simp only [exec, execDecodeNone, atIdle_idle hp]
    exact congrArg List.length hresp
  | decodeR1 => exact startDecode_phaseInv (by decide) hp hbx hresp
  | decodeR4 => exact startDecode_phaseInv (by decide) hp hbx hresp
  | decodeR5 => exact startDecode_phaseInv (by decide) hp hbx hresp
  | xferWrSingle x => exact startXfer_phaseInv hp hresp
  | xferWrMulti x => exact startXfer_phaseInv hp hresp
  | xferRdSingle x => exact startXfer_phaseInv hp hresp
  | xferRdMulti x => exact startXfer_phaseInv hp hresp
  | execute d => exact execExecute_phaseInv hp hbx hresp
  | reserveSend n => exact reserve_phaseInv (.inl rfl) hp hresp
  | reserveRecv n => exact reserve_phaseInv (.inr rfl) hp hresp
  | commitSend n =>
    simp only [exec, execCommitSend, atIdle_idle hp]
    split_ifs
    · exact refuse _ _
    · exact commitSendUnits_ensures fun _ => hresp
  | commitRecv n =>
    simp only [exec, execCommitRecv, atIdle_idle hp]
    split_ifs
    · exact refuse _ _
    · exact commitRecvBytes_ensures fun _ => hresp
  | fcReset =>
    simp only [exec, execFcReset, atIdle_idle hp]
    exact hresp
  | config bs bk =>
    simp only [exec, execConfig, atIdle_idle hp]
    split_ifs
    · exact refuse _ _
    · exact hresp
  | reservedAB b =>
    simp only [exec, execReservedAB, atIdle_idle hp]
    exact refuse _ _
  | reservedCF b =>
    simp only [exec, execReservedCF, atIdle_idle hp]
    exact refuse _ _
  | _ => exact Bool.noConfusion hi

/-- In IDLE the next step waits, refuses the request at the port, or runs it. -/
theorem fetch_idle_ensures {P : State → Prop} {s : State} (hp : s.phase = .idle) (hwait : P s)
    (hrefuse : ∀ rest, P (State.fail .invalidCommand { s with env := { s.env with port := rest } }))
    (hrun : ∀ r rest i, decodeRequest r = .ok i →
      Ensures P (exec i { s with env := { s.env with port := rest } })) : Ensures P (fetch exec s) := by
  rw [fetch_idle hp]
  split
  · exact hwait
  · next r rest _ =>
    unfold fetchRequest
    split
    · exact hrefuse rest
    · next i hi =>
      split_ifs
      · exact hrun r rest i hi
      · exact ensures_fault

theorem step_idle_phaseInv {s t : State} (hp : s.phase = .idle) (hr : s.env.resetLine = false) (hs : s.phaseInv)
    (h : step s = .next t) : t.phaseInv := by
  rw [step_fetch hr] at h
  refine ensures_iff.1 (fetch_idle_ensures hp hs (fun _ => State.fail_phaseInv _ _) fun r rest i hi => ?_) t h
  exact exec_phaseInv (s := { s with env := { s.env with port := rest } }) (decodeRequest_isRequest hi) hp hs

theorem step_inv {s t : State} (hs : s.Inv) (h : step s = .next t) : t.Inv := by
  obtain ⟨hpar, hmem, hfc, hph⟩ := State.inv_iff.1 hs
  cases hr : s.env.resetLine with
  | true =>
    obtain ⟨-, rfl⟩ := step_reset hr h
    exact State.hardwareReset_inv hpar hmem
  | false =>
    have hfc' : t.fc.wf s.params := (step_flow hr h).fc_wf hfc
    by_cases hp : s.phase = .idle
    · obtain ⟨hpar', -, hmem'⟩ := step_idle_kept hp hr h
      exact State.inv_iff.2
        ⟨hpar' ▸ hpar, hmem' ▸ hmem, hpar' ▸ hfc', step_idle_phaseInv hp hr hph h⟩
    · have hw : WireStep s t := step_wire hp h
      obtain ⟨hpar', -⟩ := hw.growsTo
      exact State.inv_iff.2 ⟨hpar' ▸ hpar, hw.mem_wf hmem, hpar' ▸ hfc', hw.phaseInv hph⟩

end Sys2Proof.Machine

namespace Sys2Proof

open Machine

/-- Settles O57: the parameters stay, memory keeps its canonical form, `S` changes by bounded sums alone, and every step
leads to what its next phase says of the transient state. -/
theorem invariantKept : Obligations.InvariantKept := fun _ _ hs h => step_inv hs h

/-- Settles O46: only the commits, FC_RESET, CONFIG and a completed block change `S`. -/
theorem flowStateChanges : Obligations.FlowStateChanges := by
  intro s t hr hstep hne
  cases step_flow hr hstep with
  | kept hfc => exact absurd hfc hne
  | asked r rest i hp hport hi hres hfc =>
    exact ⟨hres, .inl ⟨hp, r, rest, i, hport, hi, fcAfter_changed hfc hne⟩⟩
  | sent j hp hres _ hfc => exact ⟨hres, .inr (.inl ⟨j, hp, hfc⟩)⟩
  | got j hp hres _ hfc => exact ⟨hres, .inr (.inr ⟨j, hp, hfc⟩)⟩

/-- Settles O47: whatever changes `S` adds to a counter or leaves it, FC_RESET excepted. -/
theorem countersNeverDecrease : Obligations.CountersNeverDecrease := by
  intro s t hr hstep hno
  cases step_flow hr hstep with
  | kept hfc => rw [hfc]; exact ⟨le_rfl, le_rfl⟩
  | asked r rest i hp hport hi _ hfc =>
    exact fcAfter_counters_le hfc fun hreset => hno hp r rest hport (hreset ▸ hi)
  | sent j _ _ _ hfc => rw [hfc]; exact ⟨Nat.le_add_right _ _, le_rfl⟩
  | got j _ _ _ hfc => rw [hfc]; exact ⟨le_rfl, Nat.le_add_right _ _⟩

/-- Settles O1: the values that R37 gives. -/
theorem resetState : Obligations.ResetState := ⟨rfl, rfl, rfl, rfl, rfl, rfl⟩

/-- Settles O2: State.reset is what hardware reset makes of itself. -/
theorem resetMeetsInvariant : Obligations.ResetMeetsInvariant :=
  State.hardwareReset_inv (s := State.reset) ⟨by decide, by decide⟩ ⟨.nil, fun _ h => absurd h List.not_mem_nil⟩

end Sys2Proof
end

section
/-! PROOFS. Nothing that a step does depends on `S.block_size` or on HOST_IF_MAP: every operation takes two states that
differ in them alone to two such states. -/

namespace Sys2Proof.Machine

/-! ### States that differ in the unread fields -/

/-- `s` with another HOST_IF_MAP and another `S.block_size`. -/
def State.relabel (m : Option HostIfMap) (b : Nat) (s : State) : State :=
  { s with params := { s.params with hostIfMap := m }, fc := { s.fc with blockSize := b } }

section

variable (m : Option HostIfMap) (b : Nat) (s : State)

@[simp] theorem State.relabel_req : (s.relabel m b).req = s.req := rfl
@[simp] theorem State.relabel_phase : (s.relabel m b).phase = s.phase := rfl
@[simp] theorem State.relabel_env : (s.relabel m b).env = s.env := rfl
@[simp] theorem State.relabel_creditW : (s.relabel m b).params.creditW = s.params.creditW := rfl
@[simp] theorem State.relabel_wf (i : Instr) : i.wf (s.relabel m b).params = i.wf s.params := by
  cases i <;> rfl

theorem State.relabel_fail (f : OpOutcome) : (s.relabel m b).fail f = (s.fail f).relabel m b := by
  unfold State.fail State.spoilRead
  rw [State.relabel_phase]
  cases s.phase <;> rfl

theorem State.relabel_finish : (s.relabel m b).finish = s.finish.relabel m b := rfl

end

/-- `t'` is `t` but for HOST_IF_MAP, which is the same where `keepMap` holds, and `S.block_size`, which is the same where
`keepSize` holds. -/
def Twins (keepMap keepSize : Prop) (t t' : State) : Prop :=
  ∃ m b, t' = t.relabel m b ∧ (keepMap → m = t.params.hostIfMap) ∧ (keepSize → b = t.fc.blockSize)

/-- `k` reads neither field: it takes twins to outcomes of one kind, and next states that are twins. -/
def Blind (keepMap keepSize : Prop) (k : State → Out) : Prop :=
  ∀ t t', Twins keepMap keepSize t t' → Agree (Twins keepMap keepSize) (k t) (k t')

theorem Agree.mono {R Q : State → State → Prop} (h : ∀ t t', R t t' → Q t t') {o o' : Out} (hr : Agree R o o') :
    Agree Q o o' := by
  cases o <;> cases o'
  case next.next t t' => exact h t t' hr
  all_goals exact hr

section

/-! `c` and `d` say which of the two fields twins agree in: HOST_IF_MAP under `c`, `S.block_size` under `d`. -/

variable {c d : Prop}

theorem blind_iff {k : State → Out} : Blind c d k ↔
    ∀ s m b, (c → m = s.params.hostIfMap) → (d → b = s.fc.blockSize) →
      Agree (Twins c d) (k s) (k (s.relabel m b)) :=
  ⟨fun h s m b hm hb => h s _ ⟨m, b, rfl, hm, hb⟩, fun h s _ ⟨m, b, ht, hm, hb⟩ => ht ▸ h s m b hm hb⟩

/-- The update `u` goes the same way for every label and keeps both fields. -/
def Carries (u : State → State) : Prop :=
  ∀ s m b, u (s.relabel m b) = (u s).relabel m b ∧ (u s).params.hostIfMap = s.params.hostIfMap ∧
    (u s).fc.blockSize = s.fc.blockSize

theorem Carries.twins {u : State → State} (hu : Carries u) {t t' : State} (h : Twins c d t t') :
    Twins c d (u t) (u t') := by
  obtain ⟨m, b, rfl, hm, hb⟩ := h
  obtain ⟨hlabel, hmap, hsize⟩ := hu t m b
  exact ⟨m, b, hlabel, hmap ▸ hm, hsize ▸ hb⟩

theorem next_blind {u : State → State} (hu : Carries u := by exact fun _ _ _ => ⟨rfl, rfl, rfl⟩) :
    Blind c d fun s => .next (u s) := fun _ _ h => hu.twins h

theorem fault_blind (f : Fault) : Blind c d fun _ => .fault f := fun _ _ _ => rfl

theorem raise_blind (f : OpOutcome) : Blind c d (raise f) :=
  next_blind fun s m b => by
    obtain ⟨hpar, hfc, -⟩ := State.fail_fields f s
    exact ⟨State.relabel_fail m b s f, by rw [hpar], by rw [hfc]⟩

/-- An update before a blind rest. -/
theorem Blind.comp {k : State → Out} {u : State → State} (hk : Blind c d k)
    (hu : Carries u := by exact fun _ _ _ => ⟨rfl, rfl, rfl⟩) : Blind c d fun s => k (u s) :=
  fun _ _ h => hk _ _ (hu.twins h)

/-- A rest that depends on a part of the state in which neither field shows. -/
theorem Blind.view {α : Type} {k : α → State → Out} {v : State → α} (hk : ∀ a, Blind c d (k a))
    (hv : ∀ s m b, v (s.relabel m b) = v s := by exact fun _ _ _ => rfl) : Blind c d fun s => k (v s) s :=
  blind_iff.2 fun s m b hm hb => by
    rw [hv]
    exact hk _ _ _ ⟨m, b, rfl, hm, hb⟩

/-- A check in which neither field shows. -/
theorem Blind.ite {p : State → Prop} {_ : DecidablePred p} {k k' : State → Out} (hk : Blind c d k)
    (hk' : Blind c d k') (hp : ∀ s m b, p (s.relabel m b) ↔ p s := by exact fun _ _ _ => Iff.rfl) :
    Blind c d fun s => if p s then k s else k' s :=
  blind_iff.2 fun s m b hm hb => by
    by_cases h : p s
    · rw [if_pos h, if_pos ((hp s m b).2 h)]
      exact hk _ _ ⟨m, b, rfl, hm, hb⟩
    · rw [if_neg h, if_neg (mt (hp s m b).1 h)]
      exact hk' _ _ ⟨m, b, rfl, hm, hb⟩

/-! ### The shared operations -/

theorem xfer_blind {x : Byte} {k : Byte → State → Out} (hk : ∀ r, Blind c d (k r)) :
    Blind c d fun s => xfer x s k :=
  blind_iff.2 fun s m b hm hb => by
    simp only [xfer, State.relabel_env, State.relabel_phase]
    rcases s.env.nextWire with ⟨r | code, e⟩
    · exact hk r _ _ ⟨m, b, rfl, hm, hb⟩
    · exact raise_blind _ _ _ ⟨m, b, rfl, hm, hb⟩

theorem pull_blind {k : Byte → State → Out} (hk : ∀ r, Blind c d (k r)) : Blind c d fun s => pull s k :=
  xfer_blind hk

theorem push_blind {x : Byte} {k : State → Out} (hk : Blind c d k) : Blind c d fun s => push x s k :=
  xfer_blind fun _ => hk

theorem xferN_blind {xs : List Byte} {k : List Byte → State → Out} (hk : ∀ rs, Blind c d (k rs)) :
    Blind c d fun s => xferN xs s k :=
  blind_iff.2 fun s m b hm hb => by
    simp only [xferN, State.relabel_env, State.relabel_phase]
    rcases Env.nextWires xs.length s.env with ⟨code | rs, e⟩
    · exact raise_blind _ _ _ ⟨m, b, rfl, hm, hb⟩
    · exact hk rs _ _ ⟨m, b, rfl, hm, hb⟩

theorem crcCall_blind {col : Collab} {k : State → Out} (hk : Blind c d k) : Blind c d fun s => crcCall col s k :=
  blind_iff.2 fun s m b hm hb => by
    simp only [crcCall, State.relabel_env, State.relabel_phase]
    rcases s.env.crcErrs with _ | ⟨_ | code, rest⟩
    · exact hk _ _ ⟨m, b, rfl, hm, hb⟩
    · exact hk _ _ ⟨m, b, rfl, hm, hb⟩
    · exact raise_blind _ _ _ ⟨m, b, rfl, hm, hb⟩

theorem availCredit_blind {k : Nat → State → Out} (hk : ∀ a, Blind c d (k a)) :
    Blind c d fun s => availCredit s k :=
  blind_iff.2 fun s m b hm hb => by
    simp only [availCredit, State.relabel_env, State.relabel_phase, State.relabel_creditW]
    rcases s.env.credit with _ | ⟨n | code, rest⟩
    · exact hk _ _ _ ⟨m, b, rfl, hm, hb⟩
    · exact hk _ _ _ ⟨m, b, rfl, hm, hb⟩
    · exact raise_blind _ _ _ ⟨m, b, rfl, hm, hb⟩

theorem commitSendUnits_blind {n : State → Nat} {k : State → Out} (hk : Blind c d k)
    (hn : ∀ s m b, n (s.relabel m b) = n s := by exact fun _ _ _ => rfl) :
    Blind c d fun s => commitSendUnits (n s) s k :=
  .view (k := fun n s => commitSendUnits n s k) (fun _ => .ite hk.comp (fault_blind _)) hn

theorem commitRecvBytes_blind {n : State → Nat} {k : State → Out} (hk : Blind c d k)
    (hn : ∀ s m b, n (s.relabel m b) = n s := by exact fun _ _ _ => rfl) :
    Blind c d fun s => commitRecvBytes (n s) s k :=
  .view (k := fun n s => commitRecvBytes n s k) (fun _ => .ite hk.comp (fault_blind _)) hn

theorem atIdle_blind {k : State → Out} (hk : Blind c d k) : Blind c d fun s => atIdle s k :=
  .ite hk next_blind

theorem xferAdmit_blind {k : Nat → State → Out} (hk : ∀ n, Blind c d (k n)) : Blind c d fun s => xferAdmit s k :=
  .ite (raise_blind _) <| .ite (raise_blind _) <| .ite (raise_blind _) <| .ite (raise_blind _) <|
    availCredit_blind fun _ => .ite (raise_blind _) (.view hk)

/-! ### The requests -/

theorem startXfer_blind (write multi : Bool) (x : XferArgs) : Blind c d (startXfer write multi x) :=
  atIdle_blind (xferAdmit_blind fun _ => next_blind).comp

theorem startDecode_blind (sel : Sel) : Blind c d (startDecode sel) := atIdle_blind next_blind

theorem reserve_blind (r : Request) (need : Nat) : Blind c d (reserve r need) :=
  atIdle_blind <| .ite (raise_blind _).comp (availCredit_blind fun _ => .ite (raise_blind _) next_blind).comp

theorem execEncode_blind (index : Nat) (arg : Word32) : Blind c d (execEncode index arg) :=
  atIdle_blind <| .ite (raise_blind _).comp (crcCall_blind next_blind).comp

theorem execExecute_blind (x : Descriptor) : Blind c d (execExecute x) :=
  atIdle_blind <| .ite (raise_blind _).comp <|
    .ite (xferAdmit_blind fun _ => next_blind).comp next_blind

theorem execCommitSend_blind (n : Nat) : Blind c d (execCommitSend n) :=
  atIdle_blind <| .ite (raise_blind _).comp (commitSendUnits_blind (n := fun _ => n) next_blind).comp

theorem execCommitRecv_blind (n : Nat) : Blind c d (execCommitRecv n) :=
  atIdle_blind <| .ite (raise_blind _).comp (commitRecvBytes_blind (n := fun _ => n) next_blind).comp

/-- CONFIG writes `S.block_size` without reading it (R156). -/
theorem execConfig_blind (bs bk : Nat) : Blind c d (execConfig bs bk) :=
  atIdle_blind <| .ite (raise_blind _).comp <|
    blind_iff.2 fun _ m _ hm _ => ⟨m, bk, rfl, hm, fun _ => rfl⟩

/-! ### The wire items -/

theorem execCmdFrame_blind (index : BitVec 6) (arg : Word32) (crc : BitVec 7) :
    Blind c d (execCmdFrame index arg crc) :=
  blind_iff.2 fun s m b hm hb => by
    simp only [execCmdFrame, State.relabel_phase]
    cases s.phase with
    | frame => exact xferN_blind (fun _ => next_blind) _ _ ⟨m, b, rfl, hm, hb⟩
    | _ => rfl

theorem execIdle_blind : Blind c d execIdle :=
  blind_iff.2 fun s m b hm hb => by
    simp only [execIdle, State.relabel_phase]
    cases s.phase with
    | rspScan k => exact ⟨m, b, rfl, hm, hb⟩
    | wReady p => exact ⟨m, b, rfl, hm, hb⟩
    | wBusy p => exact ⟨m, b, rfl, hm, hb⟩
    | rPoll j p => exact ⟨m, b, rfl, hm, hb⟩
    | _ => rfl

theorem execTokStartSingle_blind : Blind c d execTokStartSingle :=
  blind_iff.2 fun s m b hm hb => by
    simp only [execTokStartSingle, State.relabel_phase]
    cases s.phase with
    | wToken => exact push_blind next_blind _ _ ⟨m, b, rfl, hm, hb⟩
    | rPoll j p => exact ⟨m, b, rfl, hm, hb⟩
    | _ => rfl

theorem execTokStartMultiWr_blind : Blind c d execTokStartMultiWr :=
  blind_iff.2 fun s m b hm hb => by
    simp only [execTokStartMultiWr, State.relabel_phase]
    cases s.phase with
    | wToken => exact push_blind next_blind _ _ ⟨m, b, rfl, hm, hb⟩
    | _ => rfl

theorem execTokStop_blind : Blind c d execTokStop :=
  blind_iff.2 fun s m b hm hb => by
    simp only [execTokStop, State.relabel_phase]
    cases s.phase with
    | wStop => exact push_blind next_blind _ _ ⟨m, b, rfl, hm, hb⟩
    | _ => rfl

theorem execDataBlock_blind (payload : List Byte) (crc : BitVec 16) : Blind c d (execDataBlock payload crc) :=
  blind_iff.2 fun s m b hm hb => by
    simp only [execDataBlock, State.relabel_phase]
    cases s.phase with
    | wData j i => exact push_blind next_blind _ _ ⟨m, b, rfl, hm, hb⟩
    | wCrc j low => cases low <;> exact push_blind next_blind _ _ ⟨m, b, rfl, hm, hb⟩
    | rCrc j low =>
      cases low with
      | false => rfl
      | true =>
        have commit : Blind c d fun s => commitRecvBytes s.req.blockLength s fun s =>
            .next (s.blockDone (s.afterRead j)) := commitRecvBytes_blind next_blind
        exact crcCall_blind (.ite (p := fun s => crc = crc16 s.params payload)
          (commit.comp (u := fun s => { s with mem := memWriteBlock s.mem (s.req.blockAddr j) payload }))
          (raise_blind _)) _ _ ⟨m, b, rfl, hm, hb⟩
    | _ => rfl

theorem execDataResp_blind (x : Byte) : Blind c d (execDataResp x) :=
  blind_iff.2 fun s m b hm hb => by
    simp only [execDataResp, State.relabel_phase]
    cases s.phase with
    | wDresp j =>
      have commit : Blind c d fun s => commitSendUnits s.req.blockLength s fun s =>
          .next (s.blockDone (s.afterWrite j)) := commitSendUnits_blind next_blind
      exact Blind.ite (p := fun s => drespAccepted s.params x = true) commit (raise_blind _)
        (fun _ _ _ => Iff.rfl) _ _ ⟨m, b, rfl, hm, hb⟩
    | _ => rfl

theorem execRspR1_blind (x : Byte) : Blind c d (execRspR1 x) :=
  blind_iff.2 fun s m b hm hb => by
    simp only [execRspR1, State.relabel_phase]
    cases s.phase with
    | rspScan k => exact ⟨m, b, rfl, hm, hb⟩
    | _ => rfl

theorem takeResponse_blind (bytes : List Byte) : Blind c d (takeResponse bytes) :=
  blind_iff.2 fun s m b hm hb => by
    simp only [takeResponse, State.relabel_phase]
    cases s.phase with
    | rspRest r => exact ⟨m, b, rfl, hm, hb⟩
    | _ => rfl

/-- No instruction reads either field. -/
theorem exec_blind (i : Instr) : Blind c d (exec i) := by
  cases i with
  | encode index arg => exact execEncode_blind index arg
  | decodeNone => exact atIdle_blind next_blind
  | decodeR1 => exact startDecode_blind .r1
  | decodeR4 => exact startDecode_blind .r4
  | decodeR5 => exact startDecode_blind .r5
  | xferWrSingle x => exact startXfer_blind true false x
  | xferWrMulti x => exact startXfer_blind true true x
  | xferRdSingle x => exact startXfer_blind false false x
  | xferRdMulti x => exact startXfer_blind false true x
  | execute x => exact execExecute_blind x
  | reserveSend n => exact .view (v := fun s => s.fc.units n) (reserve_blind (Request.ofBytes .reserveSend n))
  | reserveRecv n => exact reserve_blind (Request.ofBytes .reserveRecv n) n
  | commitSend n => exact execCommitSend_blind n
  | commitRecv n => exact execCommitRecv_blind n
  | fcReset => exact atIdle_blind next_blind
  | config bs bk => exact execConfig_blind bs bk
  | reservedAB _ => exact atIdle_blind (raise_blind _)
  | reservedCF _ => exact atIdle_blind (raise_blind _)
  | cmdFrame index arg crc => exact execCmdFrame_blind index arg crc
  | idle => exact execIdle_blind
  | tokStartSingle => exact execTokStartSingle_blind
  | tokStartMultiWr => exact execTokStartMultiWr_blind
  | tokStop => exact execTokStop_blind
  | dataBlock payload crc => exact execDataBlock_blind payload crc
  | dataResp x => exact execDataResp_blind x
  | rspR1 x => exact execRspR1_blind x
  | rspR4 x p1 p2 p3 p4 => exact takeResponse_blind [x, p1, p2, p3, p4]
  | rspR5 x p1 => exact takeResponse_blind [x, p1]

/-! ### The sequencer -/

theorem received_blind (f : WireFormat) (bytes : List Byte) : Blind c d (received f bytes exec) := by
  unfold received
  split
  · exact exec_blind _
  · exact fault_blind _

theorem fetchRequest_blind (r : PortRequest) : Blind c d (fetchRequest exec r) := by
  unfold fetchRequest
  split
  · exact raise_blind _
  · next i _ => exact .ite (exec_blind i) (fault_blind _) fun s m b => by rw [State.relabel_wf]

theorem fetchScan_blind (k : Nat) : Blind c d (fetchScan exec k) :=
  .ite (raise_blind _) <| pull_blind fun x => .ite (received_blind _ _) <|
    blind_iff.2 fun s m b hm hb => by
      simp only [State.relabel_req]
      cases s.req.sel with
      | r1 => exact received_blind _ _ _ _ ⟨m, b, rfl, hm, hb⟩
      | _ => exact ⟨m, b, rfl, hm, hb⟩

theorem fetchRest_blind (r : Nat) : Blind c d (fetchRest exec r) :=
  pull_blind fun x => .ite
    (.view (v := fun s => s.resp ++ [x]) fun bytes => .view (v := fun s => restFormat s.req.sel)
      fun f => received_blind f bytes)
    next_blind

theorem fetchWait_blind (p : Nat) (again : Phase) : Blind c d (fetchWait exec p again) :=
  .ite (raise_blind _) <| pull_blind fun _ => .ite (received_blind _ _) next_blind

theorem fetchPoll_blind (j p : Nat) : Blind c d (fetchPoll exec j p) :=
  .ite (raise_blind _) <| pull_blind fun _ => .ite (received_blind _ _) <| .ite (received_blind _ _) next_blind

theorem statusCheck_blind : Blind c d statusCheck :=
  blind_iff.2 fun s m b hm hb => by
    simp only [statusCheck, State.relabel_req]
    cases s.req.op with
    | execute =>
      exact Blind.ite (p := fun s => isFatal s.params s.req.index (s.resp.headD 0) = true)
        (.view (v := fun s => .statusError (s.resp.headD 0)) raise_blind)
        (next_blind (u := fun s => s.goto s.req.afterResponse)) (fun _ _ _ => Iff.rfl) _ _ ⟨m, b, rfl, hm, hb⟩
    | _ => exact ⟨m, b, rfl, hm, hb⟩

theorem fetch_blind : Blind c d (fetch exec) :=
  blind_iff.2 fun s m b hm hb => by
    have twins : Twins c d s (s.relabel m b) := ⟨m, b, rfl, hm, hb⟩
    have held : Blind c d fun s => exec s.heldBlock s := .view exec_blind
    simp only [fetch, State.relabel_phase]
    cases s.phase with
    | idle =>
      simp only [State.relabel_env]
      cases s.env.port with
      | nil => exact twins
      | cons r rest => exact fetchRequest_blind r _ _ ⟨m, b, rfl, hm, hb⟩
    | frame => exact crcCall_blind (.view exec_blind) _ _ twins
    | rspScan k => exact fetchScan_blind k _ _ twins
    | rspRest r => exact fetchRest_blind r _ _ twins
    | status => exact statusCheck_blind _ _ twins
    | wReady p => exact fetchWait_blind p _ _ _ twins
    | wToken => exact exec_blind _ _ _ twins
    | wData j i =>
      cases i with
      | zero => exact (held.comp (u := State.loadBlock j)) _ _ twins
      | succ i => exact held _ _ twins
    | wCrc j low =>
      cases low with
      | false => exact crcCall_blind held _ _ twins
      | true => exact held _ _ twins
    | wDresp j => exact pull_blind (fun _ => received_blind _ _) _ _ twins
    | wStop => exact exec_blind _ _ _ twins
    | wBusy p => exact fetchWait_blind p _ _ _ twins
    | rPoll j p => exact fetchPoll_blind j p _ _ twins
    | rData j i => exact pull_blind (fun _ => next_blind) _ _ twins
    | rCrc j low =>
      cases low with
      | false => exact pull_blind (fun _ => next_blind) _ _ twins
      | true =>
        exact pull_blind (fun x => .view (v := fun s => s.bx.held ++ [s.bx.crcHi, x]) (received_blind .dataBlock))
          _ _ twins
    | done => exact ⟨m, b, State.relabel_finish m b s, hm, hb⟩

/-- No step reads either field. Hardware reset writes `S.block_size` (log entry 2). -/
theorem step_blind : Blind c d step :=
  .ite (.ite (blind_iff.2 fun _ m _ hm _ => ⟨m, 0, rfl, hm, fun _ => rfl⟩) (fault_blind _)) fetch_blind

end

end Sys2Proof.Machine

namespace Sys2Proof

open Machine

/-- Settles O48: a step takes states that differ in the unread fields to such states, and the field that was the same
stays the same. -/
theorem blockSizeUnread : Obligations.BlockSizeUnread := by
  refine ⟨fun s m => ?_, fun s b => ?_⟩
  · refine Agree.mono ?_ (step_blind (c := False) (d := True) s _ ⟨m, s.fc.blockSize, rfl, False.elim, fun _ => rfl⟩)
    rintro t _ ⟨m', b', rfl, -, hb⟩
    obtain rfl := hb trivial
    rfl
  · refine Agree.mono ?_
      (step_blind (c := True) (d := False) s _ ⟨s.params.hostIfMap, b, rfl, fun _ => rfl, False.elim⟩)
    rintro t _ ⟨m', b', rfl, hm, -⟩
    obtain rfl := hm trivial
    rfl

end Sys2Proof
end

section
/-! PROOFS. What accepting a request leaves unchanged, the checks A1 to A5 of a TRANSFER, and the received block. -/

namespace Sys2Proof.Machine

/-! ### What a failure leaves -/

theorem State.fail_failedWith (f : OpOutcome) (s : State) : (s.fail f).failedWith f := by
  obtain ⟨-, -, -, hp, hreq, hbx, hresp, hres⟩ := State.fail_fields f s
  exact ⟨hp, hres, hreq, hbx, hresp⟩

theorem State.fail_trace (f : OpOutcome) (s : State) : (s.fail f).trace = s.trace := by
  obtain ⟨-, -, htr, -⟩ := State.fail_fields f s
  exact htr

/-- A failure in the last phase of a block being read changes memory from that block to the end of the buffer alone
(R68). -/
theorem State.memRead_fail_outside {f : OpOutcome} {s : State} {j a : Nat} (hp : s.phase = .rCrc j true)
    (hwf : Memory.wf s.mem)
    (ha : a < s.req.blockAddr j ∨ s.req.blockAddr j + (s.req.dataLen - j * s.req.blockLength) ≤ a) :
    memRead (s.fail f).mem a = memRead s.mem a := by
  simp only [State.fail, State.spoilRead, hp]
  exact memRead_memSpoil_outside hwf ha

/-- In IDLE a failure is the end of the operation with that outcome: there is no buffer to spoil. -/
theorem State.fail_idle {f : OpOutcome} {s : State} (hp : s.phase = .idle) :
    s.fail f = s.endOperation (Results.only f) := by
  simp only [State.fail, State.spoilRead, hp]
  rfl

/-- Refusing a latched request in IDLE discards what was latched (R211). -/
theorem raise_latch {f : OpOutcome} {s : State} {r : Request} (hp : s.phase = .idle) :
    raise f (s.latch r) = .next (s.endOperation (Results.only f)) := by
  rw [raise, State.fail_latch hp, State.fail_idle hp]

/-! ### What a request leaves unchanged -/

/-- A request outside IDLE waits and nothing happens (R191). -/
theorem exec_request_busy {i : Instr} {s : State} (hi : isRequest i = true) (hp : s.phase ≠ .idle) :
    exec i s = .next s := by
  cases i
  case cmdFrame | idle | tokStartSingle | tokStartMultiWr | tokStop | dataBlock | dataResp | rspR1 | rspR4 | rspR5 =>
    exact Bool.noConfusion hi
  all_goals exact if_neg hp

theorem RequestStep.asked {i : Instr} {s t : State} (h : RequestStep i s t) : s.env.Asked t.env := by
  cases h with
  | refused f e he _ =>
    obtain ⟨hport, hreset, hslave⟩ := State.fail_port f { s with env := e }
    obtain ⟨hport', hreset', hslave'⟩ := he
    exact ⟨hport.trans hport', hreset.trans hreset', hslave.trans hslave'⟩
  | accepted r bx p fc e he _ _ => exact he

theorem RequestStep.registers {i : Instr} {s t : State} (h : RequestStep i s t) :
    (t.resp = s.resp ∧ t.results = s.results) ∨ ∃ f, t.failedWith f := by
  cases h with
  | refused f e _ _ => exact .inr ⟨f, State.fail_failedWith f _⟩
  | accepted r bx p fc e _ _ _ => exact .inl ⟨rfl, rfl⟩

theorem RequestStep.fc {i : Instr} {s t : State} (h : RequestStep i s t) : t.fc = s.fc ∨ fcAfter i s t.fc := by
  cases h with
  | refused f e _ _ => exact .inl (State.fail_fc f _)
  | accepted r bx p fc e _ _ hfc => exact .inr hfc

/-- The frame of a request, in IDLE and outside it. -/
theorem exec_request_frame {i : Instr} {s t : State} (hi : isRequest i = true) (h : exec i s = .next t) :
    t.trace = s.trace ∧ t.mem = s.mem ∧ t.params = s.params ∧ s.env.Asked t.env ∧
      ((t.resp = s.resp ∧ t.results = s.results) ∨ ∃ f, t.failedWith f) ∧ (t.fc = s.fc ∨ fcAfter i s t.fc) := by
  by_cases hp : s.phase = .idle
  · have hreq : RequestStep i s t := ensures_iff.1 (exec_request hi hp) t h
    obtain ⟨hpar, htr, hmem⟩ := hreq.kept hp
    exact ⟨htr, hmem, hpar, hreq.asked, hreq.registers, hreq.fc⟩
  · rw [exec_request_busy hi hp] at h
    injection h with h
    subst h
    exact ⟨rfl, rfl, rfl, ⟨rfl, rfl, rfl⟩, .inl ⟨rfl, rfl⟩, .inl rfl⟩

/-! ### The checks of a TRANSFER -/

/-- The four variants of TRANSFER differ in the two flags alone. -/
theorem exec_xferInstr (write multi : Bool) (x : XferArgs) (s : State) :
    exec (xferInstr write multi x) s = startXfer write multi x s := by
  cases write <;> cases multi <;> rfl

/-- A control word of operation 2 asks for the variant that its `write` and `multi` bits give (R88, R90). -/
theorem decodeRequest_xfer {r : PortRequest} (h : r.asks 0x2) :
    decodeRequest r = .ok (xferInstr (r.ctl.getLsbD 7) (r.ctl.getLsbD 8) r.xferArgs) := by
  obtain ⟨hop, hreserved⟩ := h
  rw [decodeRequest, if_pos (.inl hreserved), decodeOp, hop]
  cases r.ctl.getLsbD 7 <;> cases r.ctl.getLsbD 8 <;> rfl

/-- The operands of a data phase, as TRANSFER has them (R125, R165). -/
def Request.xferArgs (r : Request) : XferArgs :=
  { buf := r.buf, dataLen := r.dataLen, blockLength := r.blockLength, timeout := r.timeout }

/-- A3, its conditions apart (R55, R126). -/
theorem Request.badGeometry_iff (r : Request) :
    r.badGeometry = true ↔
      (r.dataLen = 0 ∨ r.dataLen % r.blockLength ≠ 0) ∨ (r.flags.multi = false ∧ r.dataLen ≠ r.blockLength) := by
  simp [Request.badGeometry]

/-- The amount that A5 compares, where the buffer is a whole number of blocks (R126). -/
theorem Request.creditNeed_eq {r : Request} (fc : FlowControl) (hwhole : r.dataLen % r.blockLength = 0) :
    r.creditNeed fc = fc.need r.flags.write (r.dataLen / r.blockLength) r.blockLength := by
  unfold Request.creditNeed FlowControl.need
  rw [Nat.div_mul_cancel (Nat.dvd_of_mod_eq_zero hwhole)]
  rfl

section

variable {s : State} {r : Request} {k : Nat → State → Out}

/-- XFER_ADMIT in IDLE: what A1 to A4 refuse ends the operation without a change of anything else (R126). -/
theorem xferAdmit_latch (hp : s.phase = .idle) :
    let refused := fun f => .next (s.endOperation (Results.only f))
    xferAdmit (s.latch r) k =
      if r.buf = none ∨ r.blockLength = 0 then refused .invalidCommand
      else if r.payload > Config.maxBlock then refused .blockTooLarge
      else if r.badGeometry then refused .invalidCommand
      else if s.fc.configured = false then refused .invalidCommand
      else availCredit (s.latch r) fun a s' =>
        if s'.req.creditNeed s'.fc > a then raise .insufficientCredit s' else k s'.req.nblocks s' := by
  simp only [xferAdmit, raise_latch hp, State.latch_req, State.latch_fc]

/-- A5: a sample below the need refuses the request, and an error of the credit read ends it (R126, R210). -/
theorem availCredit_refuses (hp : s.phase = .idle) :
    let checked := availCredit (s.latch r) fun a s' =>
      if s'.req.creditNeed s'.fc > a then raise .insufficientCredit s' else k s'.req.nblocks s'
    (∀ a rest, s.creditIs a rest → a < r.creditNeed s.fc →
      checked = .next ((s.creditTaken rest).endOperation (Results.only .insufficientCredit))) ∧
    (∀ code rest, s.env.credit = .error code :: rest →
      checked = .next ((s.creditTaken rest).endOperation (Results.only (.collaboratorError .credit .idle code)))) := by
  refine ⟨fun a rest ⟨hcredit, hfits⟩ hlow => ?_, fun code rest hcredit => ?_⟩
  · rw [availCredit_count (s := s.latch r) hcredit hfits]
    exact (if_pos hlow).trans (raise_latch (s := s.creditTaken rest) hp)
  · rw [availCredit_error (s := s.latch r) hcredit]
    refine (raise_latch (s := s.creditTaken rest) hp).trans ?_
    rw [State.latch_phase, hp]

/-- The first of A1 to A5 that fails decides the outcome of an admission in IDLE (R126). -/
theorem xferAdmit_refusals (hp : s.phase = .idle) :
    XferRefusals r.flags.write r.flags.multi r.xferArgs s (xferAdmit (s.latch r) k) := by
  have hgeometry := r.badGeometry_iff
  rw [xferAdmit_latch hp]
  dsimp only [XferRefusals, Request.xferArgs]
  by_cases h1 : r.buf = none ∨ r.blockLength = 0
  · rw [if_pos h1, if_pos h1]
  rw [if_neg h1, if_neg h1]
  by_cases h2 : r.payload > Config.maxBlock
  · exact (if_pos h2).mpr (if_pos h2)
  rw [if_neg h2]
  refine (if_neg h2).mpr ?_
  by_cases h3 : r.dataLen = 0 ∨ r.dataLen % r.blockLength ≠ 0
  · rw [if_pos h3, if_pos (hgeometry.2 (.inl h3))]
  rw [if_neg h3]
  by_cases h3' : r.flags.multi = false ∧ r.dataLen ≠ r.blockLength
  · rw [if_pos h3', if_pos (hgeometry.2 (.inr h3'))]
  rw [if_neg h3', if_neg fun h => not_or_intro h3 h3' (hgeometry.1 h)]
  by_cases h4 : s.fc.configured = false
  · rw [if_pos h4, if_pos h4]
  have hwhole : r.dataLen % r.blockLength = 0 := by
    rw [not_or, not_not] at h3
    exact h3.2
  rw [if_neg h4, if_neg h4, ← Request.creditNeed_eq s.fc hwhole]
  exact availCredit_refuses hp

end

end Sys2Proof.Machine

namespace Sys2Proof

open Machine

/-- Settles O10: a request in IDLE is refused or accepted, outside IDLE nothing happens. -/
theorem requestFrame : Obligations.RequestFrame := by
  intro i s t hi h
  obtain ⟨htr, hmem, hpar, ⟨hport, hreset, hslave⟩, hregs, hfc⟩ := exec_request_frame hi h
  refine ⟨htr, hmem, hpar, hport, hreset, hslave, hregs, ?_⟩
  cases i with
  | commitSend n => rcases hfc with hfc | ⟨-, hfc⟩ <;> rw [hfc]
  | commitRecv n => rcases hfc with hfc | ⟨-, hfc⟩ <;> rw [hfc]
  | fcReset => rcases hfc with hfc | hfc <;> rw [hfc]
  | config bs bk => rcases hfc with hfc | ⟨-, -, -, hfc⟩ <;> exact ⟨by rw [hfc], by rw [hfc]⟩
  | _ => exact hfc.elim id id

/-- Settles O29: the CRC decides between the store with its commit and CrcMismatch. -/
theorem dataBlockReceived : Obligations.DataBlockReceived := by
  intro s payload crc j hwf hp hcrc
  simp only [exec, execDataBlock_received hp, crcCall_sound hcrc]
  refine ⟨fun hmatch hlt => ?_, fun hmismatch => ?_⟩
  · rw [if_pos hmatch, commitRecvBytes, if_pos hlt]
    refine ⟨_, rfl, rfl, fun i x hx => ?_, fun a ha => memRead_memWriteBlock_outside hwf ha⟩
    obtain ⟨hi, hx⟩ := List.getElem?_eq_some_iff.1 hx
    exact (memRead_memWriteBlock_inside hwf hi).trans (by rw [List.getD_eq_getElem _ _ hi, hx])
  · rw [if_neg hmismatch]
    exact ⟨_, rfl, State.fail_failedWith _ s, State.fail_fc _ s, State.fail_trace _ s,
      fun a ha => State.memRead_fail_outside hp hwf ha⟩

/-- Settles O32: every control word of operation 2 decodes to its variant, and the admission of the latched request
makes the checks in the order of R126. -/
theorem xferRefused : Obligations.XferRefused := by
  refine ⟨fun r h => decodeRequest_xfer h, fun write multi x s hp => ?_⟩
  rw [exec_xferInstr, startXfer, atIdle_idle hp]
  exact xferAdmit_refusals (r := Request.ofXfer write multi x) hp

end Sys2Proof
end

section
/-! PROOFS. What running a wire item leaves unchanged. -/

namespace Sys2Proof.Machine

/-! ### What a wire item can do -/

/-- The phases in which CORE sends an item (R185, R186). -/
def Phase.sends : Phase → Bool
  | .frame | .wToken | .wData _ _ | .wCrc _ _ | .wStop => true
  | _ => false

/-- The bytes of a wire item that CORE sends in one call (R71, R76, R132). -/
def sendsOf : Instr → List Byte → Prop
  | .cmdFrame x a c, ts => ts = frameOf x a c
  | .tokStartSingle, ts => ts = [Config.tokStartSingleByte]
  | .tokStartMultiWr, ts => ts = [Config.tokStartMultiWrByte]
  | .tokStop, ts => ts = [Config.tokStopByte]
  | .dataBlock p c, ts => ∃ x ∈ p ++ 0 :: crcBytes c, ts = [x]
  | _, _ => False

/-- CORE has received the item when it runs it (R185). A start token and a data block are received in one phase and sent
in others. -/
def State.receives (s : State) : Instr → Prop
  | .cmdFrame _ _ _ => False
  | .tokStartSingle => ∃ j p, s.phase = .rPoll j p
  | .tokStartMultiWr => False
  | .tokStop => False
  | .dataBlock _ _ => ∃ j, s.phase = .rCrc j true
  | _ => True

/-- What running a wire item can do (R186). -/
inductive ItemStep (i : Instr) (s : State) : State → Prop
  | taken (bx : BlockXfer) (resp : List Byte) (p : Phase) : s.receives i →
      ItemStep i s { s with bx := bx, resp := resp, phase := p }
  | unsent (ts : List Byte) (code : Nat) (e : Env) : s.phase.sends = true → sendsOf i ts → s.env.Moved e →
      ItemStep i s (State.fail (.collaboratorError .transfer s.phase code) { s with env := e })
  | sent (ts rx : List Byte) (e : Env) (p : Phase) : s.phase.sends = true → sendsOf i ts → s.env.Moved e →
      rx.length = ts.length → ItemStep i s { s with env := e, trace := s.trace ++ ts.zip rx, phase := p }
  | accepted (d : Byte) (n : Nat) (bx : BlockXfer) (p : Phase) : i = .dataResp d →
      ItemStep i s { s with fc := { s.fc with txSentBuffers := n }, bx := bx, phase := p }
  | rejected (d : Byte) (j : Nat) : i = .dataResp d → s.phase = .wDresp j → ItemStep i s (s.fail .crcMismatch)
  | stored (payload : List Byte) (crc : BitVec 16) (j n : Nat) (e : Env) (bx : BlockXfer) (p : Phase) :
      i = .dataBlock payload crc → s.phase = .rCrc j true → s.env.Moved e → p ≠ .idle →
      ItemStep i s { s with
        env := e, mem := memWriteBlock s.mem (s.req.blockAddr j) payload
        fc := { s.fc with rxGotBytes := n }, bx := bx, phase := p }
  | spoiled (payload : List Byte) (crc : BitVec 16) (j : Nat) (f : OpOutcome) (e : Env) :
      i = .dataBlock payload crc → s.phase = .rCrc j true → s.env.Moved e →
      ItemStep i s (State.fail f { s with env := e })

section

variable {i : Instr} {s : State}

/-- Sending the bytes of an item in one call. -/
theorem xferN_item {ts : List Byte} {k : List Byte → State → Out} {p : State → Phase} (hp : s.phase.sends = true)
    (hi : sendsOf i ts) (hk : ∀ rx t, k rx t = .next (t.goto (p t))) : Ensures (ItemStep i s) (xferN ts s k) :=
  xferN_ensures (fun _ _ _ => .unsent ts _ _ hp hi ⟨rfl, rfl, rfl⟩)
    fun rx _ _ hl => (hk rx _).symm ▸ .sent ts rx _ _ hp hi ⟨rfl, rfl, rfl⟩ hl

/-- Sending one byte of an item. -/
theorem push_item {x : Byte} {p : State → Phase} (hp : s.phase.sends = true) (hi : sendsOf i [x]) :
    Ensures (ItemStep i s) (push x s fun t => .next (t.goto (p t))) :=
  push_ensures (fun _ _ _ => .unsent [x] _ _ hp hi ⟨rfl, rfl, rfl⟩)
    fun b _ _ => .sent [x] [b] _ _ hp hi ⟨rfl, rfl, rfl⟩ rfl

end

theorem State.afterRead_ne_idle (j : Nat) (s : State) : s.afterRead j ≠ .idle := by
  unfold State.afterRead
  split_ifs <;> exact Phase.noConfusion

theorem getD_mem_append_zero (payload rest : List Byte) (i : Nat) : payload.getD i 0 ∈ payload ++ 0 :: rest := by
  by_cases hi : i < payload.length
  · rw [List.getD_eq_getElem _ _ hi]
    exact List.mem_append_left _ (List.getElem_mem hi)
  · rw [List.getD_eq_default _ _ (Nat.le_of_not_lt hi)]
    simp

/-- A data block sends a byte of its payload or of its CRC, or is verified, stored and committed (R132, R135). -/
theorem execDataBlock_item (payload : List Byte) (crc : BitVec 16) (s : State) :
    Ensures (ItemStep (.dataBlock payload crc) s) (execDataBlock payload crc s) := by
  unfold execDataBlock
  split
  · next j i hp =>
    exact push_item (p := fun t => if i + 1 < t.req.blockLength then .wData j (i + 1) else .wCrc j false)
      (by rw [hp]; rfl) ⟨_, getD_mem_append_zero _ _ _, rfl⟩
  · next j hp => exact push_item (by rw [hp]; rfl) ⟨_, by simp [crcBytes], rfl⟩
  · next j hp => exact push_item (by rw [hp]; rfl) ⟨_, by simp [crcBytes], rfl⟩
  · next j hp =>
    refine crcCall_ensures (fun _ _ => .spoiled payload crc j _ _ rfl hp ⟨rfl, rfl, rfl⟩) fun es => ?_
    split_ifs
    · exact commitRecvBytes_ensures fun _ =>
        .stored payload crc j _ _ _ _ rfl hp ⟨rfl, rfl, rfl⟩ (State.afterRead_ne_idle j _)
    · exact ItemStep.spoiled payload crc j _ { s.env with crcErrs := es } rfl hp ⟨rfl, rfl, rfl⟩
  · exact ensures_fault

/-- What running a wire item can do. -/
theorem exec_item {i : Instr} (s : State) (hi : isRequest i = false) : Ensures (ItemStep i s) (exec i s) := by
  cases i with
  | cmdFrame x a c =>
    simp only [exec, execCmdFrame]
    split
    · next hp => exact xferN_item (p := fun t => t.req.afterFrame) (by rw [hp]; rfl) rfl fun _ _ => rfl
    · exact ensures_fault
  | idle =>
    simp only [exec, execIdle]
    split
    iterate 4 · exact ItemStep.taken s.bx s.resp _ trivial
    · exact ensures_fault
  | tokStartSingle =>
    simp only [exec, execTokStartSingle]
    split
    · next hp => exact push_item (by rw [hp]; rfl) rfl
    · next j p hp => exact ItemStep.taken _ s.resp _ ⟨j, p, hp⟩
    · exact ensures_fault
  | tokStartMultiWr =>
    simp only [exec, execTokStartMultiWr]
    split
    · next hp => exact push_item (by rw [hp]; rfl) rfl
    · exact ensures_fault
  | tokStop =>
    simp only [exec, execTokStop]
    split
    · next hp => exact push_item (p := fun t => .wBusy t.req.timeout) (by rw [hp]; rfl) rfl
    · exact ensures_fault
  | dataBlock payload crc => exact execDataBlock_item payload crc s
  | dataResp d =>
    simp only [exec, execDataResp]
    split
    · next j hp =>
      split_ifs
      · exact commitSendUnits_ensures fun _ => .accepted d _ _ _ rfl
      · exact ItemStep.rejected d j rfl hp
    · exact ensures_fault
  | rspR1 m =>
    simp only [exec, execRspR1]
    split
    · exact ItemStep.taken s.bx [m] .status trivial
    · exact ensures_fault
  | rspR4 m p1 p2 p3 p4 =>
    simp only [exec, execRspR4, takeResponse]
    split
    · exact ItemStep.taken s.bx _ _ trivial
    · exact ensures_fault
  | rspR5 m p1 =>
    simp only [exec, execRspR5, takeResponse]
    split
    · exact ItemStep.taken s.bx _ _ trivial
    · exact ensures_fault
  | _ => exact Bool.noConfusion hi

/-! ### What a wire item leaves unchanged -/

theorem State.fail_moved (f : OpOutcome) (s : State) : s.env.Moved (s.fail f).env := by
  unfold State.fail State.spoilRead
  split <;> exact ⟨rfl, rfl, rfl⟩

theorem State.fail_params (f : OpOutcome) (s : State) : (s.fail f).params = s.params := by
  obtain ⟨hpar, -⟩ := State.fail_fields f s
  exact hpar

/-- A failure outside the phases that read a block leaves memory as it is (R68, R211). -/
theorem State.fail_mem_of_sends {f : OpOutcome} {s : State} (hp : s.phase.sends = true) : (s.fail f).mem = s.mem :=
  State.fail_mem (fun j i h => by simp [h, Phase.sends] at hp) (fun j h h' => by simp [h', Phase.sends] at hp)

theorem Env.Moved.trans {e e' e'' : Env} (h : e.Moved e') (h' : e'.Moved e'') : e.Moved e'' := by
  obtain ⟨hport, hreset, hcredit⟩ := h
  obtain ⟨hport', hreset', hcredit'⟩ := h'
  exact ⟨hport'.trans hport, hreset'.trans hreset, hcredit'.trans hcredit⟩

section

variable {i : Instr} {s t : State}

theorem ItemStep.moved (h : ItemStep i s t) : t.params = s.params ∧ s.env.Moved t.env := by
  have failed : ∀ f e, s.env.Moved e →
      (State.fail f { s with env := e }).params = s.params ∧ s.env.Moved (State.fail f { s with env := e }).env :=
    fun f e he => ⟨State.fail_params f _, he.trans (State.fail_moved f { s with env := e })⟩
  cases h with
  | taken bx resp p _ => exact ⟨rfl, .refl _⟩
  | unsent ts code e _ _ he => exact failed _ e he
  | sent ts rx e p _ _ he _ => exact ⟨rfl, he⟩
  | accepted d n bx p _ => exact ⟨rfl, .refl _⟩
  | rejected d j _ _ => exact failed _ s.env (.refl _)
  | stored payload crc j n e bx p _ _ he _ => exact ⟨rfl, he⟩
  | spoiled payload crc j f e _ _ he => exact failed f e he

theorem ItemStep.results (h : ItemStep i s t) : t.results = s.results ∨ ∃ f, t.failedWith f := by
  cases h with
  | unsent ts code e _ _ _ => exact .inr ⟨_, State.fail_failedWith _ _⟩
  | rejected d j _ _ => exact .inr ⟨_, State.fail_failedWith _ _⟩
  | spoiled payload crc j f e _ _ _ => exact .inr ⟨f, State.fail_failedWith _ _⟩
  | _ => exact .inl rfl

/-- A wire item writes a counter alone: DATA_RESP that of the sent buffers, DATA_BLOCK that of the bytes received. -/
theorem ItemStep.fc (h : ItemStep i s t) :
    t.fc = s.fc ∨ (∃ d n, i = .dataResp d ∧ t.fc = { s.fc with txSentBuffers := n }) ∨
      ∃ p c n, i = .dataBlock p c ∧ t.fc = { s.fc with rxGotBytes := n } := by
  cases h with
  | taken bx resp p _ => exact .inl rfl
  | unsent ts code e _ _ _ => exact .inl (State.fail_fc _ _)
  | sent ts rx e p _ _ _ _ => exact .inl rfl
  | accepted d n bx p hi => exact .inr (.inl ⟨d, n, hi, rfl⟩)
  | rejected d j _ _ => exact .inl (State.fail_fc _ _)
  | stored payload crc j n e bx p hi _ _ _ => exact .inr (.inr ⟨payload, crc, n, hi, rfl⟩)
  | spoiled payload crc j f e _ _ _ => exact .inl (State.fail_fc _ _)

theorem ItemStep.counters (h : ItemStep i s t) :
    t.fc = { s.fc with txSentBuffers := t.fc.txSentBuffers, rxGotBytes := t.fc.rxGotBytes } ∧
      ((∀ d, i ≠ .dataResp d) → t.fc.txSentBuffers = s.fc.txSentBuffers) ∧
      ((∀ p c, i ≠ .dataBlock p c) → t.fc.rxGotBytes = s.fc.rxGotBytes) := by
  rcases h.fc with hfc | ⟨d, n, hi, hfc⟩ | ⟨p, c, n, hi, hfc⟩ <;> rw [hfc]
  · exact ⟨rfl, fun _ => rfl, fun _ => rfl⟩
  · exact ⟨rfl, fun hd => absurd hi (hd d), fun _ => rfl⟩
  · exact ⟨rfl, fun _ => rfl, fun hb => absurd hi (hb p c)⟩

theorem ItemStep.mem_kept (h : ItemStep i s t) (hr : ∀ p c j, i = .dataBlock p c → s.phase ≠ .rCrc j true) :
    t.mem = s.mem := by
  cases h with
  | unsent ts code e hp _ _ => exact State.fail_mem_of_sends (s := { s with env := e }) hp
  | rejected d j _ hp => exact State.fail_mem (by simp [hp]) (by simp [hp])
  | stored payload crc j n e bx p hi hp _ _ => exact absurd hp (hr _ _ _ hi)
  | spoiled payload crc j f e hi hp _ => exact absurd hp (hr _ _ _ hi)
  | _ => rfl

/-- A received block changes the block's bytes where the transfer goes on, and the rest of the buffer where it fails
(R64, R68). -/
theorem ItemStep.mem_block {payload : List Byte} {crc : BitVec 16} {j a : Nat}
    (h : ItemStep (.dataBlock payload crc) s t) (hp : s.phase = .rCrc j true) (hwf : Memory.wf s.mem) :
    (t.phase ≠ .idle → a < s.req.blockAddr j ∨ s.req.blockAddr j + payload.length ≤ a →
      memRead t.mem a = memRead s.mem a) ∧
    (t.phase = .idle →
      a < s.req.blockAddr j ∨ s.req.blockAddr j + (s.req.dataLen - j * s.req.blockLength) ≤ a →
      memRead t.mem a = memRead s.mem a) := by
  cases h with
  | taken bx resp p _ => exact ⟨fun _ _ => rfl, fun _ _ => rfl⟩
  | unsent ts code e hs _ _ => simp [hp, Phase.sends] at hs
  | sent ts rx e p hs _ _ _ => simp [hp, Phase.sends] at hs
  | accepted d n bx p hi => cases hi
  | rejected d j' hi _ => cases hi
  | stored payload' crc' j' n e bx p hi hp' _ hne =>
    obtain ⟨rfl, rfl⟩ : payload = payload' ∧ crc = crc' := by simpa using hi
    obtain rfl : j = j' := by simpa [hp] using hp'
    exact ⟨fun _ ha => memRead_memWriteBlock_outside hwf ha, fun h => absurd h hne⟩
  | spoiled payload' crc' j' f e hi _ _ =>
    obtain ⟨hidle, -⟩ := State.fail_failedWith f { s with env := e }
    exact ⟨fun h => absurd hidle h, fun _ ha => State.memRead_fail_outside (s := { s with env := e }) hp hwf ha⟩

/-- The trace of a wire item: nothing for a received one, the bytes sent for the others, unless the call fails (R53,
R209). -/
theorem ItemStep.trace (h : ItemStep i s t) :
    (s.receives i ∧ t.trace = s.trace) ∨ (s.phase.sends = true ∧ ∃ ts, sendsOf i ts ∧
      ((t.trace = s.trace ∧ ∃ code, t.failedWith (.collaboratorError .transfer s.phase code)) ∨
        ∃ rx, rx.length = ts.length ∧ t.trace = s.trace ++ ts.zip rx)) := by
  cases h with
  | taken bx resp p hi => exact .inl ⟨hi, rfl⟩
  | unsent ts code e hp hi _ =>
    exact .inr ⟨hp, ts, hi, .inl ⟨State.fail_trace _ _, code, State.fail_failedWith _ _⟩⟩
  | sent ts rx e p hp hi _ hl => exact .inr ⟨hp, ts, hi, .inr ⟨rx, hl, rfl⟩⟩
  | accepted d n bx p hi => exact .inl ⟨hi ▸ trivial, rfl⟩
  | rejected d j hi _ => exact .inl ⟨hi ▸ trivial, State.fail_trace _ _⟩
  | stored payload crc j n e bx p hi hp _ _ => exact .inl ⟨hi ▸ ⟨j, hp⟩, rfl⟩
  | spoiled payload crc j f e hi hp _ => exact .inl ⟨hi ▸ ⟨j, hp⟩, State.fail_trace _ _⟩

/-- One byte sent is one pair of the trace. -/
theorem trace_of_byte {x : Byte} {w : List (Byte × Byte)}
    (h : ∃ rx, rx.length = [x].length ∧ t.trace = w ++ [x].zip rx) : ∃ b, t.trace = w ++ [(x, b)] := by
  obtain ⟨rx, hl, h⟩ := h
  obtain ⟨b, rfl⟩ := List.length_eq_one_iff.1 hl
  exact ⟨b, h⟩

end

end Sys2Proof.Machine

namespace Sys2Proof

open Machine

/-- Settles O11: what each row of `ItemStep` leaves unchanged. -/
theorem wireItemFrame : Obligations.WireItemFrame := by
  intro i s t hi h
  have hitem : ItemStep i s t := ensures_iff.1 (exec_item s hi) t h
  obtain ⟨hpar, hport, hreset, hcredit⟩ := hitem.moved
  obtain ⟨hfc, htx, hrx⟩ := hitem.counters
  refine ⟨hpar, hport, hreset, hcredit, hfc, htx, hrx, hitem.mem_kept, ?_, hitem.results, ?_⟩
  · rintro p c j a rfl hp hwf
    exact hitem.mem_block hp hwf
  · have htr := hitem.trace
    cases i with
    | cmdFrame x a c =>
      obtain ⟨hno, -⟩ | ⟨-, ts, rfl, hsent⟩ := htr
      · exact hno.elim
      · exact hsent
    | tokStartSingle =>
      obtain ⟨⟨j, p, hp⟩, htr⟩ | ⟨hs, ts, rfl, hsent⟩ := htr
      · exact ⟨fun _ => htr, fun hno => absurd hp (hno j p)⟩
      · exact ⟨fun ⟨j, p, hp⟩ => by simp [hp, Phase.sends] at hs, fun _ => hsent.imp_right trace_of_byte⟩
    | tokStartMultiWr =>
      obtain ⟨hno, -⟩ | ⟨-, ts, rfl, hsent⟩ := htr
      · exact hno.elim
      · exact hsent.imp_right trace_of_byte
    | tokStop =>
      obtain ⟨hno, -⟩ | ⟨-, ts, rfl, hsent⟩ := htr
      · exact hno.elim
      · exact hsent.imp_right trace_of_byte
    | dataBlock payload crc =>
      obtain ⟨⟨j, hp⟩, htr⟩ | ⟨hs, ts, ⟨x, hx, rfl⟩, hsent⟩ := htr
      · exact ⟨fun _ => htr, fun hno => absurd hp (hno j)⟩
      · refine ⟨fun ⟨j, hp⟩ => by simp [hp, Phase.sends] at hs, fun _ => hsent.imp_right fun h => ?_⟩
        obtain ⟨b, htr⟩ := trace_of_byte h
        exact ⟨x, b, hx, htr⟩
    | _ =>
      obtain ⟨-, htr⟩ | ⟨-, ts, hno, -⟩ := htr
      · exact htr
      · exact hno.elim

end Sys2Proof
end

section
/-! PROOFS. Every operation ends: no step of it meets another fault than the overflow of a counter, and `stepsLeft`
falls with every step. -/

namespace Sys2Proof.Machine

/-! ### The only fault of a running operation -/

/-- The outcome is a next state or the overflow of a counter (U3). -/
def GoesOn : Out → Prop
  | .next _ => True
  | .fault f => f = .counterOverflow
  | .refused _ => False

theorem goesOn_of_next {o : Out} {t : State} (h : o = .next t) : GoesOn o := h ▸ trivial

theorem GoesOn.cases {o : Out} (h : GoesOn o) : (∃ t, o = .next t) ∨ o = .fault .counterOverflow := by
  cases o with
  | next t => exact .inl ⟨t, rfl⟩
  | fault f => exact .inr (congrArg _ h)
  | refused r => exact h.elim

section

variable {s : State}

theorem xfer_goesOn {x : Byte} {k : Byte → State → Out}
    (hk : ∀ b e w, GoesOn (k b { s with env := e, trace := w })) : GoesOn (xfer x s k) := by
  unfold xfer
  split
  · exact hk _ _ _
  · trivial

theorem pull_goesOn {k : Byte → State → Out}
    (hk : ∀ b e w, GoesOn (k b { s with env := e, trace := w })) : GoesOn (pull s k) := xfer_goesOn hk

theorem push_goesOn {x : Byte} {k : State → Out}
    (hk : ∀ e w, GoesOn (k { s with env := e, trace := w })) : GoesOn (push x s k) := xfer_goesOn fun _ => hk

theorem xferN_goesOn {xs : List Byte} {k : List Byte → State → Out}
    (hk : ∀ bs e w, GoesOn (k bs { s with env := e, trace := w })) : GoesOn (xferN xs s k) := by
  unfold xferN
  split
  · exact hk _ _ _
  · trivial

theorem crcCall_goesOn {c : Collab} {k : State → Out} (hk : ∀ e, GoesOn (k { s with env := e })) :
    GoesOn (crcCall c s k) := by
  unfold crcCall
  split
  · exact hk s.env
  · exact hk _
  · trivial

theorem received_of_decode {f : WireFormat} {bytes : List Byte} {run : Run} {i : Instr}
    (h : decodeWire f bytes = .ok i) : received f bytes run s = run i s := by
  rw [received, h]

/-- The idle byte received where it is awaited. -/
theorem received_idle_goesOn {b : Byte} (hb : b = Config.idleByte) (h : GoesOn (execIdle s)) :
    GoesOn (received .idle [b] exec s) := by
  rw [received_of_decode (show decodeWire .idle [b] = .ok .idle from if_pos hb)]
  exact h

theorem fetchWait_goesOn {p : Nat} {again : Phase} (h : ∀ e w, GoesOn (execIdle { s with env := e, trace := w })) :
    GoesOn (fetchWait exec p again s) := by
  unfold fetchWait
  split_ifs
  · trivial
  · refine pull_goesOn fun b e w => ?_
    split_ifs with hb
    · exact received_idle_goesOn hb (h e w)
    · trivial

theorem fetchScan_goesOn {k : Nat} (hp : s.phase = .rspScan k) : GoesOn (fetchScan exec k s) := by
  unfold fetchScan
  split_ifs
  · trivial
  · refine pull_goesOn fun b e w => ?_
    simp only
    split_ifs with hb
    · exact received_idle_goesOn hb (goesOn_of_next (execIdle_scan hp))
    · split
      · rw [received_of_decode (show decodeWire .rspR1 [b] = .ok (.rspR1 b) from if_neg hb)]
        exact goesOn_of_next (execRspR1_scan hp)
      · trivial

/-- The last byte of a response with bytes after its marker completes an item (R79, R113, R114). -/
theorem decodeWire_rest {sel : Sel} {resp : List Byte} (hsel : sel = .r4 ∨ sel = .r5)
    (hlen : resp.length + 1 = rspLen sel) (hhead : resp.head? ≠ some Config.idleByte) (b : Byte) :
    ∃ i, decodeWire (restFormat sel) (resp ++ [b]) = .ok i ∧ ∀ s, exec i s = takeResponse (resp ++ [b]) s := by
  rcases hsel with rfl | rfl
  · obtain ⟨m, p1, p2, p3, rfl⟩ : ∃ m p1 p2 p3, resp = [m, p1, p2, p3] :=
      List.length_eq_four.1 (Nat.succ.inj hlen)
    exact ⟨.rspR4 m p1 p2 p3 b, if_neg (by simpa using hhead), fun _ => rfl⟩
  · obtain ⟨m, rfl⟩ := List.length_eq_one_iff.1 (Nat.succ.inj hlen)
    exact ⟨.rspR5 m b, if_neg (by simpa using hhead), fun _ => rfl⟩

theorem fetchRest_goesOn {r : Nat} (hp : s.phase = .rspRest r) (hs : s.phaseInv) : GoesOn (fetchRest exec r s) := by
  rw [State.phaseInv, hp] at hs
  obtain ⟨-, hsel, hr, hlen, hhead, -⟩ := hs
  unfold fetchRest
  refine pull_goesOn fun b e w => ?_
  simp only
  split_ifs with hlast
  · obtain rfl : r = 1 := Nat.le_antisymm hlast hr
    obtain ⟨i, hi, hexec⟩ := decodeWire_rest hsel hlen hhead b
    rw [received_of_decode hi, hexec]
    exact goesOn_of_next (takeResponse_rest hp)
  · trivial

theorem statusCheck_goesOn : GoesOn (statusCheck s) := by
  unfold statusCheck
  split
  · split_ifs <;> trivial
  · trivial

theorem fetchPoll_goesOn {j p : Nat} (hp : s.phase = .rPoll j p) : GoesOn (fetchPoll exec j p s) := by
  unfold fetchPoll
  split_ifs
  · trivial
  · refine pull_goesOn fun b e w => ?_
    split_ifs with hstart hidle
    · rw [received_of_decode (show decodeWire .tokStartSingle [b] = .ok .tokStartSingle from if_pos hstart)]
      exact goesOn_of_next (execTokStartSingle_poll hp)
    · exact received_idle_goesOn hidle (goesOn_of_next (execIdle_poll hp))
    · trivial

theorem execDataBlock_data_goesOn {payload : List Byte} {crc : BitVec 16} {j i : Nat} (hp : s.phase = .wData j i) :
    GoesOn (execDataBlock payload crc s) := by
  rw [execDataBlock_data hp]
  exact push_goesOn fun _ _ => trivial

theorem execDataBlock_received_goesOn {payload : List Byte} {crc : BitVec 16} {j : Nat} (hp : s.phase = .rCrc j true) :
    GoesOn (execDataBlock payload crc s) := by
  rw [execDataBlock_received hp]
  refine crcCall_goesOn fun e => ?_
  split_ifs
  · unfold commitRecvBytes
    split_ifs <;> trivial
  · trivial

theorem execDataResp_goesOn {d : Byte} {j : Nat} (hp : s.phase = .wDresp j) : GoesOn (execDataResp d s) := by
  rw [execDataResp_dresp hp]
  split_ifs
  · unfold commitSendUnits
    split_ifs <;> trivial
  · trivial

/-- The two CRC bytes complete a block of 1 to 512 payload bytes (R77). -/
theorem decodeWire_block {held : List Byte} (hi lo : Byte) (hpos : 1 ≤ held.length)
    (hmax : held.length ≤ Config.maxBlock) :
    ∃ payload crc, decodeWire .dataBlock (held ++ [hi, lo]) = .ok (.dataBlock payload crc) :=
  ⟨_, _, if_pos (by simp only [List.length_append, List.length_cons, List.length_nil]; omega)⟩

theorem fetch_readLow_goesOn {j : Nat} (hp : s.phase = .rCrc j true) (hs : s.phaseInv) : GoesOn (fetch exec s) := by
  rw [State.phaseInv, hp] at hs
  obtain ⟨⟨⟨-, -, hpos, hmax, -⟩, -⟩, -, hheld⟩ := hs
  rw [fetch_readLow hp]
  refine pull_goesOn fun b e w => ?_
  obtain ⟨payload, crc, hblock⟩ := decodeWire_block s.bx.crcHi b (hheld ▸ hpos) (hheld ▸ hmax)
  rw [received_of_decode hblock]
  exact execDataBlock_received_goesOn hp

/-- Outside IDLE, what the sequencer fetches goes on or overflows a counter. -/
theorem fetch_goesOn (hp : s.phase ≠ .idle) (hs : s.phaseInv) : GoesOn (fetch exec s) := by
  cases hph : s.phase with
  | idle => exact absurd hph hp
  | frame =>
    rw [fetch_frame hph]
    refine crcCall_goesOn fun e => ?_
    simp only [State.frameItem, exec, execCmdFrame_frame (s := { s with env := e }) hph]
    exact xferN_goesOn fun _ _ _ => trivial
  | rspScan k => rw [fetch_scan hph]; exact fetchScan_goesOn hph
  | rspRest r => rw [fetch_rest hph]; exact fetchRest_goesOn hph hs
  | status => rw [fetch_status hph]; exact statusCheck_goesOn
  | wReady p => rw [fetch_ready hph]; exact fetchWait_goesOn fun e w => goesOn_of_next (execIdle_ready hph)
  | wToken =>
    rw [fetch_token hph]
    split_ifs
    · simp only [exec, execTokStartMultiWr_token hph]; exact push_goesOn fun _ _ => trivial
    · simp only [exec, execTokStartSingle_token hph]; exact push_goesOn fun _ _ => trivial
  | wData j i =>
    cases i with
    | zero => rw [fetch_data_first hph]; exact execDataBlock_data_goesOn (s := s.loadBlock j) hph
    | succ i => rw [fetch_data_next hph]; exact execDataBlock_data_goesOn hph
  | wCrc j low =>
    cases low with
    | false =>
      rw [fetch_crcHigh hph]
      refine crcCall_goesOn fun e => ?_
      simp only [State.heldBlock, exec, execDataBlock_crcHigh (s := { s with env := e }) hph]
      exact push_goesOn fun _ _ => trivial
    | true =>
      rw [fetch_crcLow hph]
      simp only [State.heldBlock, exec, execDataBlock_crcLow hph]
      exact push_goesOn fun _ _ => trivial
  | wDresp j => rw [fetch_dresp hph]; exact pull_goesOn fun b e w => execDataResp_goesOn hph
  | wStop =>
    rw [fetch_stop hph]
    simp only [exec, execTokStop_stop hph]
    exact push_goesOn fun _ _ => trivial
  | wBusy p => rw [fetch_busy hph]; exact fetchWait_goesOn fun e w => goesOn_of_next (execIdle_busy hph)
  | rPoll j p => rw [fetch_poll hph]; exact fetchPoll_goesOn hph
  | rData j i => rw [fetch_payload hph]; exact pull_goesOn fun _ _ _ => trivial
  | rCrc j low =>
    cases low with
    | false => rw [fetch_readHigh hph]; exact pull_goesOn fun _ _ _ => trivial
    | true => exact fetch_readLow_goesOn hph hs
  | done => exact goesOn_of_next (fetch_done hph)

/-- With the reset signal low, a step of a running operation has a next state or overflows a counter. -/
theorem step_busy_outcome (hinv : s.Inv) (hr : s.env.resetLine = false) (hp : s.phase ≠ .idle) :
    (∃ t, step s = .next t) ∨ step s = .fault .counterOverflow := by
  rw [step_fetch hr]
  exact (fetch_goesOn hp hinv.phaseInv).cases

end

/-! ### The measure falls -/

theorem rspLen_le (sel : Sel) : rspLen sel ≤ 5 := by
  cases sel <;> decide

theorem State.stepsLeft_pos {s : State} (hp : s.phase ≠ .idle) : 0 < s.stepsLeft := by
  unfold State.stepsLeft
  split
  · exact absurd ‹_› hp
  all_goals omega

section

variable {s : State} {j : Nat}

theorem State.writeSteps_succ (hj : j < s.bx.nblocks) :
    s.writeSteps j = s.req.blockLength + 3 + s.writeSteps (j + 1) := by
  obtain ⟨n, hn⟩ : ∃ n, s.bx.nblocks - j = n + 1 := ⟨s.bx.nblocks - (j + 1), by omega⟩
  have hn' : s.bx.nblocks - (j + 1) = n := by omega
  rw [State.writeSteps, State.writeSteps, hn, hn', Nat.succ_mul]
  omega

theorem State.readSteps_succ (hj : j < s.bx.nblocks) :
    s.readSteps j = s.req.timeout + s.req.blockLength + 3 + s.readSteps (j + 1) := by
  obtain ⟨n, hn⟩ : ∃ n, s.bx.nblocks - j = n + 1 := ⟨s.bx.nblocks - (j + 1), by omega⟩
  have hn' : s.bx.nblocks - (j + 1) = n := by omega
  rw [State.readSteps, State.readSteps, hn, hn', Nat.succ_mul]
  omega

theorem State.stepsLeft_afterWrite (hp : s.phase = s.afterWrite j) : s.stepsLeft ≤ s.writeSteps (j + 1) := by
  rw [State.afterWrite] at hp
  split_ifs at hp with hnext hmulti
  · rw [State.stepsLeft, hp, State.writeSteps_succ hnext]
    exact le_rfl
  · simp only [State.stepsLeft, hp, State.writeSteps, if_pos hmulti]
    exact Nat.le_add_left _ _
  · simp only [State.stepsLeft, hp, State.writeSteps, if_neg hmulti]
    exact Nat.le_add_left _ _

theorem State.stepsLeft_afterRead (hp : s.phase = s.afterRead j) : s.stepsLeft ≤ s.readSteps (j + 1) := by
  rw [State.afterRead] at hp
  split_ifs at hp with hnext
  · rw [State.stepsLeft, hp, State.readSteps_succ hnext]
    show s.req.timeout + 1 + s.req.blockLength + 2 + s.readSteps (j + 1 + 1) ≤ _
    omega
  · simp only [State.stepsLeft, hp, State.readSteps]
    exact Nat.le_add_left _ _

/-- What follows a response takes `dataSteps`, the first block of a read with its poll. -/
theorem State.stepsLeft_afterResponse (hp : s.phase = s.req.afterResponse) (hb : s.beforeData) :
    s.stepsLeft ≤ s.dataSteps := by
  obtain ⟨-, hop⟩ := hb
  unfold Request.afterResponse at hp
  unfold State.dataSteps
  cases op : s.req.op
  case execute =>
    simp only [op] at hop hp ⊢
    obtain ⟨-, hadmitted⟩ := hop
    unfold Request.dataStart at hp
    split_ifs at hp ⊢ with hdata hwrite
    · rw [State.stepsLeft, hp]
    · obtain ⟨-, -, -, -, hn, -⟩ := hadmitted hdata
      rw [State.stepsLeft, hp, State.readSteps_succ hn]
      show s.req.timeout + 1 + s.req.blockLength + 2 + s.readSteps (0 + 1) ≤ _
      omega
    · rw [State.stepsLeft, hp]
  all_goals
    simp only [op] at hp ⊢
    rw [State.stepsLeft, hp]

/-- The frame is followed by the response window, or where no response is expected by what comes after one. -/
theorem State.stepsLeft_afterFrame (hp : s.phase = s.req.afterFrame) (hb : s.beforeData) :
    s.stepsLeft ≤ s.req.scanBound + 6 + s.dataSteps := by
  unfold Request.afterFrame at hp
  split at hp
  · exact (State.stepsLeft_afterResponse hp hb).trans (Nat.le_add_left _ _)
  · rw [State.stepsLeft, hp]
    exact le_rfl

end

/-- Every row of R186 leaves fewer steps. -/
theorem WireStep.stepsLeft_lt {s t : State} (hp : s.phase ≠ .idle) (hs : s.phaseInv) (h : WireStep s t) :
    t.stepsLeft < s.stepsLeft := by
  unfold State.phaseInv at hs
  cases h with
  | fails f e w _ _ _ =>
    obtain ⟨hidle, -⟩ := State.fail_failedWith f { s with env := e, trace := s.trace ++ w }
    rw [State.stepsLeft, hidle]
    exact State.stepsLeft_pos hp
  | frame e rx _ hph _ =>
    rw [hph] at hs
    obtain ⟨-, hb, -⟩ := hs
    refine lt_of_le_of_lt (State.stepsLeft_afterFrame rfl hb) ?_
    show s.req.scanBound + 6 + s.dataSteps < _
    simp only [State.stepsLeft, hph]
    omega
  | scanIdle k e _ hph hk =>
    show s.req.scanBound - (k + 1) + 6 + s.dataSteps < _
    simp only [State.stepsLeft, hph]
    omega
  | scanMarker k e b _ hph hk _ =>
    have hlen := rspLen_le s.req.sel
    simp only [State.stepsLeft, hph]
    split_ifs
    · show 1 + s.dataSteps < _
      omega
    · show rspLen s.req.sel - 1 + 1 + s.dataSteps < _
      omega
  | rest r e b _ hph =>
    rw [hph] at hs
    obtain ⟨hb, -, hr, -⟩ := hs
    by_cases hlast : r ≤ 1
    · refine lt_of_le_of_lt (State.stepsLeft_afterResponse (if_pos hlast) hb) ?_
      show s.dataSteps < _
      simp only [State.stepsLeft, hph]
      omega
    · rw [if_neg hlast]
      show r - 1 + 1 + s.dataSteps < _
      simp only [State.stepsLeft, hph]
      omega
  | status hph _ =>
    rw [hph] at hs
    obtain ⟨hb, -⟩ := hs
    refine lt_of_le_of_lt (State.stepsLeft_afterResponse rfl hb) ?_
    show s.dataSteps < _
    simp only [State.stepsLeft, hph]
    omega
  | ready p e b _ hph hpos =>
    simp only [State.stepsLeft, hph]
    split_ifs
    · show 1 + s.writeSteps 0 < _
      omega
    · show p - 1 + 2 + s.writeSteps 0 < _
      omega
  | token e x b _ hph =>
    rw [hph] at hs
    obtain ⟨⟨-, -, -, -, hn, -⟩, -⟩ := hs
    show s.req.blockLength - 0 + 3 + s.writeSteps (0 + 1) < _
    simp only [State.stepsLeft, hph, State.writeSteps_succ hn]
    omega
  | data j i h e x b _ hph _ =>
    rw [hph] at hs
    obtain ⟨-, -, hi, -⟩ := hs
    simp only [State.stepsLeft, hph]
    split_ifs
    · show s.req.blockLength - (i + 1) + 3 + s.writeSteps (j + 1) < _
      omega
    · show 3 + s.writeSteps (j + 1) < _
      omega
  | crc j low e x b _ hph =>
    cases low with
    | false =>
      show 2 + s.writeSteps (j + 1) < _
      simp only [State.stepsLeft, hph]
      omega
    | true =>
      show 1 + s.writeSteps (j + 1) < _
      simp only [State.stepsLeft, hph]
      omega
  | accepted j e b _ hph _ _ =>
    refine lt_of_le_of_lt (State.stepsLeft_afterWrite (j := j) rfl) ?_
    show s.writeSteps (j + 1) < _
    simp only [State.stepsLeft, hph]
    omega
  | stop e b _ hph =>
    show s.req.timeout + 2 < _
    simp only [State.stepsLeft, hph]
    omega
  | busy p e b _ hph hpos =>
    simp only [State.stepsLeft, hph]
    split_ifs
    · show 1 < _
      omega
    · show p - 1 + 2 < _
      omega
  | poll j p e b _ hph hpos _ =>
    show p - 1 + 1 + s.req.blockLength + 2 + s.readSteps (j + 1) < _
    simp only [State.stepsLeft, hph]
    omega
  | start j p e _ hph hpos =>
    show s.req.blockLength - 0 + 2 + s.readSteps (j + 1) < _
    simp only [State.stepsLeft, hph]
    omega
  | payload j i e b _ hph =>
    rw [hph] at hs
    obtain ⟨-, -, hi, -⟩ := hs
    simp only [State.stepsLeft, hph]
    split_ifs
    · show s.req.blockLength - (i + 1) + 2 + s.readSteps (j + 1) < _
      omega
    · show 2 + s.readSteps (j + 1) < _
      omega
  | crcHigh j e b _ hph =>
    show 1 + s.readSteps (j + 1) < _
    simp only [State.stepsLeft, hph]
    omega
  | matched j e b _ hph _ _ =>
    refine lt_of_le_of_lt (State.stepsLeft_afterRead (j := j) rfl) ?_
    show s.readSteps (j + 1) < _
    simp only [State.stepsLeft, hph]
    omega
  | done hph => exact State.stepsLeft_pos hp

theorem WireStep.moved {s t : State} (h : WireStep s t) : s.env.Moved t.env := by
  cases h with
  | fails f e w he _ _ => exact he.trans (State.fail_moved f { s with env := e, trace := s.trace ++ w })
  | status _ _ => exact .refl _
  | done _ => exact .refl _
  | _ => assumption

end Sys2Proof.Machine

namespace Sys2Proof

open Machine

/-- Settles O59, by induction on the steps left: each step of a running operation leaves fewer of them. -/
theorem everyOperationEnds : Obligations.EveryOperationEnds := by
  intro s hinv hr
  induction hm : s.stepsLeft using Nat.strong_induction_on generalizing s with
  | _ m ih =>
    by_cases hp : s.phase = .idle
    · exact ⟨0, Nat.zero_le _, .inl ⟨s, rfl, hp⟩⟩
    rcases step_busy_outcome hinv hr hp with ⟨t, ht⟩ | hfault
    · have hstep : WireStep s t := step_wire hp ht
      have hlt : t.stepsLeft < m := hm ▸ hstep.stepsLeft_lt hp hinv.phaseInv
      obtain ⟨-, hreset, -⟩ := hstep.moved
      obtain ⟨n, hn, hend⟩ := ih _ hlt t (step_inv hinv ht) (hreset.trans hr) rfl
      exact ⟨n + 1, by omega, by rwa [steps_succ ht]⟩
    · exact ⟨1, hm ▸ State.stepsLeft_pos hp, .inr (by rw [steps, hfault])⟩

end Sys2Proof
end

section
/-! PROOFS. The encodings: the fields of a control word and of a frame read back, and every well-formed instruction
decodes from its encoding. -/

namespace Sys2Proof

open Machine

/-! ### The fields of a control word (R83 (g)) -/

theorem decodeSel_encodeSel (sel : Sel) : decodeSel (encodeSel sel) = sel := by
  cases sel <;> rfl

theorem encodeCtl_op (op : BitVec 4) (sel : Sel) (f : Flags) : (encodeCtl op sel f).extractLsb' 0 4 = op := by
  unfold encodeCtl
  ext i hi
  simp only [BitVec.getElem_extractLsb', BitVec.getLsbD_append]
  simp [hi]

theorem encodeCtl_sel (op : BitVec 4) (sel : Sel) (f : Flags) :
    (encodeCtl op sel f).extractLsb' 4 2 = encodeSel sel := by
  unfold encodeCtl
  ext i hi
  simp only [BitVec.getElem_extractLsb', BitVec.getLsbD_append]
  simp [hi]

theorem decodeFlags_encodeCtl (op : BitVec 4) (sel : Sel) (f : Flags) : decodeFlags (encodeCtl op sel f) = f := by
  simp only [decodeFlags, encodeCtl, encodeFlags, BitVec.getLsbD_append]
  simp

theorem PortRequest.asks_of_ctl {r : PortRequest} {op : BitVec 4} {sel : Sel} {f : Flags}
    (h : r.ctl = encodeCtl op sel f) : r.asks op := by
  rw [PortRequest.asks, h]
  exact ⟨encodeCtl_op op sel f, Laws.FormatLength.encodeCtl_reserved op sel f⟩

/-! ### What each operation code decodes to (R88, R90) -/

/-- The four variants of DECODE (R111 to R114). -/
def decodeInstr : Sel → Instr
  | .none => .decodeNone
  | .r1 => .decodeR1
  | .r4 => .decodeR4
  | .r5 => .decodeR5

section

variable {r : PortRequest}

theorem decodeRequest_asks {op : BitVec 4} (h : r.asks op) : decodeRequest r = .ok (decodeOp r) :=
  if_pos (.inl h.2)

theorem decodeRequest_encode (h : r.asks 0x0) : decodeRequest r = .ok (.encode r.index r.arg) := by
  rw [decodeRequest_asks h, decodeOp, h.1]
  rfl

theorem decodeRequest_decode {sel : Sel} (h : r.asks 0x1) (hsel : r.sel = encodeSel sel) :
    decodeRequest r = .ok (decodeInstr sel) := by
  rw [decodeRequest_asks h, decodeOp, h.1]
  unfold PortRequest.sel at hsel
  simp only [hsel, decodeSel_encodeSel]
  cases sel <;> rfl

theorem decodeRequest_execute (h : r.asks 0x3) : decodeRequest r = .ok (.execute r.descriptor) := by
  rw [decodeRequest_asks h, decodeOp, h.1]
  rfl

theorem decodeRequest_reserveSend (h : r.asks 0x4) : decodeRequest r = .ok (.reserveSend r.nBytes) := by
  rw [decodeRequest_asks h, decodeOp, h.1]
  rfl

theorem decodeRequest_reserveRecv (h : r.asks 0x5) : decodeRequest r = .ok (.reserveRecv r.nBytes) := by
  rw [decodeRequest_asks h, decodeOp, h.1]
  rfl

theorem decodeRequest_commitSend (h : r.asks 0x6) : decodeRequest r = .ok (.commitSend r.nBytes) := by
  rw [decodeRequest_asks h, decodeOp, h.1]
  rfl

theorem decodeRequest_commitRecv (h : r.asks 0x7) : decodeRequest r = .ok (.commitRecv r.nBytes) := by
  rw [decodeRequest_asks h, decodeOp, h.1]
  rfl

theorem decodeRequest_fcReset (h : r.asks 0x8) : decodeRequest r = .ok .fcReset := by
  rw [decodeRequest_asks h, decodeOp, h.1]
  rfl

theorem decodeRequest_config (h : r.asks 0x9) :
    decodeRequest r = .ok (.config r.cfgBufferSize r.cfgBlockSize) := by
  rw [decodeRequest_asks h, decodeOp, h.1]
  rfl

/-- Operation code 0xA plus `b` (R88). -/
theorem decodeRequest_reservedAB {b : BitVec 1} (h : r.asks (0b101#3 ++ b)) :
    decodeRequest r = .ok (.reservedAB b) := by
  rw [decodeRequest_asks h, decodeOp, h.1]
  obtain rfl | rfl : b = 0 ∨ b = 1 := (by decide : ∀ b : BitVec 1, b = 0 ∨ b = 1) b
  · rfl
  · rfl

/-- Operation code 0xC plus `b` (R88). -/
theorem decodeRequest_reservedCF {b : BitVec 2} (h : r.asks (0b11#2 ++ b)) :
    decodeRequest r = .ok (.reservedCF b) := by
  have hlow : r.ctl.extractLsb' 0 2 = (r.ctl.extractLsb' 0 4).extractLsb' 0 2 := by
    ext i hi
    simp
  rw [decodeRequest_asks h, decodeOp, hlow, h.1]
  obtain rfl | rfl | rfl | rfl : b = 0 ∨ b = 1 ∨ b = 2 ∨ b = 3 :=
    (by decide : ∀ b : BitVec 2, b = 0 ∨ b = 1 ∨ b = 2 ∨ b = 3) b
  · rfl
  · rfl
  · rfl
  · rfl

/-- The operation codes from 0xA on are the two reserved ranges (R88). -/
theorem decodeOp_reserved (h : 10 ≤ (r.ctl.extractLsb' 0 4).toNat) :
    (∃ b, decodeOp r = .reservedAB b) ∨ ∃ c, decodeOp r = .reservedCF c := by
  unfold decodeOp
  split
  case h_11 => exact .inl ⟨0, rfl⟩
  case h_12 => exact .inl ⟨1, rfl⟩
  case h_13 => exact .inr ⟨_, rfl⟩
  all_goals next hop => exact absurd (hop ▸ h) (by decide)

end

/-! ### The bytes of a command frame (R71) -/

section

variable (index : BitVec 6) (crc : BitVec 7) (arg : Word32)

theorem frameIndexByte_fixed :
    ((0x40 : Byte) ||| index.setWidth 8).getLsbD 7 = false ∧
      ((0x40 : Byte) ||| index.setWidth 8).getLsbD 6 = true := by
  simp

theorem frameIndexByte_index : ((0x40 : Byte) ||| index.setWidth 8).extractLsb' 0 6 = index := by
  ext i hi
  simp only [BitVec.getElem_extractLsb', BitVec.getLsbD_or, BitVec.getLsbD_setWidth]
  interval_cases i <;> simp

theorem frameCrcByte_fixed : ((crc.setWidth 8 <<< 1) ||| (1 : Byte)).getLsbD 0 = true := by
  simp

theorem frameCrcByte_crc : ((crc.setWidth 8 <<< 1) ||| (1 : Byte)).extractLsb' 1 7 = crc := by
  ext i hi
  have h1 : 1 + i < 8 := by omega
  simp [hi, h1]

theorem frameArgBytes_append :
    (arg.extractLsb' 24 8 ++ arg.extractLsb' 16 8 ++ arg.extractLsb' 8 8 ++ arg.extractLsb' 0 8 : Word32) = arg := by
  rw [BitVec.extractLsb'_append_extractLsb'_eq_extractLsb' (start₂ := 24) (start₁ := 16) rfl,
    BitVec.extractLsb'_append_extractLsb'_eq_extractLsb' (start₂ := 16) (start₁ := 8) rfl,
    BitVec.extractLsb'_append_extractLsb'_eq_extractLsb' (start₂ := 8) (start₁ := 0) rfl]
  exact BitVec.extractLsb'_eq_self

theorem decodeWire_frameOf : decodeWire .cmdFrame (frameOf index arg crc) = .ok (.cmdFrame index arg crc) := by
  obtain ⟨hstart, hdirection⟩ := frameIndexByte_fixed index
  refine (if_pos ⟨hstart, hdirection, frameCrcByte_fixed crc⟩).trans ?_
  rw [frameIndexByte_index, frameArgBytes_append, frameCrcByte_crc]

end

/-! ### The other wire formats -/

theorem crcBytes_append (c : BitVec 16) : (c.extractLsb' 8 8 ++ c.extractLsb' 0 8 : BitVec 16) = c := by
  rw [BitVec.extractLsb'_append_extractLsb'_eq_extractLsb' (start₂ := 8) (start₁ := 0) rfl]
  exact BitVec.extractLsb'_eq_self

/-- A block of 1 to 512 payload bytes reads back: the payload is all but the last two bytes (R77). -/
theorem decodeWire_dataBlock {payload : List Byte} {crc : BitVec 16} (hpos : 1 ≤ payload.length)
    (hmax : payload.length ≤ Config.maxBlock) :
    decodeWire .dataBlock (payload ++ crcBytes crc) = .ok (.dataBlock payload crc) := by
  have hlen : (payload ++ crcBytes crc).length = payload.length + 2 := List.length_append
  refine (if_pos (by omega)).trans ?_
  rw [hlen]
  simp [crcBytes, crcBytes_append]

theorem decodeFixed_self (value : Byte) (i : Instr) : decodeFixed value i [value] = .ok i := if_pos rfl

theorem decodeMarked_ok {m : Byte} (i : Instr) (h : (m != Config.idleByte) = true) : decodeMarked m i = .ok i :=
  if_neg (by simpa using h)

/-! ### The whole encoder -/

theorem decode_encodeDecode (sel : Sel) : decode (encodeDecode sel) = .ok (decodeInstr sel) :=
  decodeRequest_decode (PortRequest.asks_of_ctl rfl) (encodeCtl_sel _ _ _)

theorem decode_encodeXfer (write multi : Bool) (x : XferArgs) :
    decode (encodeXfer write multi x) = .ok (xferInstr write multi x) := by
  have hflags := decodeFlags_encodeCtl 0x2 .none { Flags.clear with write := write, multi := multi }
  exact (decodeRequest_xfer (PortRequest.asks_of_ctl rfl)).trans
    (congrArg₂ (fun w m => Except.ok (xferInstr w m x)) (congrArg Flags.write hflags) (congrArg Flags.multi hflags))

theorem decode_encode_execute (d : Descriptor) : decode (encode (.execute d)) = .ok (.execute d) := by
  refine (decodeRequest_execute (PortRequest.asks_of_ctl rfl)).trans ?_
  simp only [PortRequest.descriptor, PortRequest.ofCtl, encodeCtl_sel, decodeSel_encodeSel, decodeFlags_encodeCtl]

/-- Settles O7: a request reads back field by field, a wire item byte by byte. -/
theorem decodeEncodeAgree : Obligations.DecodeEncodeAgree := by
  intro p i hwf
  cases i with
  | encode index arg => exact decodeRequest_encode (PortRequest.asks_of_ctl rfl)
  | decodeNone => exact decode_encodeDecode .none
  | decodeR1 => exact decode_encodeDecode .r1
  | decodeR4 => exact decode_encodeDecode .r4
  | decodeR5 => exact decode_encodeDecode .r5
  | xferWrSingle x => exact decode_encodeXfer true false x
  | xferWrMulti x => exact decode_encodeXfer true true x
  | xferRdSingle x => exact decode_encodeXfer false false x
  | xferRdMulti x => exact decode_encodeXfer false true x
  | execute d => exact decode_encode_execute d
  | reserveSend n => exact decodeRequest_reserveSend (PortRequest.asks_of_ctl rfl)
  | reserveRecv n => exact decodeRequest_reserveRecv (PortRequest.asks_of_ctl rfl)
  | commitSend n => exact decodeRequest_commitSend (PortRequest.asks_of_ctl rfl)
  | commitRecv n => exact decodeRequest_commitRecv (PortRequest.asks_of_ctl rfl)
  | fcReset => exact decodeRequest_fcReset (PortRequest.asks_of_ctl rfl)
  | config bs bk => exact decodeRequest_config (PortRequest.asks_of_ctl rfl)
  | reservedAB b => exact decodeRequest_reservedAB (PortRequest.asks_of_ctl rfl)
  | reservedCF b => exact decodeRequest_reservedCF (PortRequest.asks_of_ctl rfl)
  | cmdFrame index arg crc => exact decodeWire_frameOf index crc arg
  | idle => exact decodeFixed_self Config.idleByte _
  | tokStartSingle => exact decodeFixed_self Config.tokStartSingleByte _
  | tokStartMultiWr => exact decodeFixed_self Config.tokStartMultiWrByte _
  | tokStop => exact decodeFixed_self Config.tokStopByte _
  | dataBlock payload crc =>
    simp only [Instr.wf, Bool.and_eq_true, decide_eq_true_eq] at hwf
    exact decodeWire_dataBlock hwf.1 hwf.2
  | dataResp d => rfl
  | rspR1 m => exact decodeMarked_ok _ hwf
  | rspR4 m p1 p2 p3 p4 => exact decodeMarked_ok _ hwf
  | rspR5 m p1 => exact decodeMarked_ok _ hwf

/-- Settles O6: the decoder run on the ten words. -/
theorem wordsDecode : Obligations.WordsDecode := by
  unfold Obligations.WordsDecode
  decide

/-- Settles O14: the fields of the first and of the last byte are the bit facts of `frameOf`. -/
theorem frameHasLayout : Obligations.FrameHasLayout := by
  intro p index arg hindex
  obtain ⟨hstart, hdirection⟩ := frameIndexByte_fixed (BitVec.ofNat 6 index)
  refine ⟨_, _, _, _, _, _, rfl, hstart, hdirection, ?_, rfl, rfl, rfl, rfl, frameCrcByte_crc _,
    frameCrcByte_fixed _⟩
  rw [frameIndexByte_index]
  exact Nat.mod_eq_of_lt (Nat.lt_succ_of_le hindex)

end Sys2Proof
end

section
/-! PROOFS. The requests that move no data block: refused, or accepted and finished by the step of phase DONE. -/

namespace Sys2Proof.Machine

/-! ### A request at the port, and the step of phase DONE -/

section

variable {s : State}

/-- CORE at rest takes the request at the port (R191). -/
theorem step_request {r : PortRequest} {rest : List PortRequest} (hs : s.ready) (hport : s.env.port = r :: rest) :
    step s = fetchRequest exec r { s with env := { s.env with port := rest } } := by
  rw [step_fetch hs.2, fetch_idle hs.1, hport]

/-- The step of phase DONE finalizes (R172, R185). -/
theorem step_goto_done (hr : s.env.resetLine = false) : step (s.goto .done) = .next s.finish := by
  rw [step_fetch (s := s.goto .done) hr, fetch_done rfl]
  rfl

/-- Finalizing discards the latched request, from which the results were taken (R172). -/
theorem State.finish_latch (r : Request) : (s.latch r).finish = s.endOperation (s.latch r).successResults := rfl

/-- Refusing in IDLE ends the operation and changes nothing else (R211). -/
theorem raise_idle {f : OpOutcome} (hp : s.phase = .idle) : raise f s = .next (s.endOperation (Results.only f)) := by
  rw [raise, State.fail_idle hp]

theorem exec_reservedAB (hp : s.phase = .idle) (b : BitVec 1) :
    exec (.reservedAB b) s = .next (s.endOperation (Results.only .invalidCommand)) :=
  (atIdle_idle hp).trans (raise_idle hp)

theorem exec_reservedCF (hp : s.phase = .idle) (c : BitVec 2) :
    exec (.reservedCF c) s = .next (s.endOperation (Results.only .invalidCommand)) :=
  (atIdle_idle hp).trans (raise_idle hp)

/-- A request whose reserved bits are not zero, or whose operation code is reserved, is refused (R88). -/
theorem fetchRequest_reserved {r : PortRequest} (hp : s.phase = .idle)
    (hr : r.ctl.extractLsb' 10 6 ≠ 0 ∨ 10 ≤ (r.ctl.extractLsb' 0 4).toNat) :
    fetchRequest exec r s = .next (s.endOperation (Results.only .invalidCommand)) := by
  by_cases hop : 10 ≤ (r.ctl.extractLsb' 0 4).toNat
  · rw [fetchRequest, decodeRequest, if_pos (.inr hop)]
    rcases decodeOp_reserved hop with ⟨b, hb⟩ | ⟨c, hc⟩
    · rw [hb]
      exact exec_reservedAB hp b
    · rw [hc]
      exact exec_reservedCF hp c
  · rw [fetchRequest, decodeRequest, if_neg (not_or_intro (hr.resolve_right hop) hop)]
    exact raise_idle hp

/-! ### The CRC primitives and the frame -/

/-- A CRC call that succeeds goes on in the state after it. -/
theorem crcCall_answers {c : Collab} {s' : State} {k : State → Out} (h : s.crcAnswers s') :
    crcCall c s k = k s' := by
  rcases h with ⟨hnone, rfl⟩ | ⟨rest, hsome, rfl⟩
  · exact crcCall_sound hnone
  · rw [crcCall, hsome]

theorem State.crcAnswers.latch {s' : State} (h : s.crcAnswers s') (r : Request) :
    (s.latch r).crcAnswers (s'.latch r) := by
  rcases h with ⟨hnone, rfl⟩ | ⟨rest, hsome, rfl⟩
  · exact .inl ⟨hnone, rfl⟩
  · exact .inr ⟨rest, hsome, rfl⟩

theorem State.crcAnswers.kept {s' : State} (h : s.crcAnswers s') :
    s'.params = s.params ∧ s'.env.resetLine = s.env.resetLine := by
  rcases h with ⟨-, rfl⟩ | ⟨rest, -, rfl⟩
  · exact ⟨rfl, rfl⟩
  · exact ⟨rfl, rfl⟩

/-- A legal index has the same value in six bits as in a byte. -/
theorem setWidth_legalIndex {index : Nat} (h : index ≤ 63) :
    (BitVec.ofNat 6 index).setWidth 8 = BitVec.ofNat 8 index := by
  apply BitVec.eq_of_toNat_eq
  simp only [BitVec.toNat_setWidth, BitVec.toNat_ofNat]
  omega

/-- The index byte of a frame with a legal index (R71, R101). -/
def indexByte (index : Nat) : Byte := 0x40 ||| BitVec.ofNat 8 index

theorem encodeFrame_legal (p : Params) {index : Nat} (arg : Word32) (h : index ≤ 63) :
    encodeFrame p index arg =
      [indexByte index, arg.extractLsb' 24 8, arg.extractLsb' 16 8, arg.extractLsb' 8 8, arg.extractLsb' 0 8,
        ((crc7 p [indexByte index, arg.extractLsb' 24 8, arg.extractLsb' 16 8, arg.extractLsb' 8 8,
          arg.extractLsb' 0 8]).setWidth 8 <<< 1) ||| 1] := by
  simp only [encodeFrame, frameCrc, frameHead, frameOf, setWidth_legalIndex h, indexByte]
  rfl

/-- ENCODE in IDLE: the index check, the CRC call and then phase DONE (R101). -/
theorem exec_encode_idle {index : Nat} {arg : Word32} (hp : s.phase = .idle) :
    exec (.encode index arg) s =
      if index > 63 then raise .invalidCommand (s.latch (Request.ofEncode index arg))
      else crcCall .crc7 (s.latch (Request.ofEncode index arg)) fun s => .next (s.goto .done) := by
  simp only [exec, execEncode, atIdle_idle hp]

end

theorem successResults_encode (s : State) (index : Nat) (arg : Word32) :
    (s.latch (Request.ofEncode index arg)).successResults =
      { Results.only .success with frame := some (encodeFrame s.params index arg) } := rfl

/-! ### The reserves (R151, R152) -/

section

variable {s : State} {r : Request} {need a : Nat} {rest : List CreditAnswer}

theorem reserve_unconfigured (hp : s.phase = .idle) (hc : s.fc.configured = false) :
    reserve r need s = .next (s.endOperation (Results.only .invalidCommand)) := by
  rw [reserve, atIdle_idle hp, if_pos hc, raise_latch hp]

/-- A reserve on a configured CORE compares its need with a credit sample. -/
theorem reserve_configured (hp : s.phase = .idle) (hc : s.fc.configured = true) :
    reserve r need s = availCredit (s.latch r) fun a s =>
      if need > a then raise .insufficientCredit s else .next (s.goto .done) := by
  rw [reserve, atIdle_idle hp, if_neg (by simp [hc])]

theorem reserve_granted (hp : s.phase = .idle) (hc : s.fc.configured = true) (hcredit : s.creditIs a rest)
    (hneed : need ≤ a) : reserve r need s = .next (((s.creditTaken rest).latch r).goto .done) := by
  obtain ⟨hcount, hfits⟩ := hcredit
  rw [reserve_configured hp hc, availCredit_count (s := s.latch r) hcount hfits]
  exact if_neg (Nat.not_lt.2 hneed)

theorem reserve_short (hp : s.phase = .idle) (hc : s.fc.configured = true) (hcredit : s.creditIs a rest)
    (hneed : a < need) :
    reserve r need s = .next ((s.creditTaken rest).endOperation (Results.only .insufficientCredit)) := by
  obtain ⟨hcount, hfits⟩ := hcredit
  rw [reserve_configured hp hc, availCredit_count (s := s.latch r) hcount hfits]
  exact (if_pos hneed).trans (raise_latch (s := s.creditTaken rest) hp)

theorem reserve_creditError {code : Nat} (hp : s.phase = .idle) (hc : s.fc.configured = true)
    (hcredit : s.env.credit = .error code :: rest) :
    reserve r need s =
      .next ((s.creditTaken rest).endOperation (Results.only (.collaboratorError .credit .idle code))) := by
  rw [reserve_configured hp hc, availCredit_error (s := s.latch r) hcredit]
  refine (raise_latch (s := s.creditTaken rest) hp).trans ?_
  rw [State.latch_phase, hp]

/-- What R151 and R152 say of the outcome of the request `i` with the need `need`. -/
def ReserveOutcomes (i : Instr) (need : Nat) (s : State) : Prop :=
  (s.fc.configured = false → exec i s = .next (s.endOperation (Results.only .invalidCommand))) ∧
  (s.fc.configured = true → ∀ a rest, s.creditIs a rest →
    (need ≤ a → ∃ t, exec i s = .next t ∧
      step t = .next ((s.creditTaken rest).endOperation (Results.only .ok))) ∧
    (a < need → exec i s = .next ((s.creditTaken rest).endOperation (Results.only .insufficientCredit)))) ∧
  (s.fc.configured = true → ∀ code rest, s.env.credit = .error code :: rest →
    exec i s = .next ((s.creditTaken rest).endOperation (Results.only (.collaboratorError .credit .idle code))))

/-- A request that is run as a reserve, of an operation that answers Ok, has the outcomes of a reserve. -/
theorem reserve_outcomes {i : Instr} (hs : s.ready) (hi : exec i s = reserve r need s)
    (hok : ∀ u : State, u.req = r → u.successResults = Results.only .ok) : ReserveOutcomes i need s := by
  obtain ⟨hp, hr⟩ := hs
  rw [ReserveOutcomes, hi]
  refine ⟨reserve_unconfigured hp, fun hc a rest hcredit => ⟨fun hneed => ?_, reserve_short hp hc hcredit⟩,
    fun hc code rest hcredit => reserve_creditError hp hc hcredit⟩
  refine ⟨_, reserve_granted hp hc hcredit hneed, ?_⟩
  rw [step_goto_done (s := (s.creditTaken rest).latch r) hr, State.finish_latch, hok _ rfl]

end

/-! ### DECODE.NONE, CONFIG and VALIDATE -/

theorem exec_decodeNone_idle {s : State} (hp : s.phase = .idle) :
    exec .decodeNone s = .next ((s.latch (Request.ofDecode .none)).goto .done) := by
  simp only [exec, execDecodeNone, atIdle_idle hp]

/-- CONFIG in IDLE: the check of the sizes, then the write and phase DONE (R156). -/
theorem exec_config_idle {s : State} {bs bk : Nat} (hp : s.phase = .idle) :
    exec (.config bs bk) s =
      if bs = 0 ∨ bk = 0 ∨ bk > Config.blockSizeMax then raise .invalidCommand (s.latch (Request.ofConfig bs bk))
      else .next ({ s with
        req := Request.ofConfig bs bk,
        fc := { s.fc with bufferSize := bs, blockSize := bk, configured := true } }.goto .done) := by
  simp only [exec, execConfig, atIdle_idle hp]

/-- EXECUTE in IDLE: VALIDATE, the admission of a data phase, then the frame (R165, R167). -/
theorem exec_execute_idle {s : State} {d : Descriptor} (hp : s.phase = .idle) :
    exec (.execute d) s =
      if (Request.ofDescriptor d).invalidDescriptor then raise .invalidCommand (s.latch (Request.ofDescriptor d))
      else if d.flags.data then
        xferAdmit (s.latch (Request.ofDescriptor d)) fun n s => .next ((s.startBlocks n).goto .frame)
      else .next ((s.latch (Request.ofDescriptor d)).goto .frame) := by
  simp only [exec, execExecute, atIdle_idle hp]

/-- The checks V1 to V5, one by one (R166). -/
theorem Request.invalidDescriptor_iff (r : Request) :
    r.invalidDescriptor = true ↔
      63 < r.index ∨ r.flags.noresp ≠ decide (r.sel = .none) ∨ (r.flags.multi = true ∧ r.flags.data = false) ∨
        (r.flags.write = true ∧ r.flags.data = false) ∨
        (r.flags.data = true ∧ (r.buf = none ∨ r.blockLength = 0)) := by
  simp [Request.invalidDescriptor, or_assoc]

end Sys2Proof.Machine

namespace Sys2Proof

open Machine

/-- Settles O8: in the decoder a reserved code is an instruction of its own and reserved bits are an error; both are
refused in IDLE. -/
theorem reservedRequestsRefused : Obligations.ReservedRequestsRefused :=
  ⟨fun _ b c hp => ⟨exec_reservedAB hp b, exec_reservedCF hp c⟩, fun _ _ _ hs hport hr =>
    (step_request hs hport).trans
      (fetchRequest_reserved (by exact hs.1) hr)⟩

/-- Settles O13: the index check, then the one CRC call, whose answer decides between DONE and the failure. -/
theorem encodeBuildsFrame : Obligations.EncodeBuildsFrame := by
  refine ⟨fun r h => decodeRequest_encode h, fun index arg s hs => ?_⟩
  obtain ⟨hp, hr⟩ := hs
  refine ⟨fun hwide => ?_, fun hlegal s' hcrc => ?_, fun hlegal code rest herr => ?_⟩
  · rw [exec_encode_idle hp, if_pos hwide, raise_latch hp]
  · obtain ⟨hpar, hreset⟩ := hcrc.kept
    rw [exec_encode_idle hp, if_neg (Nat.not_lt.2 hlegal), crcCall_answers (hcrc.latch _)]
    refine ⟨_, rfl, ?_⟩
    rw [step_goto_done (s := s'.latch (Request.ofEncode index arg)) (hreset.trans hr), State.finish_latch,
      successResults_encode, hpar, encodeFrame_legal s.params arg hlegal]
    rfl
  · rw [exec_encode_idle hp, if_neg (Nat.not_lt.2 hlegal),
      crcCall_error (s := s.latch (Request.ofEncode index arg)) herr]
    refine (raise_latch (s := { s with env := { s.env with crcErrs := rest } }) hp).trans ?_
    rw [State.latch_phase, hp]

/-- Settles O39: a reserve whose need is counted in buffer units. -/
theorem reserveSend : Obligations.ReserveSend :=
  ⟨fun _ h => decodeRequest_reserveSend h, fun _ _ hs =>
    reserve_outcomes hs rfl fun _ hreq => by simp only [State.successResults, hreq]; rfl⟩

/-- Settles O40: a reserve whose need is counted in bytes. -/
theorem reserveRecv : Obligations.ReserveRecv :=
  ⟨fun _ h => decodeRequest_reserveRecv h, fun _ _ hs =>
    reserve_outcomes hs rfl fun _ hreq => by simp only [State.successResults, hreq]; rfl⟩

/-- Settles O44: the one check of CONFIG, and the step of phase DONE. -/
theorem configSeeds : Obligations.ConfigSeeds := by
  refine ⟨fun r h => decodeRequest_config h, fun bs bk s hs => ?_⟩
  obtain ⟨hp, hr⟩ := hs
  refine ⟨fun hbs hbk hmax => ?_, fun hbad => ?_⟩
  · have hlegal : ¬(bs = 0 ∨ bk = 0 ∨ bk > Config.blockSizeMax) := by
      unfold Config.blockSizeMax
      omega
    rw [exec_config_idle hp, if_neg hlegal]
    exact ⟨_, rfl, step_goto_done (s := { s with
      req := Request.ofConfig bs bk,
      fc := { s.fc with bufferSize := bs, blockSize := bk, configured := true } }) hr⟩
  · rw [exec_config_idle hp]
    exact (if_pos hbad).trans (raise_latch hp)

/-- Settles O49: VALIDATE on the latched descriptor. -/
theorem executeValidates : Obligations.ExecuteValidates := by
  refine ⟨fun r h => decodeRequest_execute h, fun d s hp hbad => ?_⟩
  have hinvalid : (Request.ofDescriptor d).invalidDescriptor = true := (Request.invalidDescriptor_iff _).2 hbad
  rw [exec_execute_idle hp, if_pos hinvalid, raise_latch hp]

/-- Settles O17: no window is opened, and by the invariant no response byte is held in IDLE. -/
theorem decodeNone : Obligations.DecodeNone := by
  refine ⟨fun r h hsel => decodeRequest_decode (sel := .none) h hsel, fun s hs hinv => ?_⟩
  obtain ⟨hp, hr⟩ := hs
  have hresp : s.resp = [] := by
    have hph := hinv.phaseInv
    rw [State.phaseInv, hp] at hph
    obtain ⟨-, -, hresp⟩ := hph
    exact hresp
  refine ⟨_, exec_decodeNone_idle hp, ?_⟩
  rw [step_goto_done (s := s.latch (Request.ofDecode .none)) hr, State.finish_latch, ← hresp]
  rfl

end Sys2Proof
end

section
/-! PROOFS. The wire items, each in the phase that sends or receives it, and the response of a DECODE with bytes after
its marker. -/

namespace Sys2Proof.Machine

/-- Outside the phases that read a block a failure ends the operation and leaves the buffer (R68, R211). -/
theorem State.fail_outside_read {f : OpOutcome} {s : State} (hdata : ∀ j i, s.phase ≠ .rData j i)
    (hcrc : ∀ j low, s.phase ≠ .rCrc j low) : s.fail f = s.endOperation (Results.only f) := by
  unfold State.fail State.spoilRead
  split
  · exact absurd ‹_› (hdata _ _)
  · exact absurd ‹_› (hcrc _ _)
  · rfl

/-- What follows a response: the data phase of an EXECUTE that has one, else the end (R186, R187). -/
theorem Request.afterResponse_eq (r : Request) :
    r.afterResponse = if r.op = .execute ∧ r.flags.data = true then r.dataStart else .done := by
  unfold Request.afterResponse
  cases r.op <;> simp

/-- A send commit whose sum fits CNT_W bits (R153). -/
theorem commitSendUnits_fits {n : Nat} {s : State} {k : State → Out}
    (h : s.fc.txSentBuffers + s.fc.units n < 2 ^ s.params.cntW) :
    commitSendUnits n s k =
      k { s with fc := { s.fc with txSentBuffers := s.fc.txSentBuffers + s.fc.units n } } := if_pos h

/-! ### The response window -/

section

variable {s : State} {bs : List Byte} {rest : List WireAnswer}

theorem State.traced_nil (h : s.env.slave = rest) : s.traced [] rest = s := by
  subst h
  simp [State.traced]

theorem State.goto_self {p : Phase} (h : s.phase = p) : s.goto p = s := by
  subst h
  rfl

/-- A pull of the first of the bytes that the slave sends. -/
theorem pull_sends {b : Byte} {k : Byte → State → Out} (h : s.slaveSends (b :: bs) rest) :
    pull s k = k b (s.traced (pulls [b]) (bs.map .byte ++ rest)) := pull_byte h

/-- An idle byte uses up one byte of the window (R110). -/
theorem step_scan_idle {k : Nat} (hr : s.env.resetLine = false) (hp : s.phase = .rspScan k)
    (hk : k < s.req.scanBound) (h : s.slaveSends (Config.idleByte :: bs) rest) :
    step s = .next ((s.traced (pulls [Config.idleByte]) (bs.map .byte ++ rest)).goto (.rspScan (k + 1))) := by
  rw [step_fetch hr, fetch_scan hp, fetchScan, if_neg (Nat.not_le.2 hk), pull_sends h, if_pos rfl,
    received_of_decode (show decodeWire .idle [Config.idleByte] = .ok .idle from rfl)]
  exact execIdle_scan hp

/-- Idle bytes are pulled one by one while the window is open (R110). -/
theorem steps_scan_idle (n : Nat) {k : Nat} (hr : s.env.resetLine = false) (hp : s.phase = .rspScan k)
    (hk : k + n ≤ s.req.scanBound) (h : s.slaveSends (List.replicate n Config.idleByte ++ bs) rest) :
    steps n s = .next ((s.traced (pulls (List.replicate n Config.idleByte)) (bs.map .byte ++ rest)).goto
      (.rspScan (k + n))) := by
  induction n generalizing s k with
  | zero =>
    have hnone : s.traced (pulls []) (bs.map .byte ++ rest) = s := State.traced_nil h
    rw [steps_zero, List.replicate_zero, hnone, Nat.add_zero, State.goto_self hp]
  | succ n ih =>
    have hfirst := step_scan_idle hr hp (by omega) h
    have hk' : k + 1 + n ≤ s.req.scanBound := by omega
    refine (steps_succ hfirst).trans (Eq.trans (ih hr rfl hk' rfl) ?_)
    simp [State.traced, State.goto, pulls, List.replicate_succ, Nat.add_right_comm, Nat.add_assoc]

/-- With the window used up the scan fails (R110, R203). -/
theorem step_scan_timeout {k : Nat} (hr : s.env.resetLine = false) (hp : s.phase = .rspScan k)
    (hk : s.req.scanBound ≤ k) : step s = .next (s.endOperation (Results.only .responseTimeout)) := by
  rw [step_fetch hr, fetch_scan hp, fetchScan, if_pos hk, raise, State.fail_outside_read (by simp [hp]) (by simp [hp])]

/-- A window of idle bytes alone ends the operation with ResponseTimeout (R203). -/
theorem steps_scan_timeout (hr : s.env.resetLine = false) (hp : s.phase = .rspScan 0)
    (h : s.slaveSends (List.replicate s.req.scanBound Config.idleByte) rest) :
    steps (s.req.scanBound + 1) s =
      .next ((s.traced (pulls (List.replicate s.req.scanBound Config.idleByte)) rest).endOperation
        (Results.only .responseTimeout)) := by
  have hidle := steps_scan_idle s.req.scanBound (bs := []) hr hp (by omega) (by rwa [List.append_nil])
  exact (steps_add hidle).trans (steps_succ (n := 0) (step_scan_timeout hr rfl (Nat.le_add_left _ _)))

/-- The marker of a response that has bytes after it (R113, R114). -/
theorem step_scan_marker {k : Nat} {m : Byte} (hr : s.env.resetLine = false) (hp : s.phase = .rspScan k)
    (hk : k < s.req.scanBound) (hsel : s.req.sel ≠ .r1) (hm : m ≠ Config.idleByte)
    (h : s.slaveSends (m :: bs) rest) :
    step s = .next { s.traced (pulls [m]) (bs.map .byte ++ rest) with
      resp := [m], phase := .rspRest (rspLen s.req.sel - 1) } := by
  rw [step_fetch hr, fetch_scan hp, fetchScan, if_neg (Nat.not_le.2 hk), pull_sends h, if_neg hm]
  split
  · exact absurd ‹_› hsel
  · rfl

/-- A response byte that is not the last is kept, whatever its value (R113). -/
theorem step_rest_more {r : Nat} {b : Byte} (hr : s.env.resetLine = false) (hp : s.phase = .rspRest (r + 2))
    (h : s.slaveSends (b :: bs) rest) :
    step s = .next { s.traced (pulls [b]) (bs.map .byte ++ rest) with
      resp := s.resp ++ [b], phase := .rspRest (r + 1) } := by
  rw [step_fetch hr, fetch_rest hp, fetchRest, pull_sends h, if_neg (by omega)]
  rfl

/-- The last byte completes the response, whatever its value (R113, R114). -/
theorem step_rest_last {b : Byte} (hr : s.env.resetLine = false) (hp : s.phase = .rspRest 1)
    (hsel : s.req.sel = .r4 ∨ s.req.sel = .r5) (hlen : s.resp.length + 1 = rspLen s.req.sel)
    (hhead : s.resp.head? ≠ some Config.idleByte) (h : s.slaveSends (b :: bs) rest) :
    step s = .next { s.traced (pulls [b]) (bs.map .byte ++ rest) with
      resp := s.resp ++ [b], phase := s.req.afterResponse } := by
  obtain ⟨i, hi, hexec⟩ := decodeWire_rest hsel hlen hhead b
  rw [step_fetch hr, fetch_rest hp, fetchRest, pull_sends h, if_pos le_rfl]
  refine (received_of_decode hi).trans ((hexec _).trans ?_)
  exact takeResponse_rest hp

/-- The bytes after the marker, whatever their values (R113, R114, R117). -/
theorem steps_rest (ps : List Byte) (hr : s.env.resetLine = false) (hp : s.phase = .rspRest ps.length)
    (hsel : s.req.sel = .r4 ∨ s.req.sel = .r5) (hne : ps ≠ []) (hresp : s.resp ≠ [])
    (hlen : s.resp.length + ps.length = rspLen s.req.sel) (hhead : s.resp.head? ≠ some Config.idleByte)
    (h : s.slaveSends ps rest) :
    steps ps.length s = .next { s.traced (pulls ps) rest with
      resp := s.resp ++ ps, phase := s.req.afterResponse } := by
  induction ps generalizing s with
  | nil => exact absurd rfl hne
  | cons p ps ih =>
    cases ps with
    | nil => exact steps_succ (n := 0) (step_rest_last hr hp hsel hlen hhead h)
    | cons q ps =>
      have hhead' : (s.resp ++ [p]).head? ≠ some Config.idleByte := by rwa [List.head?_append_of_ne_nil _ hresp]
      have hresp' : s.resp ++ [p] ≠ [] := List.append_ne_nil_of_right_ne_nil _ (List.cons_ne_nil _ _)
      have hlen' : (s.resp ++ [p]).length + (q :: ps).length = rspLen s.req.sel := by
        simp only [List.length_append, List.length_cons, List.length_nil] at hlen ⊢
        omega
      refine (steps_succ (step_rest_more hr hp h)).trans
        (Eq.trans (ih hr rfl hsel (List.cons_ne_nil _ _) hresp' hlen' hhead' rfl) ?_)
      simp [State.traced, pulls]

/-- A response with bytes after its marker, wherever in the window the marker is (R113, R114, R117). -/
theorem steps_response {k : Nat} {m : Byte} {ps : List Byte} (hr : s.env.resetLine = false)
    (hp : s.phase = .rspScan 0) (hk : k < s.req.scanBound) (hm : m ≠ Config.idleByte)
    (hsel : s.req.sel = .r4 ∨ s.req.sel = .r5) (hlen : ps.length + 1 = rspLen s.req.sel)
    (h : s.slaveSends (List.replicate k Config.idleByte ++ m :: ps) rest) :
    steps (k + (ps.length + 1)) s = .next { s.traced (pulls (List.replicate k Config.idleByte ++ m :: ps)) rest with
      resp := m :: ps, phase := s.req.afterResponse } := by
  have hne : ps ≠ [] := by
    rintro rfl
    rcases hsel with hsel | hsel <;> simp [hsel, rspLen] at hlen
  have hr1 : s.req.sel ≠ .r1 := by rcases hsel with hsel | hsel <;> simp [hsel]
  have hrest : rspLen s.req.sel - 1 = ps.length := by omega
  have hscan := steps_scan_idle k hr hp (by omega) h
  rw [Nat.zero_add] at hscan
  refine (steps_add hscan).trans (Eq.trans (steps_succ (step_scan_marker hr rfl hk hr1 hm rfl)) ?_)
  refine Eq.trans (steps_rest ps hr (congrArg Phase.rspRest hrest) hsel hne (List.cons_ne_nil _ _)
    ((Nat.add_comm _ _).trans hlen) (by simpa using hm) rfl) ?_
  simp [State.traced, State.goto, pulls]

end

/-! ### DECODE with bytes after the marker -/

theorem startDecode_idle {s : State} {sel : Sel} (hp : s.phase = .idle) :
    startDecode sel s = .next ((s.latch (Request.ofDecode sel)).goto (.rspScan 0)) := by
  rw [startDecode, atIdle_idle hp]

section

variable {s : State} {sel : Sel} {rest : List WireAnswer}

/-- From the opened window to the end of a DECODE: `k` idle bytes, the marker and the bytes after it (R113, R114). -/
theorem steps_decode_response {k : Nat} {m : Byte} {ps : List Byte} (hr : s.env.resetLine = false) (hk : k ≤ 7)
    (hm : m ≠ Config.idleByte) (hsel : sel = .r4 ∨ sel = .r5) (hlen : ps.length + 1 = rspLen sel)
    (h : s.slaveSends (List.replicate k Config.idleByte ++ m :: ps) rest) :
    steps (k + (ps.length + 1) + 1) ((s.latch (Request.ofDecode sel)).goto (.rspScan 0)) =
      .next ((s.traced (pulls (List.replicate k Config.idleByte ++ m :: ps)) rest).endOperation
        { Results.only .success with response := some (m :: ps) }) := by
  have hresponse := steps_response (s := (s.latch (Request.ofDecode sel)).goto (.rspScan 0)) hr rfl
    (Nat.lt_succ_of_le hk) hm hsel hlen h
  refine (steps_add hresponse).trans (steps_succ (n := 0) (Eq.trans (step_fetch hr) (Eq.trans (fetch_done rfl) ?_)))
  rcases hsel with rfl | rfl
  · rfl
  · rfl

/-- Eight idle bytes end a DECODE with ResponseTimeout (R203). -/
theorem steps_decode_timeout (hr : s.env.resetLine = false)
    (h : s.slaveSends (List.replicate 8 Config.idleByte) rest) :
    steps 9 ((s.latch (Request.ofDecode sel)).goto (.rspScan 0)) =
      .next ((s.traced (pulls (List.replicate 8 Config.idleByte)) rest).endOperation
        (Results.only .responseTimeout)) :=
  steps_scan_timeout (s := (s.latch (Request.ofDecode sel)).goto (.rspScan 0)) hr rfl h

end

end Sys2Proof.Machine

namespace Sys2Proof

open Machine

/-- Settles O20: the window of eight bytes, the marker with four bytes after it, and the step of phase DONE. -/
theorem decodeR4 : Obligations.DecodeR4 := by
  refine ⟨fun r h hsel => decodeRequest_decode (sel := .r4) h hsel, fun s hs => ?_⟩
  obtain ⟨hp, hr⟩ := hs
  refine ⟨fun k m ps rest hk hm hlen h => ⟨_, startDecode_idle hp, ?_⟩, fun rest h =>
    ⟨_, startDecode_idle hp, steps_decode_timeout hr h⟩⟩
  have hend := steps_decode_response (sel := .r4) hr hk hm (.inl rfl) (congrArg Nat.succ hlen) h
  rwa [hlen] at hend

/-- Settles O28: a push in each of the three phases. -/
theorem dataBytesSent : Obligations.DataBytesSent := by
  intro s payload crc b rest j hslave
  refine ⟨fun i x hp hx => ?_, fun hp => ?_, fun hp => ?_⟩
  · simp only [exec, execDataBlock_data hp, push_byte hslave, List.getD_eq_getElem?_getD, hx]
    rfl
  · simp only [exec, execDataBlock_crcHigh hp, push_byte hslave]
    rfl
  · simp only [exec, execDataBlock_crcLow hp, push_byte hslave]
    rfl

/-- Settles O31: the acceptance table decides between the commit and CrcMismatch. -/
theorem dataResponseTaken : Obligations.DataResponseTaken := by
  intro s d j hp
  simp only [exec, execDataResp_dresp hp]
  refine ⟨fun haccepted hfits => ?_, fun hrejected => ?_⟩
  · rw [if_pos haccepted, commitSendUnits_fits hfits]
    rfl
  · rw [if_neg (by simp [hrejected]), raise, State.fail_outside_read (by simp [hp]) (by simp [hp])]

/-- Settles O22: in its phase each response is taken as it is. -/
theorem responsesTaken : Obligations.ResponsesTaken := by
  intro s m p1 p2 p3 p4
  refine ⟨fun k hp => execRspR1_scan hp, fun r hp => ?_⟩
  rw [← Request.afterResponse_eq]
  exact ⟨takeResponse_rest hp, takeResponse_rest hp⟩

/-- Settles O24: the four phases that wait for the idle byte. -/
theorem idleReceived : Obligations.IdleReceived := fun _ =>
  ⟨fun _ hp => execIdle_scan hp, fun _ hp => execIdle_ready hp, fun _ hp => execIdle_busy hp,
    fun _ _ hp => execIdle_poll hp⟩

/-- Settles O25: a push for each token sent; the start token received has no exchange of its own. -/
theorem tokensSent : Obligations.TokensSent := by
  intro s b rest hslave
  refine ⟨fun hp => ⟨?_, ?_⟩, fun hp => ?_, fun j p hp => execTokStartSingle_poll hp⟩
  · exact (execTokStartSingle_token hp).trans (push_byte hslave)
  · exact (execTokStartMultiWr_token hp).trans (push_byte hslave)
  · exact (execTokStop_stop hp).trans (push_byte hslave)

end Sys2Proof
end

section
/-! PROOFS. PARSE_FRAME undoes ENCODE's frame. -/

namespace Sys2Proof.Machine

/-- The CRC byte is not among the bytes the CRC covers (R71, R74). -/
theorem frameOf_take_five (index : BitVec 6) (arg : Word32) (crc : BitVec 7) :
    (frameOf index arg crc).take 5 = frameHead index arg := rfl

/-- PARSE_FRAME reads the fields of a frame back whatever its CRC field holds; the CRC check compares that field with the
CRC of the frame (R102). -/
theorem parseFrame_frameOf (p : Params) (index : BitVec 6) (arg : Word32) (crc : BitVec 7) :
    parseFrame p (frameOf index arg crc) =
      { wellFormed := true, index := index, arg := arg, crc := crc, crcOk := crc == frameCrc p index arg } := by
  obtain ⟨hstart, hdirection⟩ := frameIndexByte_fixed index
  rw [parseFrame, frameOf_take_five, ← frameCrc]
  simp only [frameOf, List.getD_cons_zero, List.getD_cons_succ, hstart, hdirection, frameCrcByte_fixed,
    frameIndexByte_index, frameArgBytes_append, frameCrcByte_crc, Bool.not_false, Bool.and_self]

end Sys2Proof.Machine

namespace Sys2Proof

open Machine

/-- Settles O15: the CRC field of an encoded frame is the frame's own CRC, so PARSE_FRAME's check succeeds. -/
theorem frameRoundTrip : Obligations.FrameRoundTrip := by
  intro p index arg _
  rw [encodeFrame, parseFrame_frameOf, beq_self_eq_true, frameOf_take_five, frameCrc]

end Sys2Proof
end

section
/-! PROOFS. The response scan with the marker of any selector, DECODE.R1 and DECODE.R5, and the status of a response. -/

namespace Sys2Proof.Machine

/-- The bound of the scan, by operation (R110, R169). -/
theorem Request.scanBound_of_op {r : Request} {bound : Nat}
    (h : (r.op = .decode ∧ bound = 8) ∨ (r.op = .execute ∧ bound = min 8 r.timeout)) : r.scanBound = bound := by
  rcases h with ⟨hop, rfl⟩ | ⟨hop, rfl⟩
  · simp only [Request.scanBound, hop, Config.rspMaxDelay]
  · simp only [Request.scanBound, hop, Config.rspMaxDelay]

/-- Where the marker leads: the status check for R1, else the bytes after the marker (R112 to R114, R186). -/
def Request.afterMarker (r : Request) : Phase := if r.sel = .r1 then .status else .rspRest (rspLen r.sel - 1)

@[simp] theorem State.traced_req (w : List (Byte × Byte)) (rest : List WireAnswer) (s : State) :
    (s.traced w rest).req = s.req := rfl

section

variable {s : State} {k : Nat} {m : Byte} {bs : List Byte} {rest : List WireAnswer}

/-- The marker of an R1 is its whole response (R112). -/
theorem step_scan_marker_r1 (hr : s.env.resetLine = false) (hp : s.phase = .rspScan k) (hk : k < s.req.scanBound)
    (hsel : s.req.sel = .r1) (hm : m ≠ Config.idleByte) (h : s.slaveSends (m :: bs) rest) :
    step s = .next { s.traced (pulls [m]) (bs.map .byte ++ rest) with resp := [m], phase := .status } := by
  have hdecode : decodeWire .rspR1 [m] = .ok (.rspR1 m) := if_neg hm
  rw [step_fetch hr, fetch_scan hp, fetchScan, if_neg (Nat.not_le.2 hk), pull_sends h, if_neg hm]
  simp only [State.traced_req, hsel, received_of_decode hdecode]
  exact execRspR1_scan hp

/-- The scan holds the marker, whatever the selector, and pulls nothing after it (R110). -/
theorem step_scan_marker_held (hr : s.env.resetLine = false) (hp : s.phase = .rspScan k) (hk : k < s.req.scanBound)
    (hm : m ≠ Config.idleByte) (h : s.slaveSends (m :: bs) rest) :
    step s = .next { s.traced (pulls [m]) (bs.map .byte ++ rest) with
      resp := [m], phase := s.req.afterMarker } := by
  by_cases hsel : s.req.sel = .r1
  · rw [Request.afterMarker, if_pos hsel, step_scan_marker_r1 hr hp hk hsel hm h]
  · rw [Request.afterMarker, if_neg hsel, step_scan_marker hr hp hk hsel hm h]

/-- `k` idle bytes and the marker take `k + 1` pulls (R110). -/
theorem steps_scan_marker (hr : s.env.resetLine = false) (hp : s.phase = .rspScan 0) (hk : k < s.req.scanBound)
    (hm : m ≠ Config.idleByte) (h : s.slaveSends (List.replicate k Config.idleByte ++ [m]) rest) :
    steps (k + 1) s = .next { s.traced (pulls (List.replicate k Config.idleByte ++ [m])) rest with
      resp := [m], phase := s.req.afterMarker } := by
  have hidle := steps_scan_idle k hr hp (by omega) h
  rw [Nat.zero_add] at hidle
  refine (steps_add hidle).trans (Eq.trans (steps_succ (n := 0) (step_scan_marker_held hr rfl hk hm rfl)) ?_)
  simp [steps_zero, State.traced, State.goto, pulls]

/-- The status check never fails a DECODE (R116, R187). -/
theorem step_status_decode (hr : s.env.resetLine = false) (hp : s.phase = .status) (hop : s.req.op = .decode) :
    step s = .next (s.goto .done) := by
  rw [step_fetch hr, fetch_status hp]
  simp only [statusCheck, Request.afterResponse, hop]

/-- From the opened window to the end of a DECODE.R1: `k` idle bytes, the marker, the status check and DONE (R112). -/
theorem steps_decode_r1 (hr : s.env.resetLine = false) (hk : k ≤ 7) (hm : m ≠ Config.idleByte)
    (h : s.slaveSends (List.replicate k Config.idleByte ++ [m]) rest) :
    steps (k + 3) ((s.latch (Request.ofDecode .r1)).goto (.rspScan 0)) =
      .next ((s.traced (pulls (List.replicate k Config.idleByte ++ [m])) rest).endOperation
        { Results.only .success with response := some [m], status := some (rStatus m) }) := by
  have hmarker := steps_scan_marker (s := (s.latch (Request.ofDecode .r1)).goto (.rspScan 0)) hr rfl
    (Nat.lt_succ_of_le hk) hm h
  calc steps (k + 3) ((s.latch (Request.ofDecode .r1)).goto (.rspScan 0))
      = steps 2 _ := steps_add (n := 2) hmarker
    _ = steps 1 _ := steps_succ (step_status_decode hr rfl rfl)
    _ = steps 0 _ := steps_succ (step_goto_done hr)
    _ = _ := rfl

end

/-! ### The result registers of a response -/

/-- A DECODE and an EXECUTE that succeed answer the response and its status (R22, R115). -/
theorem State.successResults_response {s : State} (h : s.req.op = .decode ∨ s.req.op = .execute) :
    s.successResults.response = some s.resp ∧ s.successResults.status = s.statusResult := by
  rcases h with hop | hop
  · simp only [State.successResults, hop, and_self]
  · simp only [State.successResults, hop, and_self]

theorem State.statusResult_r1 {s : State} {m : Byte} (hsel : s.req.sel = .r1) (hresp : s.resp = [m]) :
    s.statusResult = some (rStatus m) := by
  simp only [State.statusResult, hsel, hresp, List.headD_cons]

theorem State.statusResult_none {s : State} (hsel : s.req.sel ≠ .r1) : s.statusResult = none := by
  unfold State.statusResult
  split
  · exact absurd ‹_› hsel
  · rfl

end Sys2Proof.Machine

namespace Sys2Proof

open Machine

/-- Settles O16: the scan under its bound, with and without a marker in the window. -/
theorem scanFindsMarker : Obligations.ScanFindsMarker := by
  intro s bound hr hp hop
  obtain rfl := Request.scanBound_of_op hop
  exact ⟨fun k m rest hk hm h => steps_scan_marker hr hp hk hm h, fun rest h => steps_scan_timeout hr hp h⟩

/-- Settles O18: the window of eight bytes, the marker, the status check and the step of phase DONE. -/
theorem decodeR1 : Obligations.DecodeR1 := by
  refine ⟨fun r h hsel => decodeRequest_decode (sel := .r1) h hsel, fun s hs => ?_⟩
  obtain ⟨hp, hr⟩ := hs
  exact ⟨fun k m rest hk hm h => ⟨_, startDecode_idle hp, steps_decode_r1 hr hk hm h⟩,
    fun rest h => ⟨_, startDecode_idle hp, steps_decode_timeout hr h⟩⟩

/-- Settles O19: the window of eight bytes, the marker with one byte after it, and the step of phase DONE. -/
theorem decodeR5 : Obligations.DecodeR5 := by
  refine ⟨fun r h hsel => decodeRequest_decode (sel := .r5) h hsel, fun s hs => ?_⟩
  obtain ⟨hp, hr⟩ := hs
  exact ⟨fun k m p rest hk hm h => ⟨_, startDecode_idle hp, steps_decode_response hr hk hm (.inr rfl) rfl h⟩,
    fun rest h => ⟨_, startDecode_idle hp, steps_decode_timeout hr h⟩⟩

/-- Settles O21: the step of phase DONE writes the response, and the status that its selector gives. -/
theorem statusFlags : Obligations.StatusFlags := by
  intro s hr hp hop
  obtain ⟨hresponse, hstatus⟩ := State.successResults_response hop
  exact ⟨s.finish, (step_fetch hr).trans (fetch_done hp), hresponse, fun hsel => hstatus.trans (State.statusResult_none hsel),
    fun m hsel hresp => hstatus.trans (State.statusResult_r1 hsel hresp)⟩

end Sys2Proof
end

section
/-! PROOFS. The waits of a data phase, each a poll for one byte, and a block read. -/

namespace Sys2Proof.Machine

section

variable {s : State} {bs cs : List Byte} {w w' : List (Byte × Byte)} {rest rest' : List WireAnswer}

/-! ### Exchanges one after the other -/

theorem State.traced_traced : (s.traced w rest).traced w' rest' = s.traced (w ++ w') rest' := by
  simp [State.traced]

theorem pulls_append : pulls (bs ++ cs) = pulls bs ++ pulls cs := List.map_append

/-- Bytes sent one after the other: those of the first part come first, the others after them. -/
theorem State.slaveSends_append : s.slaveSends (bs ++ cs) rest ↔ s.slaveSends bs (cs.map .byte ++ rest) := by
  rw [State.slaveSends, State.slaveSends, List.map_append, List.append_assoc]

end

theorem steps_one (s : State) : steps 1 s = step s := by
  rw [steps]
  cases step s <;> rfl

/-! ### Waiting for a byte (R131, R133, R134) -/

/-- In phase `wait p`, with `p` polls left, CORE waits for the byte `x`: it goes on with `found`, any other byte costs
one poll, and with no poll left the operation fails. -/
structure WaitsFor (x : Byte) (wait : Nat → Phase) (found : State → State) : Prop where
  other : ∀ {s : State} {b : Byte} {bs : List Byte} {rest : List WireAnswer} {p : Nat}, s.env.resetLine = false →
    s.phase = wait (p + 1) → b ≠ x → s.slaveSends (b :: bs) rest →
    step s = .next ((s.traced (pulls [b]) (bs.map .byte ++ rest)).goto (wait p))
  awaited : ∀ {s : State} {rest : List WireAnswer} {p : Nat}, s.env.resetLine = false → s.phase = wait (p + 1) →
    s.slaveSends [x] rest → step s = .next (found (s.traced (pulls [x]) rest))
  exhausted : ∀ {s : State}, s.env.resetLine = false → s.phase = wait 0 →
    step s = .next (s.endOperation (Results.only .blockTimeout))
  found_goto : ∀ (s : State) (p : Phase), found (s.goto p) = found s

section

variable {s : State} {x : Byte} {wait : Nat → Phase} {found : State → State} {bs cs : List Byte} {p : Nat}
  {rest : List WireAnswer}

/-- Bytes that are not awaited are pulled one by one while polls are left. -/
theorem WaitsFor.steps_others (hw : WaitsFor x wait found) (hr : s.env.resetLine = false)
    (hp : s.phase = wait (p + bs.length)) (hbs : ∀ b ∈ bs, b ≠ x) (h : s.slaveSends (bs ++ cs) rest) :
    steps bs.length s = .next ((s.traced (pulls bs) (cs.map .byte ++ rest)).goto (wait p)) := by
  induction bs generalizing s with
  | nil =>
    have hnone : s.traced (pulls []) (cs.map .byte ++ rest) = s := State.traced_nil h
    rw [List.length_nil, steps_zero, hnone]
    exact congrArg _ (State.goto_self hp).symm
  | cons b bs ih =>
    obtain ⟨hb, hbs⟩ := List.forall_mem_cons.1 hbs
    refine (steps_succ (hw.other hr hp hb h)).trans (Eq.trans (ih hr rfl hbs rfl) ?_)
    simp [State.traced, State.goto, pulls]

/-- A wait ends at the byte it waits for, within its budget. -/
theorem WaitsFor.steps_found (hw : WaitsFor x wait found) (hr : s.env.resetLine = false) (hp : s.phase = wait p)
    (hlt : bs.length < p) (hbs : ∀ b ∈ bs, b ≠ x) (h : s.slaveSends (bs ++ [x]) rest) :
    steps (bs.length + 1) s = .next (found (s.traced (pulls (bs ++ [x])) rest)) := by
  obtain ⟨q, rfl⟩ : ∃ q, p = q + 1 + bs.length := ⟨p - 1 - bs.length, by omega⟩
  refine (steps_add (hw.steps_others hr hp hbs h)).trans
    (Eq.trans (steps_succ (n := 0) (hw.awaited hr rfl rfl)) ?_)
  have hend : ((s.traced (pulls bs) ([x].map .byte ++ rest)).goto (wait (q + 1))).traced (pulls [x]) rest =
      (s.traced (pulls (bs ++ [x])) rest).goto (wait (q + 1)) := by simp [State.traced, State.goto, pulls]
  rw [steps_zero, hend, hw.found_goto]

/-- A wait whose budget is used up fails. -/
theorem WaitsFor.steps_exhausted (hw : WaitsFor x wait found) (hr : s.env.resetLine = false)
    (hp : s.phase = wait bs.length) (hbs : ∀ b ∈ bs, b ≠ x) (h : s.slaveSends bs rest) :
    steps (bs.length + 1) s = .next ((s.traced (pulls bs) rest).endOperation (Results.only .blockTimeout)) := by
  have hothers := hw.steps_others (p := 0) (cs := []) hr (by rwa [Nat.zero_add]) hbs (by rwa [List.append_nil])
  exact (steps_add hothers).trans (steps_succ (n := 0) (hw.exhausted hr rfl))

end

/-- With no poll left a wait fails, and the buffer stays as it is (R204, log entry 9). -/
theorem raise_blockTimeout {s : State} (hdata : ∀ j i, s.phase ≠ .rData j i) (hcrc : ∀ j low, s.phase ≠ .rCrc j low) :
    raise .blockTimeout s = .next (s.endOperation (Results.only .blockTimeout)) := by
  rw [raise, State.fail_outside_read hdata hcrc]

section

variable {s : State} {b : Byte} {bs : List Byte} {p : Nat} {again : Phase} {rest : List WireAnswer}

theorem fetchWait_other (hb : b ≠ Config.idleByte) (h : s.slaveSends (b :: bs) rest) :
    fetchWait exec (p + 1) again s = .next ((s.traced (pulls [b]) (bs.map .byte ++ rest)).goto again) := by
  rw [fetchWait, if_neg (Nat.succ_ne_zero p), pull_sends h, if_neg hb]

theorem fetchWait_awaited (h : s.slaveSends [Config.idleByte] rest) :
    fetchWait exec (p + 1) again s = execIdle (s.traced (pulls [Config.idleByte]) rest) := by
  rw [fetchWait, if_neg (Nat.succ_ne_zero p), pull_sends h, if_pos rfl,
    received_of_decode (show decodeWire .idle [Config.idleByte] = .ok .idle from rfl)]
  rfl

end

/-- The wait for ready waits for the idle byte (R131). -/
theorem waitsFor_ready : WaitsFor Config.idleByte .wReady (State.goto .wToken) where
  other hr hp hb h := by rw [step_fetch hr, fetch_ready hp, fetchWait_other hb h, Nat.add_sub_cancel]
  awaited hr hp h := by rw [step_fetch hr, fetch_ready hp, fetchWait_awaited h]; exact execIdle_ready hp
  exhausted hr hp := by
    rw [step_fetch hr, fetch_ready hp, fetchWait, if_pos rfl, raise_blockTimeout (by simp [hp]) (by simp [hp])]
  found_goto _ _ := rfl

/-- The wait for not-busy waits for the idle byte (R133). -/
theorem waitsFor_notBusy : WaitsFor Config.idleByte .wBusy (State.goto .done) where
  other hr hp hb h := by rw [step_fetch hr, fetch_busy hp, fetchWait_other hb h, Nat.add_sub_cancel]
  awaited hr hp h := by rw [step_fetch hr, fetch_busy hp, fetchWait_awaited h]; exact execIdle_busy hp
  exhausted hr hp := by
    rw [step_fetch hr, fetch_busy hp, fetchWait, if_pos rfl, raise_blockTimeout (by simp [hp]) (by simp [hp])]
  found_goto _ _ := rfl

/-- The start token of block `j` has been received: its payload follows (R134). -/
def State.startPayload (j : Nat) (s : State) : State := { s with bx := { s.bx with held := [] }, phase := .rData j 0 }

/-- The poll of block `j` waits for the start token; an idle byte costs a poll like any other (R134). -/
theorem waitsFor_startToken (j : Nat) : WaitsFor Config.tokStartSingleByte (.rPoll j) (State.startPayload j) where
  other {s b bs rest p} hr hp hb h := by
    rw [step_fetch hr, fetch_poll hp, fetchPoll, if_neg (Nat.succ_ne_zero p), pull_sends h, if_neg hb]
    split_ifs with hidle
    · rw [received_of_decode (show decodeWire .idle [b] = .ok .idle from if_pos hidle)]
      exact execIdle_poll (s := s.traced _ _) hp
    · rfl
  awaited {s rest p} hr hp h := by
    rw [step_fetch hr, fetch_poll hp, fetchPoll, if_neg (Nat.succ_ne_zero p), pull_sends h, if_pos rfl,
      received_of_decode (show decodeWire .tokStartSingle [Config.tokStartSingleByte] = .ok .tokStartSingle from rfl)]
    exact execTokStartSingle_poll hp
  exhausted hr hp := by
    rw [step_fetch hr, fetch_poll hp, fetchPoll, if_pos rfl, raise_blockTimeout (by simp [hp]) (by simp [hp])]
  found_goto _ _ := rfl

/-! ### A block read (R135) -/

section

variable {s : State} {j i : Nat} {b : Byte} {bs payload : List Byte} {rest : List WireAnswer}

/-- A payload byte is taken as it comes. -/
theorem step_payload (hr : s.env.resetLine = false) (hp : s.phase = .rData j i) (h : s.slaveSends (b :: bs) rest) :
    step s = .next { s.traced (pulls [b]) (bs.map .byte ++ rest) with
      bx := { s.bx with held := s.bx.held ++ [b] }
      phase := if i + 1 < s.req.blockLength then .rData j (i + 1) else .rCrc j false } := by
  rw [step_fetch hr, fetch_payload hp, pull_sends h]
  rfl

/-- The rest of a payload, from byte `i` to the last. -/
theorem steps_payload (hr : s.env.resetLine = false) (hp : s.phase = .rData j i) (hne : payload ≠ [])
    (hlen : i + payload.length = s.req.blockLength) (h : s.slaveSends (payload ++ bs) rest) :
    steps payload.length s = .next { s.traced (pulls payload) (bs.map .byte ++ rest) with
      bx := { s.bx with held := s.bx.held ++ payload }, phase := .rCrc j false } := by
  induction payload generalizing s i with
  | nil => exact absurd rfl hne
  | cons b payload ih =>
    rw [List.length_cons] at hlen
    refine (steps_succ (step_payload hr hp h)).trans ?_
    rcases eq_or_ne payload [] with rfl | hne
    · rw [if_neg (by rw [← hlen]; simp)]
      rfl
    · have hmore : i + 1 < s.req.blockLength := by have := List.length_pos_iff.2 hne; omega
      rw [if_pos hmore]
      refine Eq.trans (ih hr rfl hne ((Nat.add_right_comm _ _ _).trans hlen) rfl) ?_
      simp [State.traced, pulls]

/-- The CRC bytes of a word put together from two bytes. -/
theorem crcBytes_of_append (hi lo : Byte) : crcBytes (hi ++ lo) = [hi, lo] := by
  rw [crcBytes, BitVec.extractLsb'_append_eq_left, BitVec.extractLsb'_append_eq_right]

theorem step_readHigh {hi : Byte} (hr : s.env.resetLine = false) (hp : s.phase = .rCrc j false)
    (h : s.slaveSends (hi :: bs) rest) :
    step s = .next { s.traced (pulls [hi]) (bs.map .byte ++ rest) with
      bx := { s.bx with crcHi := hi }, phase := .rCrc j true } := by
  rw [step_fetch hr, fetch_readHigh hp, pull_sends h]
  rfl

/-- The second CRC byte completes the block. -/
theorem step_readLow {hi lo : Byte} (hr : s.env.resetLine = false) (hp : s.phase = .rCrc j true)
    (hheld : s.bx.held = payload) (hhi : s.bx.crcHi = hi) (hpos : 1 ≤ payload.length)
    (hmax : payload.length ≤ Config.maxBlock) (h : s.slaveSends [lo] rest) :
    step s = exec (.dataBlock payload (hi ++ lo)) (s.traced (pulls [lo]) rest) := by
  subst hheld hhi
  have hblock := decodeWire_dataBlock (crc := s.bx.crcHi ++ lo) hpos hmax
  rw [crcBytes_of_append] at hblock
  rw [step_fetch hr, fetch_readLow hp, pull_sends h]
  exact received_of_decode hblock

/-- The state in which the last byte of a block is run: the payload is held, and all of the block has been pulled. -/
def State.pulledBlock (j : Nat) (payload : List Byte) (hi lo : Byte) (rest : List WireAnswer) (s : State) : State :=
  { s.traced (pulls (payload ++ [hi, lo])) rest with
    bx := { s.bx with held := payload, crcHi := hi }, phase := .rCrc j true }

/-- The bytes of a block, whatever their values, are pulled, and then the block is run (R135). -/
theorem steps_block {hi lo : Byte} (hr : s.env.resetLine = false) (hp : s.phase = .rData j 0)
    (hheld : s.bx.held = []) (hpos : 1 ≤ s.req.blockLength) (hmax : s.req.blockLength ≤ Config.maxBlock)
    (hlen : payload.length = s.req.blockLength) (h : s.slaveSends (payload ++ [hi, lo]) rest) :
    steps (s.req.blockLength + 2) s = exec (.dataBlock payload (hi ++ lo)) (s.pulledBlock j payload hi lo rest) := by
  have hne : payload ≠ [] := List.ne_nil_of_length_pos (hlen ▸ hpos)
  have hpayload := steps_payload hr hp hne ((Nat.zero_add _).trans hlen) h
  rw [← hlen]
  refine (steps_add hpayload).trans (Eq.trans (steps_succ (step_readHigh hr rfl rfl)) ?_)
  refine Eq.trans ((steps_one _).trans (step_readLow hr rfl (by rw [hheld]; rfl) rfl (hlen ▸ hpos) (hlen ▸ hmax) rfl))
    (congrArg _ ?_)
  simp [State.pulledBlock, State.traced, pulls, hheld]

/-- A block whose CRC matches is stored and committed (R135, R136). -/
def State.storeBlock (j : Nat) (payload : List Byte) (s : State) : State :=
  { s with
    mem := memWriteBlock s.mem (s.req.blockAddr j) payload
    fc := { s.fc with rxGotBytes := s.fc.rxGotBytes + s.req.blockLength }
    bx := { s.bx with doneBytes := s.bx.doneBytes + s.req.blockLength }
    phase := s.afterRead j }

theorem exec_dataBlock_matched (hp : s.phase = .rCrc j true) (hcrc : s.crcSound)
    (hfits : s.fc.rxGotBytes + s.req.blockLength < 2 ^ s.params.cntW) :
    exec (.dataBlock payload (crc16 s.params payload)) s = .next (s.storeBlock j payload) := by
  refine (execDataBlock_received hp).trans ((crcCall_sound hcrc).trans ?_)
  rw [if_pos rfl, commitRecvBytes, if_pos hfits]
  rfl

theorem exec_dataBlock_mismatch {crc : BitVec 16} (hp : s.phase = .rCrc j true) (hcrc : s.crcSound)
    (hmismatch : crc ≠ crc16 s.params payload) :
    exec (.dataBlock payload crc) s = .next (s.fail .crcMismatch) := by
  refine (execDataBlock_received hp).trans ((crcCall_sound hcrc).trans ?_)
  rw [if_neg hmismatch, raise]

/-- A block whose CRC matches, from its first payload byte to its commit. -/
theorem steps_block_matched {hi lo : Byte} (hr : s.env.resetLine = false) (hp : s.phase = .rData j 0)
    (hheld : s.bx.held = []) (hpos : 1 ≤ s.req.blockLength) (hmax : s.req.blockLength ≤ Config.maxBlock)
    (hlen : payload.length = s.req.blockLength) (hcrc : s.crcSound) (hmatch : hi ++ lo = crc16 s.params payload)
    (hfits : s.fc.rxGotBytes + s.req.blockLength < 2 ^ s.params.cntW) (h : s.slaveSends (payload ++ [hi, lo]) rest) :
    steps (s.req.blockLength + 2) s = .next ((s.pulledBlock j payload hi lo rest).storeBlock j payload) := by
  rw [steps_block hr hp hheld hpos hmax hlen h, hmatch]
  exact exec_dataBlock_matched (s := s.pulledBlock j payload hi lo rest) rfl hcrc hfits

end

end Sys2Proof.Machine

namespace Sys2Proof

open Machine

/-- Settles O26: the three waits, each for its byte. -/
theorem waitsEnd : Obligations.WaitsEnd := by
  intro s bs p rest hr hlt
  refine ⟨fun hbs h => ⟨fun hp => ?_, fun hp => ?_⟩, fun hbs h j hp => ?_⟩
  · exact waitsFor_ready.steps_found hr hp hlt hbs h
  · exact waitsFor_notBusy.steps_found hr hp hlt hbs h
  · exact (waitsFor_startToken j).steps_found hr hp hlt hbs h

/-- Settles O27: the three waits, each with its budget used up. -/
theorem waitsTimeOut : Obligations.WaitsTimeOut := by
  intro s bs rest hr h
  refine ⟨fun hbs hp => ?_, fun hbs j hp => (waitsFor_startToken j).steps_exhausted hr hp hbs h⟩
  rcases hp with hp | hp
  · exact waitsFor_ready.steps_exhausted hr hp hbs h
  · exact waitsFor_notBusy.steps_exhausted hr hp hbs h

/-- Settles O30: the block is pulled whole, and then its CRC decides between the store with its commit and
CrcMismatch. -/
theorem blockRead : Obligations.BlockRead := by
  intro s j payload hi lo rest hr hp hinv hcrc hlen h
  have hphase := hinv.phaseInv
  rw [State.phaseInv, hp] at hphase
  obtain ⟨⟨⟨-, -, hpos, hmax, -⟩, -⟩, -, -, hheld⟩ := hphase
  have hnone := List.length_eq_zero_iff.1 hheld
  refine ⟨fun hmatch hfits => steps_block_matched hr hp hnone hpos hmax hlen hcrc hmatch hfits h, fun hmismatch => ?_⟩
  have hpulled := steps_block hr hp hnone hpos hmax hlen h
  have hfail := exec_dataBlock_mismatch (s := s.pulledBlock j payload hi lo rest) rfl hcrc hmismatch
  exact ⟨_, hpulled.trans hfail, State.fail_failedWith _ _, State.fail_fc _ _, State.fail_trace _ _⟩

end Sys2Proof
end

section
/-! PROOFS. The admission of a data phase, and an EXECUTE with data up to the first wait of its data phase. -/

namespace Sys2Proof.Machine

/-! ### Admission (R126) -/

section

variable {s : State} {r : Request} {n a : Nat} {rest : List CreditAnswer} {k : Nat → State → Out}

/-- The operands of `n` blocks pass A2 (R126). -/
theorem Request.payload_le (h : r.xferArgs.blocks r.flags.multi n) : r.payload ≤ Config.maxBlock := by
  obtain ⟨-, -, hmax, -, hlen, hsingle⟩ := h
  unfold Request.payload
  split_ifs with hmulti
  · exact hmax
  · rw [hsingle (by simpa using hmulti), Nat.one_mul] at hlen
    exact Nat.max_le.2 ⟨hmax, hlen.trans_le hmax⟩

/-- The operands of `n` blocks pass A3 (R55, R126). -/
theorem Request.not_badGeometry (h : r.xferArgs.blocks r.flags.multi n) : ¬r.badGeometry = true := by
  obtain ⟨-, hpos, -, hn, hlen, hsingle⟩ := h
  simp only [Request.xferArgs] at hpos hlen
  rw [Request.badGeometry_iff, hlen, Nat.mul_mod_left]
  rintro ((h0 | h0) | ⟨hmulti, hne⟩)
  · exact (Nat.mul_pos hn hpos).ne' h0
  · exact h0 rfl
  · exact hne (by rw [hsingle hmulti, Nat.one_mul])

theorem Request.nblocks_of_blocks (h : r.xferArgs.blocks r.flags.multi n) : r.nblocks = n := by
  obtain ⟨-, hpos, -, -, hlen, -⟩ := h
  exact (congrArg (· / r.blockLength) hlen).trans (Nat.mul_div_cancel n hpos)

theorem Request.creditNeed_of_blocks (fc : FlowControl) (h : r.xferArgs.blocks r.flags.multi n) :
    r.creditNeed fc = fc.need r.flags.write n r.blockLength := by
  obtain ⟨-, -, -, -, hlen, -⟩ := id h
  rw [Request.creditNeed, Request.nblocks_of_blocks h, show r.dataLen = n * r.blockLength from hlen]
  rfl

/-- With legal geometry of `n` blocks, CORE configured and credit for what A5 reserves, admission goes on. -/
theorem xferAdmit_admits (h : r.xferArgs.blocks r.flags.multi n) (hc : s.fc.configured = true)
    (hcredit : s.creditIs a rest) (hneed : s.fc.need r.flags.write n r.blockLength ≤ a) :
    xferAdmit (s.latch r) k = k n ((s.creditTaken rest).latch r) := by
  obtain ⟨hbuf, hpos, -⟩ := id h
  obtain ⟨hcount, hfits⟩ := hcredit
  have h1 : ¬(r.buf = none ∨ r.blockLength = 0) := not_or_intro hbuf (Nat.one_le_iff_ne_zero.1 hpos)
  have h4 : ¬s.fc.configured = false := by simp [hc]
  have h5 : ¬r.creditNeed s.fc > a := by rw [Request.creditNeed_of_blocks s.fc h]; exact Nat.not_lt.2 hneed
  unfold xferAdmit
  rw [State.latch_req, State.latch_fc, if_neg h1, if_neg (Nat.not_lt.2 (Request.payload_le h)),
    if_neg (Request.not_badGeometry h), if_neg h4, availCredit_count (s := s.latch r) hcount hfits]
  exact (if_neg h5).trans (congrArg (k · _) (Request.nblocks_of_blocks h))

end

/-- `s` after the admission of a TRANSFER of `n` blocks (R139). -/
def State.startedXfer (write multi : Bool) (x : XferArgs) (n : Nat) (credits : List CreditAnswer) (s : State) : State :=
  { s.creditTaken credits with
    req := Request.ofXfer write multi x
    bx := { BlockXfer.blank with nblocks := n }
    phase := if write then .wReady x.timeout else .rPoll 0 x.timeout }

/-- A TRANSFER that passes admission (R139). -/
theorem exec_xferInstr_admitted {s : State} {write multi : Bool} {x : XferArgs} {n a : Nat} {rest : List CreditAnswer}
    (hp : s.phase = .idle) (h : x.blocks multi n) (hc : s.fc.configured = true) (hcredit : s.creditIs a rest)
    (hneed : s.fc.need write n x.blockLength ≤ a) :
    exec (xferInstr write multi x) s = .next (s.startedXfer write multi x n rest) := by
  rw [exec_xferInstr, startXfer, atIdle_idle hp]
  exact xferAdmit_admits (r := Request.ofXfer write multi x) h hc hcredit hneed

/-! ### EXECUTE before its data phase (R165 to R171) -/

section

variable {s : State} {d : Descriptor} {win rsp : List Byte} {rest : List WireAnswer}

/-- A consistent descriptor with data fails VALIDATE only where A1 refuses it too (R166, R126). -/
theorem Descriptor.invalid_iff_of_consistent (h : d.consistent) (hdata : d.flags.data = true) :
    (Request.ofDescriptor d).invalidDescriptor = true ↔ d.buf = none ∨ d.blockLength = 0 := by
  obtain ⟨hindex, hnoresp, -⟩ := h
  rw [Request.invalidDescriptor_iff]
  refine ⟨?_, fun h => .inr (.inr (.inr (.inr ⟨hdata, h⟩)))⟩
  rintro (h | h | ⟨-, h⟩ | ⟨-, h⟩ | ⟨-, h⟩)
  · exact absurd hindex (Nat.not_le.2 h)
  · exact absurd hnoresp h
  · exact Bool.noConfusion (hdata.symm.trans h)
  · exact Bool.noConfusion (hdata.symm.trans h)
  · exact h

/-- An EXECUTE whose data phase is admitted goes on to its frame (R167). -/
theorem exec_execute_admitted {n a : Nat} {credits : List CreditAnswer} (hp : s.phase = .idle) (hd : d.consistent)
    (hdata : d.flags.data = true) (h : d.xferArgs.blocks d.flags.multi n) (hc : s.fc.configured = true)
    (hcredit : s.creditIs a credits) (hneed : s.fc.need d.flags.write n d.blockLength ≤ a) :
    exec (.execute d) s = .next { s.creditTaken credits with
      req := Request.ofDescriptor d, bx := { BlockXfer.blank with nblocks := n }, phase := .frame } := by
  obtain ⟨hbuf, hpos, -⟩ := id h
  have hvalid : ¬(Request.ofDescriptor d).invalidDescriptor = true := fun hbad =>
    not_or_intro hbuf (Nat.one_le_iff_ne_zero.1 hpos) ((Descriptor.invalid_iff_of_consistent hd hdata).1 hbad)
  rw [exec_execute_idle hp, if_neg hvalid, if_pos hdata]
  exact xferAdmit_admits (r := Request.ofDescriptor d) h hc hcredit hneed

/-- No response byte is held in IDLE. -/
theorem State.Inv.resp_nil (hinv : s.Inv) (hp : s.phase = .idle) : s.resp = [] := by
  have hphase := hinv.phaseInv
  rw [State.phaseInv, hp] at hphase
  obtain ⟨-, -, hresp⟩ := hphase
  exact hresp

/-- The frame is one call of six bytes, the bytes received discarded (R168). -/
theorem step_frame {rx : List Byte} (hr : s.env.resetLine = false) (hp : s.phase = .frame) (hcrc : s.crcSound)
    (hlen : rx.length = 6) (h : s.slaveSends rx rest) :
    step s = .next ((s.traced ((encodeFrame s.params s.req.index s.req.arg).zip rx) rest).goto s.req.afterFrame) := by
  rw [step_fetch hr, fetch_frame hp, crcCall_sound hcrc]
  exact (execCmdFrame_frame hp).trans (xferN_bytes h hlen)

/-- A status byte without a fatal bit lets an EXECUTE go on (R170). -/
theorem step_status_execute {m : Byte} (hr : s.env.resetLine = false) (hp : s.phase = .status)
    (hop : s.req.op = .execute) (hresp : s.resp = [m]) (hm : m &&& fatalMask s.params s.req.index = 0) :
    step s = .next (s.goto s.req.afterResponse) := by
  have hgood : ¬isFatal s.params s.req.index m = true := by simp [isFatal, hm]
  rw [step_fetch hr, fetch_status hp]
  simp only [statusCheck, hop, hresp, List.headD_cons, if_neg hgood]

/-- An R1 that an EXECUTE accepts: the idle bytes, the marker and the status check (R112, R170). -/
theorem steps_answered_r1 {k : Nat} {m : Byte} (hr : s.env.resetLine = false) (hp : s.phase = .rspScan 0)
    (hop : s.req.op = .execute) (hsel : s.req.sel = .r1) (hk : k < s.req.scanBound) (hm : m ≠ Config.idleByte)
    (hgood : m &&& fatalMask s.params s.req.index = 0)
    (h : s.slaveSends (List.replicate k Config.idleByte ++ [m]) rest) :
    steps (k + 2) s = .next { s.traced (pulls (List.replicate k Config.idleByte ++ [m])) rest with
      resp := [m], phase := s.req.afterResponse } := by
  have hmarker := steps_scan_marker hr hp hk hm h
  rw [Request.afterMarker, if_pos hsel] at hmarker
  exact (steps_add (n := 1) hmarker).trans (steps_succ (n := 0) (step_status_execute hr rfl hop rfl hgood))

/-- The window of an answered command that expects a response holds the marker and the bytes after it (R169, R170). -/
theorem Descriptor.marker_of_answered {p : Params} (h : d.answered p win rsp) (hsel : d.sel ≠ .none) :
    ∃ k m ps, k < min 8 d.timeout ∧ m ≠ Config.idleByte ∧ ps.length + 1 = rspLen d.sel ∧
      win = List.replicate k Config.idleByte ++ m :: ps ∧ rsp = m :: ps ∧
      (d.sel = .r1 → m &&& fatalMask p d.index = 0) := by
  unfold Descriptor.answered at h
  split at h
  · exact absurd ‹_› hsel
  · exact h

theorem Descriptor.empty_of_answered {p : Params} (h : d.answered p win rsp) (hsel : d.sel = .none) :
    win = [] ∧ rsp = [] := by
  rwa [Descriptor.answered, hsel] at h

theorem Request.afterFrame_response {r : Request} (h : r.sel ≠ .none) : r.afterFrame = .rspScan 0 := by
  unfold Request.afterFrame
  split
  · exact absurd ‹_› h
  · rfl

theorem Request.afterFrame_none {r : Request} (h : r.sel = .none) : r.afterFrame = r.afterResponse := by
  rw [Request.afterFrame, h]

theorem Request.afterResponse_ofDescriptor (hdata : d.flags.data = true) :
    (Request.ofDescriptor d).afterResponse = if d.flags.write then .wReady d.timeout else .rPoll 0 d.timeout := by
  rw [Request.afterResponse_eq, if_pos ⟨rfl, hdata⟩]
  rfl

/-- From the end of the frame to the end of the response of an EXECUTE, whatever its selector (R169, R170). -/
theorem steps_answered (hr : s.env.resetLine = false) (hreq : s.req = Request.ofDescriptor d)
    (hp : s.phase = s.req.afterFrame) (hresp : s.resp = []) (ha : d.answered s.params win rsp)
    (h : s.slaveSends win rest) :
    steps (win.length + if d.sel = .r1 then 1 else 0) s =
      .next { s.traced (pulls win) rest with resp := rsp, phase := s.req.afterResponse } := by
  have hsel : s.req.sel = d.sel := by rw [hreq]; rfl
  have hop : s.req.op = .execute := by rw [hreq]; rfl
  by_cases hnone : d.sel = .none
  · obtain ⟨rfl, rfl⟩ := Descriptor.empty_of_answered ha hnone
    have hquiet : s.traced (pulls []) rest = s := State.traced_nil h
    rw [Request.afterFrame_none (hsel.trans hnone)] at hp
    have hself : s = { s with resp := [], phase := s.req.afterResponse } := by rw [← hresp, ← hp]
    rw [hquiet, hnone]
    exact congrArg Host.Outcome.next hself
  obtain ⟨k, m, ps, hk, hm, hlen, rfl, rfl, hgood⟩ := Descriptor.marker_of_answered ha hnone
  have hbound : k < s.req.scanBound := by rwa [Request.scanBound_of_op (.inr ⟨hop, rfl⟩), hreq]
  rw [Request.afterFrame_response (hsel.symm ▸ hnone)] at hp
  rw [List.length_append, List.length_replicate]
  by_cases hr1 : d.sel = .r1
  · obtain rfl : ps = [] := List.length_eq_zero_iff.1 (by rw [hr1] at hlen; exact Nat.succ.inj hlen)
    rw [if_pos hr1]
    exact steps_answered_r1 hr hp hop (hsel.trans hr1) hbound hm (by rw [hreq]; exact hgood hr1) h
  · have hsel' : s.req.sel = .r4 ∨ s.req.sel = .r5 := by rw [hsel]; cases hd : d.sel <;> simp_all
    rw [if_neg hr1]
    exact steps_response hr hp hbound hm hsel' (by rw [hsel, hlen]) h

end

end Sys2Proof.Machine

namespace Sys2Proof

open Machine

/-- Settles O33: the admission of the latched request, whose geometry is that of `n` blocks. -/
theorem xferAdmitted : Obligations.XferAdmitted :=
  fun _ _ _ _ _ _ _ hp h hc hcredit hneed => exec_xferInstr_admitted hp h hc hcredit hneed

/-- Settles O51: VALIDATE adds nothing to A1 for a consistent descriptor; an admitted EXECUTE sends its frame and takes
its response. -/
theorem executeReachesData : Obligations.ExecuteReachesData := by
  refine ⟨fun d s hp hd hdata => ?_, fun d s n a credits ignored win rsp rest hs hinv hcrc hd hdata hblocks hc hcredit
    hneed hlen ha h => ?_⟩
  · rw [exec_execute_idle hp]
    by_cases hbad : (Request.ofDescriptor d).invalidDescriptor = true
    · have hnull := (Descriptor.invalid_iff_of_consistent hd hdata).1 hbad
      rw [if_pos hbad, raise_latch hp]
      exact (if_pos hnull).mpr rfl
    · rw [if_neg hbad, if_pos hdata]
      exact xferAdmit_refusals (r := Request.ofDescriptor d) hp
  · obtain ⟨hp, hr⟩ := hs
    refine ⟨_, exec_execute_admitted hp hd hdata hblocks hc hcredit hneed, rfl, ?_⟩
    rw [Descriptor.responseSteps, Nat.add_assoc, Nat.add_comm 1]
    refine Eq.trans (steps_succ (step_frame hr rfl hcrc hlen (State.slaveSends_append.1 h))) ?_
    refine Eq.trans (steps_answered hr rfl rfl (hinv.resp_nil hp) ha rfl) ?_
    rw [← Request.afterResponse_ofDescriptor hdata]
    rfl

end Sys2Proof
end

section
/-! PROOFS. The wire part of a read: block after block from the first poll to the end of the operation. -/

namespace Sys2Proof.Machine

theorem memWriteBlock_append (m : Memory) (a : Nat) (bs cs : List Byte) :
    memWriteBlock m a (bs ++ cs) = memWriteBlock (memWriteBlock m a bs) (a + bs.length) cs := by
  induction bs generalizing m a with
  | nil => rfl
  | cons b bs ih =>
    rw [List.cons_append, memWriteBlock, ih, memWriteBlock, List.length_cons, Nat.add_assoc, Nat.add_comm 1]

/-- Where the next block starts (R51). -/
theorem Request.blockAddr_succ (r : Request) (j : Nat) : r.blockAddr (j + 1) = r.blockAddr j + r.blockLength := by
  simp only [Request.blockAddr, Request.bufAddr, Nat.succ_mul, Nat.add_assoc]

theorem sentBlock_length (p : Params) (q : List Byte × List Byte) :
    (sentBlock p q).length = q.1.length + 1 + (q.2.length + 2) := by
  simp only [sentBlock, crcBytes, List.length_append, List.length_cons, List.length_nil]
  omega

/-- What the slave may send for a block that is read: fewer other bytes before its start token than the poll has budget
for, and a payload of the block length (R134, R135). -/
def Request.readable (r : Request) (q : List Byte × List Byte) : Prop :=
  q.1.length < r.timeout ∧ (∀ b ∈ q.1, b ≠ Config.tokStartSingleByte) ∧ q.2.length = r.blockLength

/-- Where a read is before block `j`, and after its last block (R186). -/
def State.readFrom (j : Nat) (s : State) : Phase := if j < s.bx.nblocks then .rPoll j s.req.timeout else .done

/-- `s` after the bytes of a block were pulled and held. -/
def State.heldRead (q : List Byte × List Byte) (rest : List WireAnswer) (s : State) : State :=
  { s.traced (pulls (sentBlock s.params q)) rest with
    bx := { s.bx with held := q.2, crcHi := (crc16 s.params q.2).extractLsb' 8 8 } }

section

variable {s : State} {j : Nat} {rest : List WireAnswer}

/-- One block of a read: the poll, the payload, its CRC, the store and the commit (R134 to R136). -/
theorem steps_readBlock {q : List Byte × List Byte} (hr : s.env.resetLine = false) (hcrc : s.crcSound)
    (ha : s.admitted) (hp : s.phase = .rPoll j s.req.timeout) (hq : s.req.readable q)
    (hfits : s.fc.rxGotBytes + s.req.blockLength < 2 ^ s.params.cntW)
    (h : s.slaveSends (sentBlock s.params q) rest) :
    steps (sentBlock s.params q).length s = .next ((s.heldRead q rest).storeBlock j q.2) := by
  obtain ⟨-, -, hpos, hmax, -⟩ := ha
  obtain ⟨hlt, hskip, hlen⟩ := hq
  have hsent : sentBlock s.params q =
      (q.1 ++ [Config.tokStartSingleByte]) ++ (q.2 ++ crcBytes (crc16 s.params q.2)) := by simp [sentBlock]
  have hpoll := (waitsFor_startToken j).steps_found hr hp hlt hskip (State.slaveSends_append.1 (hsent ▸ h))
  have hblock := steps_block_matched (s := State.startPayload j (s.traced (pulls (q.1 ++ [Config.tokStartSingleByte]))
    ((q.2 ++ crcBytes (crc16 s.params q.2)).map WireAnswer.byte ++ rest))) hr rfl rfl hpos hmax hlen hcrc
    (crcBytes_append _) hfits rfl
  rw [sentBlock_length, hlen]
  refine (steps_add hpoll).trans (hblock.trans (congrArg _ ?_))
  have htrace : s.trace ++ pulls (sentBlock s.params q) = s.trace ++ pulls (q.1 ++ [Config.tokStartSingleByte]) ++
      pulls (q.2 ++ crcBytes (crc16 s.params q.2)) := by rw [hsent, pulls_append, List.append_assoc]
  simp only [State.heldRead, State.traced, htrace]
  rfl

/-- The blocks of a read from block `j` to the last, whose payloads lie one after the other in the buffer (R134 to
R136). -/
theorem steps_readBlocks (blocks : List (List Byte × List Byte)) (hr : s.env.resetLine = false) (hcrc : s.crcSound)
    (ha : s.admitted) (hp : s.phase = s.readFrom j) (hn : j + blocks.length = s.bx.nblocks)
    (hblocks : ∀ q ∈ blocks, s.req.readable q)
    (hfits : s.fc.rxGotBytes + blocks.length * s.req.blockLength < 2 ^ s.params.cntW)
    (h : s.slaveSends (blocks.flatMap (sentBlock s.params)) rest) :
    ∃ held crcHi, steps (blocks.flatMap (sentBlock s.params)).length s =
      .next { s.traced (pulls (blocks.flatMap (sentBlock s.params))) rest with
        mem := memWriteBlock s.mem (s.req.blockAddr j) (blocks.flatMap Prod.snd)
        fc := { s.fc with rxGotBytes := s.fc.rxGotBytes + blocks.length * s.req.blockLength }
        bx := { s.bx with
          held := held, crcHi := crcHi, doneBytes := s.bx.doneBytes + blocks.length * s.req.blockLength }
        phase := .done } := by
  induction blocks generalizing s j with
  | nil =>
    have hdone : s.phase = .done := hp.trans (if_neg (Nat.not_lt.2 hn.ge))
    have hnone : s.traced (pulls []) rest = s := State.traced_nil h
    refine ⟨s.bx.held, s.bx.crcHi, ?_⟩
    rw [List.flatMap_nil, hnone, ← hdone]
    simp [steps_zero, memWriteBlock]
  | cons q blocks ih =>
    obtain ⟨hq, hblocks⟩ := List.forall_mem_cons.1 hblocks
    rw [List.length_cons, Nat.succ_mul] at hfits
    rw [List.length_cons] at hn
    have hpoll : s.phase = .rPoll j s.req.timeout := hp.trans (if_pos (by omega))
    have hblock := steps_readBlock hr hcrc ha hpoll hq (by omega) (State.slaveSends_append.1 h)
    obtain ⟨held, crcHi, hrest⟩ := ih
      (s := (s.heldRead q ((blocks.flatMap (sentBlock s.params)).map WireAnswer.byte ++ rest)).storeBlock j q.2) (j := j + 1)
      hr hcrc ha rfl ((Nat.add_right_comm _ _ _).trans hn) hblocks
      (by simp only [State.storeBlock, State.heldRead, State.traced]; omega) rfl
    refine ⟨held, crcHi, ?_⟩
    rw [List.flatMap_cons, List.length_append]
    refine (steps_add hblock).trans (hrest.trans (congrArg _ ?_))
    obtain ⟨-, -, hlen⟩ := hq
    simp only [State.storeBlock, State.heldRead, State.traced, pulls_append, List.flatMap_cons, List.append_assoc,
      memWriteBlock_append, Request.blockAddr_succ, hlen, List.length_cons, Nat.succ_mul, Nat.add_assoc,
      Nat.add_comm s.req.blockLength]

/-- The step of phase DONE (R172, R187). -/
theorem step_done (hr : s.env.resetLine = false) (hp : s.phase = .done) : step s = .next s.finish :=
  (step_fetch hr).trans (fetch_done hp)

/-- The wire part of a read, to the end of the operation: the payloads lie one after the other in the buffer, `data_len`
bytes are committed, and they are the bytes transferred (R139, R172). -/
theorem steps_read {base : Nat} {blocks : List (List Byte × List Byte)} (hr : s.env.resetLine = false)
    (ha : s.admitted) (hfresh : s.bx.doneBytes = 0) (hcrc : s.crcSound) (hp : s.phase = .rPoll 0 s.req.timeout)
    (hbase : s.req.buf = some base) (hn : blocks.length = s.bx.nblocks) (hblocks : ∀ q ∈ blocks, s.req.readable q)
    (h : s.slaveSends (blocks.flatMap (sentBlock s.params)) rest)
    (hfits : s.fc.rxGotBytes + s.req.dataLen < 2 ^ s.params.cntW) :
    steps ((blocks.flatMap (sentBlock s.params)).length + 1) s =
      .next ({ s with
        env := { s.env with slave := rest }
        fc := { s.fc with rxGotBytes := s.fc.rxGotBytes + s.req.dataLen }
        mem := memWriteBlock s.mem base (blocks.flatMap Prod.snd)
        trace := s.trace ++ pulls (blocks.flatMap (sentBlock s.params)) }.endOperation
        { s with bx := { s.bx with doneBytes := s.req.dataLen } }.successResults) := by
  obtain ⟨-, -, -, -, hsome, hlen, -⟩ := id ha
  have haddr : s.req.blockAddr 0 = base := by simp [Request.blockAddr, Request.bufAddr, hbase]
  rw [← hn] at hlen
  obtain ⟨held, crcHi, hall⟩ := steps_readBlocks (j := 0) blocks hr hcrc ha (hp.trans (if_pos hsome).symm)
    ((Nat.zero_add _).trans hn) hblocks (hlen ▸ hfits) h
  rw [haddr, hfresh, Nat.zero_add, ← hlen] at hall
  exact (steps_add hall).trans (steps_succ (n := 0) (step_done hr rfl))

end

end Sys2Proof.Machine

namespace Sys2Proof

open Machine

/-- Settles O37: the invariant gives the admitted geometry, and nothing is moved before the first poll. -/
theorem readRun : Obligations.ReadRun := by
  intro s base blocks rest hr hinv hcrc hp hbase hn hblocks h hfits
  have hphase := hinv.phaseInv
  rw [State.phaseInv, hp] at hphase
  obtain ⟨⟨ha, -, -, hfresh⟩, -⟩ := hphase
  exact steps_read hr ha (hfresh.trans (Nat.zero_mul _)) hcrc hp hbase hn hblocks h hfits

end Sys2Proof
end

section
/-! PROOFS. The wire part of a write: the wait for ready, the start token, block after block, and the stop token of a
multi-block write. -/

namespace Sys2Proof.Machine

/-- The payload of block `j` in the lent buffer (R51, R64). -/
def State.block (j : Nat) (s : State) : List Byte := memReadBlock s.mem (s.req.blockAddr j) s.req.blockLength

/-- The bytes of a block on the wire: its payload, then its CRC, high byte first (R77). -/
def blockBytes (p : Params) (payload : List Byte) : List Byte := payload ++ crcBytes (crc16 p payload)

/-- Where a write is after its last block (R186). -/
def Request.afterBlocks (r : Request) : Phase := if r.flags.multi then .wStop else .done

/-- Where a write is before block `j`, and after its last block (R186). -/
def State.writeFrom (j : Nat) (s : State) : Phase := if j < s.bx.nblocks then .wData j 0 else s.req.afterBlocks

/-- An accepted block is committed (R136). -/
def State.commitBlock (j : Nat) (s : State) : State :=
  { s with
    fc := { s.fc with txSentBuffers := s.fc.txSentBuffers + s.fc.units s.req.blockLength }
    bx := { s.bx with doneBytes := s.bx.doneBytes + s.req.blockLength }
    phase := s.afterWrite j }

theorem writeTrace_cons (p : Params) (m : Memory) (base bl j : Nat) (q : List Byte × Byte)
    (blocks : List (List Byte × Byte)) :
    writeTrace p m base bl j (q :: blocks) =
      (blockBytes p (memReadBlock m (base + j * bl) bl)).zip q.1 ++ pulls [q.2] ++
        writeTrace p m base bl (j + 1) blocks := by
  simp [writeTrace, blockBytes, pulls]

/-- The address of a block in the lent buffer (R51). -/
theorem Request.blockAddr_of_buf {r : Request} {base : Nat} (h : r.buf = some base) (j : Nat) :
    r.blockAddr j = base + j * r.blockLength := by
  rw [Request.blockAddr, Request.bufAddr, h, Option.getD_some]

/-- The phase a block was in does not matter to its commit. -/
theorem State.commitBlock_goto (s : State) (p : Phase) (w : List (Byte × Byte)) (rest : List WireAnswer) (j : Nat) :
    ((s.goto p).traced w rest).commitBlock j = (s.traced w rest).commitBlock j := rfl

section

variable {s : State} {j i : Nat} {b : Byte} {bs ignored : List Byte} {rest : List WireAnswer}

/-! ### One block -/

theorem State.loadBlock_of_holds (h : s.holds j) : s.loadBlock j = s := by
  rw [State.loadBlock, ← h]

/-- Byte `i` of a payload is sent, the block being read from the buffer with its first byte (R64, R132). -/
theorem step_data (hr : s.env.resetLine = false) (hp : s.phase = .wData j i) (hheld : 0 < i → s.holds j)
    (h : s.slaveSends (b :: bs) rest) :
    step s = .next (((s.loadBlock j).traced [((s.block j).getD i 0, b)] (bs.map .byte ++ rest)).goto
      (if i + 1 < s.req.blockLength then .wData j (i + 1) else .wCrc j false)) := by
  rw [step_fetch hr]
  cases i with
  | zero =>
    rw [fetch_data_first hp]
    exact (execDataBlock_data (s := s.loadBlock j) hp).trans (push_byte h)
  | succ i =>
    have hholds := hheld i.succ_pos
    rw [fetch_data_next hp, State.loadBlock_of_holds hholds, State.block, ← hholds]
    exact (execDataBlock_data hp).trans (push_byte h)

/-- The payload of a block from byte `i` to the last is sent, and the bytes received are discarded (R132). -/
theorem steps_data (hr : s.env.resetLine = false) (hp : s.phase = .wData j i) (hheld : 0 < i → s.holds j)
    (hne : ignored ≠ []) (hlen : i + ignored.length = s.req.blockLength) (h : s.slaveSends (ignored ++ bs) rest) :
    steps ignored.length s = .next (((s.loadBlock j).traced (((s.block j).drop i).zip ignored)
      (bs.map .byte ++ rest)).goto (.wCrc j false)) := by
  induction ignored generalizing s i with
  | nil => exact absurd rfl hne
  | cons b ignored ih =>
    rw [List.length_cons] at hlen
    have hi : i < (s.block j).length := by rw [State.block, memReadBlock_length]; omega
    have hbyte : (s.block j).drop i = (s.block j).getD i 0 :: (s.block j).drop (i + 1) := by
      rw [List.drop_eq_getElem_cons hi, List.getD_eq_getElem _ _ hi]
    refine (steps_succ (step_data hr hp hheld h)).trans ?_
    rw [hbyte]
    rcases eq_or_ne ignored [] with rfl | hne
    · rw [if_neg (by rw [← hlen]; simp)]
      simp [steps_zero]
    · have hmore : i + 1 < s.req.blockLength := by have := List.length_pos_iff.2 hne; omega
      rw [if_pos hmore]
      refine Eq.trans (ih hr rfl (fun _ => rfl) hne ((Nat.add_right_comm _ _ _).trans hlen) rfl) ?_
      simp [State.traced, State.goto, State.loadBlock, State.block]

theorem step_crcHigh {payload : List Byte} (hr : s.env.resetLine = false) (hp : s.phase = .wCrc j false)
    (hcrc : s.crcSound) (hheld : s.bx.held = payload) (h : s.slaveSends (b :: bs) rest) :
    step s = .next ((s.traced [((crc16 s.params payload).extractLsb' 8 8, b)] (bs.map .byte ++ rest)).goto
      (.wCrc j true)) := by
  subst hheld
  rw [step_fetch hr, fetch_crcHigh hp, crcCall_sound hcrc]
  exact (execDataBlock_crcHigh hp).trans (push_byte h)

theorem step_crcLow {payload : List Byte} (hr : s.env.resetLine = false) (hp : s.phase = .wCrc j true)
    (hheld : s.bx.held = payload) (h : s.slaveSends (b :: bs) rest) :
    step s = .next ((s.traced [((crc16 s.params payload).extractLsb' 0 8, b)] (bs.map .byte ++ rest)).goto
      (.wDresp j)) := by
  subst hheld
  rw [step_fetch hr, fetch_crcLow hp]
  exact (execDataBlock_crcLow hp).trans (push_byte h)

/-- The two CRC bytes of the held payload, high byte first (R132). -/
theorem steps_crc {payload : List Byte} {x y : Byte} (hr : s.env.resetLine = false) (hp : s.phase = .wCrc j false)
    (hcrc : s.crcSound) (hheld : s.bx.held = payload) (h : s.slaveSends (x :: y :: bs) rest) :
    steps 2 s = .next ((s.traced ((crcBytes (crc16 s.params payload)).zip [x, y]) (bs.map .byte ++ rest)).goto
      (.wDresp j)) := by
  refine (steps_succ (step_crcHigh hr hp hcrc hheld h)).trans
    (Eq.trans (steps_succ (n := 0) (step_crcLow hr rfl hheld rfl)) ?_)
  simp [steps_zero, State.traced, State.goto, crcBytes]

/-- The data response of an accepted block (R78, R132). -/
theorem step_dresp (hr : s.env.resetLine = false) (hp : s.phase = .wDresp j) (hb : drespAccepted s.params b = true)
    (hfits : s.fc.txSentBuffers + s.fc.units s.req.blockLength < 2 ^ s.params.cntW)
    (h : s.slaveSends (b :: bs) rest) :
    step s = .next ((s.traced (pulls [b]) (bs.map .byte ++ rest)).commitBlock j) := by
  rw [step_fetch hr, fetch_dresp hp, pull_sends h]
  refine (execDataResp_dresp (s := s.traced _ _) hp).trans ?_
  rw [if_pos (show drespAccepted (s.traced _ _).params b = true from hb)]
  exact commitSendUnits_fits (s := s.traced _ _) hfits

/-- The last two of the bytes against which a block is sent are those of its CRC. -/
theorem exists_append_pair {l : List Byte} {n : Nat} (h : l.length = n + 2) :
    ∃ l' x y, l'.length = n ∧ l = l' ++ [x, y] := by
  obtain ⟨x, y, hxy⟩ := List.length_eq_two.1 (show (l.drop n).length = 2 by simp [h])
  exact ⟨l.take n, x, y, by simp [h], by rw [← hxy, List.take_append_drop]⟩

/-- A block is sent: its payload, then its CRC, against bytes that CORE discards (R132). -/
theorem steps_sendBlock (hr : s.env.resetLine = false) (hcrc : s.crcSound) (hpos : 1 ≤ s.req.blockLength)
    (hp : s.phase = .wData j 0) (hlen : ignored.length = s.req.blockLength + 2)
    (h : s.slaveSends (ignored ++ bs) rest) :
    steps (s.req.blockLength + 2) s = .next (((s.loadBlock j).traced
      ((blockBytes s.params (s.block j)).zip ignored) (bs.map .byte ++ rest)).goto (.wDresp j)) := by
  obtain ⟨first, x, y, hfirst, rfl⟩ := exists_append_pair hlen
  rw [List.append_assoc] at h
  have hdata := steps_data hr hp (fun h => absurd h (Nat.lt_irrefl 0)) (List.ne_nil_of_length_pos (hfirst ▸ hpos))
    ((Nat.zero_add _).trans hfirst) h
  have hzip : (blockBytes s.params (s.block j)).zip (first ++ [x, y]) =
      (s.block j).zip first ++ (crcBytes (crc16 s.params (s.block j))).zip [x, y] :=
    List.zip_append (by rw [hfirst, State.block, memReadBlock_length])
  rw [← hfirst]
  refine (steps_add hdata).trans (Eq.trans (steps_crc (payload := s.block j) hr rfl hcrc rfl rfl) ?_)
  simp [hzip, State.traced, State.goto]

/-- One block of a write: the block, the data response and the commit (R132, R136). -/
theorem steps_writeBlock {d : Byte} (hr : s.env.resetLine = false) (hcrc : s.crcSound)
    (hpos : 1 ≤ s.req.blockLength) (hp : s.phase = .wData j 0) (hlen : ignored.length = s.req.blockLength + 2)
    (hd : drespAccepted s.params d = true)
    (hfits : s.fc.txSentBuffers + s.fc.units s.req.blockLength < 2 ^ s.params.cntW)
    (h : s.slaveSends (ignored ++ [d]) rest) :
    steps (s.req.blockLength + 3) s = .next (((s.loadBlock j).traced
      ((blockBytes s.params (s.block j)).zip ignored ++ pulls [d]) rest).commitBlock j) := by
  have hsent := steps_sendBlock hr hcrc hpos hp hlen h
  refine (steps_add (n := 1) hsent).trans (Eq.trans (steps_succ (n := 0) (step_dresp hr rfl hd hfits rfl)) ?_)
  rw [steps_zero, State.commitBlock_goto, State.traced_traced]
  rfl

/-- The blocks of a write from block `j` to the last (R132, R136, R139). -/
theorem steps_writeBlocks {base : Nat} (blocks : List (List Byte × Byte)) (hr : s.env.resetLine = false)
    (hcrc : s.crcSound) (hpos : 1 ≤ s.req.blockLength) (hbase : s.req.buf = some base) (hp : s.phase = s.writeFrom j)
    (hn : j + blocks.length = s.bx.nblocks)
    (hblocks : ∀ q ∈ blocks, q.1.length = s.req.blockLength + 2 ∧ drespAccepted s.params q.2 = true)
    (hfits : s.fc.txSentBuffers + blocks.length * s.fc.units s.req.blockLength < 2 ^ s.params.cntW)
    (h : s.slaveSends (blocks.flatMap fun q => q.1 ++ [q.2]) rest) :
    ∃ held, steps (blocks.length * (s.req.blockLength + 3)) s =
      .next { s.traced (writeTrace s.params s.mem base s.req.blockLength j blocks) rest with
        fc := { s.fc with
          txSentBuffers := s.fc.txSentBuffers + blocks.length * s.fc.units s.req.blockLength }
        bx := { s.bx with held := held, doneBytes := s.bx.doneBytes + blocks.length * s.req.blockLength }
        phase := s.req.afterBlocks } := by
  induction blocks generalizing s j with
  | nil =>
    have hlast : s.phase = s.req.afterBlocks := hp.trans (if_neg (Nat.not_lt.2 hn.ge))
    have hnone : s.traced (writeTrace s.params s.mem base s.req.blockLength j []) rest = s := State.traced_nil h
    refine ⟨s.bx.held, ?_⟩
    rw [hnone, ← hlast]
    simp [steps_zero]
  | cons q blocks ih =>
    obtain ⟨⟨hlen, hd⟩, hblocks⟩ := List.forall_mem_cons.1 hblocks
    rw [List.length_cons, Nat.succ_mul] at hfits
    rw [List.length_cons] at hn
    have hdata : s.phase = .wData j 0 := hp.trans (if_pos (by omega))
    have hblock := steps_writeBlock hr hcrc hpos hdata hlen hd (by omega) (State.slaveSends_append.1 h)
    obtain ⟨held, hrest⟩ := ih (s := ((s.loadBlock j).traced
      ((blockBytes s.params (s.block j)).zip q.1 ++ pulls [q.2])
      ((blocks.flatMap fun q => q.1 ++ [q.2]).map WireAnswer.byte ++ rest)).commitBlock j) (j := j + 1) hr hcrc hpos
      hbase rfl ((Nat.add_right_comm _ _ _).trans hn) hblocks
      (by simp only [State.commitBlock, State.traced, State.loadBlock, FlowControl.units] at hfits ⊢; omega) rfl
    refine ⟨held, ?_⟩
    rw [List.length_cons, Nat.succ_mul, Nat.add_comm]
    refine (steps_add hblock).trans (hrest.trans (congrArg _ ?_))
    simp only [State.commitBlock, State.traced, State.loadBlock, FlowControl.units, writeTrace_cons, State.block,
      Request.blockAddr_of_buf hbase, List.append_assoc, Nat.add_comm blocks.length 1, Nat.add_mul,
      Nat.one_mul, Nat.add_assoc]

/-! ### The whole write -/

/-- What the slave sends from the stop token on, where there is one: a byte that CORE discards, and the wait for
not-busy (R133). -/
def Request.stopsWith (r : Request) (stop : List Byte) : Prop :=
  if r.flags.multi = true then
    ∃ ignored busy, stop = ignored :: busy ++ [Config.idleByte] ∧ busy.length < r.timeout ∧
      ∀ b ∈ busy, b ≠ Config.idleByte
  else stop = []

/-- The exchanges from the stop token on. -/
def Request.stopTrace (r : Request) (stop : List Byte) : List (Byte × Byte) :=
  if r.flags.multi = true then (Config.tokStopByte, stop.headD 0) :: pulls (stop.drop 1) else []

/-- The start token of a write, by its `multi` flag (R76, R139). -/
def Request.startToken (r : Request) : Byte := if r.flags.multi = true then 0xFC else 0xFE

/-- One start token before the first block (R139). -/
theorem step_token (hr : s.env.resetLine = false) (hp : s.phase = .wToken) (h : s.slaveSends [b] rest) :
    step s = .next ((s.traced [(s.req.startToken, b)] rest).goto (.wData 0 0)) := by
  rw [step_fetch hr, fetch_token hp, Request.startToken]
  split_ifs
  · exact (execTokStartMultiWr_token hp).trans (push_byte h)
  · exact (execTokStartSingle_token hp).trans (push_byte h)

/-- From the wait for ready to the first block: the wait and the start token (R131, R139). -/
theorem steps_start {busy : List Byte} {tok : Byte} {p : Nat} (hr : s.env.resetLine = false) (hp : s.phase = .wReady p)
    (hlt : busy.length < p) (hbusy : ∀ b ∈ busy, b ≠ Config.idleByte)
    (h : s.slaveSends (busy ++ [Config.idleByte] ++ [tok]) rest) :
    steps (busy.length + 2) s = .next ((s.traced (pulls (busy ++ [Config.idleByte]) ++ [(s.req.startToken, tok)])
      rest).goto (.wData 0 0)) := by
  have hready := waitsFor_ready.steps_found hr hp hlt hbusy (State.slaveSends_append.1 h)
  refine (steps_add (n := 1) hready).trans (Eq.trans (steps_succ (n := 0) (step_token hr rfl rfl)) ?_)
  simp [steps_zero, State.traced, State.goto]

/-- One stop token after the last block of a multi-block write, and then the wait for not-busy (R133). -/
theorem step_stop (hr : s.env.resetLine = false) (hp : s.phase = .wStop) (h : s.slaveSends (b :: bs) rest) :
    step s = .next ((s.traced [(Config.tokStopByte, b)] (bs.map .byte ++ rest)).goto (.wBusy s.req.timeout)) := by
  rw [step_fetch hr, fetch_stop hp]
  exact (execTokStop_stop hp).trans (push_byte h)

/-- From the last block to phase DONE: one stop token and the wait for not-busy of a multi-block write, nothing of a
single-block one (R133, R139). -/
theorem steps_stop {stop : List Byte} (hr : s.env.resetLine = false) (hp : s.phase = s.req.afterBlocks)
    (hstop : s.req.stopsWith stop) (h : s.slaveSends stop rest) :
    steps stop.length s = .next ((s.traced (s.req.stopTrace stop) rest).goto .done) := by
  unfold Request.stopsWith at hstop
  unfold Request.afterBlocks at hp
  unfold Request.stopTrace
  split_ifs at hstop hp ⊢ with hmulti
  · obtain ⟨first, busy, rfl, hlt, hbusy⟩ := hstop
    refine (steps_succ (step_stop hr hp h)).trans ?_
    rw [List.append_eq, List.length_append]
    refine Eq.trans (waitsFor_notBusy.steps_found hr rfl hlt hbusy rfl) ?_
    simp [State.traced, State.goto]
  · subst hstop
    have hnone : s.traced [] rest = s := State.traced_nil h
    rw [List.length_nil, steps_zero, hnone, State.goto_self hp]

/-- The wire part of a write, to the end of the operation (R139, R172). -/
theorem steps_write {base : Nat} {busy stop : List Byte} {tok : Byte} {blocks : List (List Byte × Byte)}
    (hr : s.env.resetLine = false) (ha : s.admitted) (hfresh : s.bx.doneBytes = 0) (hcrc : s.crcSound)
    (hp : s.phase = .wReady s.req.timeout) (hbase : s.req.buf = some base) (hlt : busy.length < s.req.timeout)
    (hbusy : ∀ b ∈ busy, b ≠ Config.idleByte) (hn : blocks.length = s.bx.nblocks)
    (hblocks : ∀ q ∈ blocks, q.1.length = s.req.blockLength + 2 ∧ drespAccepted s.params q.2 = true)
    (hstop : s.req.stopsWith stop)
    (h : s.slaveSends (busy ++ [Config.idleByte] ++ [tok] ++ blocks.flatMap (fun q => q.1 ++ [q.2]) ++ stop) rest)
    (hfits : s.fc.txSentBuffers + s.bx.nblocks * s.fc.units s.req.blockLength < 2 ^ s.params.cntW) :
    steps (busy.length + 2 + s.bx.nblocks * (s.req.blockLength + 3) + stop.length + 1) s =
      .next ({ s with
        env := { s.env with slave := rest }
        fc := { s.fc with
          txSentBuffers := s.fc.txSentBuffers + s.bx.nblocks * s.fc.units s.req.blockLength }
        trace := s.trace ++ pulls (busy ++ [Config.idleByte]) ++
          [(if s.req.flags.multi = true then 0xFC else 0xFE, tok)] ++
          writeTrace s.params s.mem base s.req.blockLength 0 blocks ++ s.req.stopTrace stop }.endOperation
        { s with bx := { s.bx with doneBytes := s.req.dataLen } }.successResults) := by
  obtain ⟨-, -, hpos, -, hsome, hlen, -⟩ := ha
  rw [← hn] at hfits hlen ⊢
  rw [State.slaveSends_append, State.slaveSends_append] at h
  have hstart := steps_start hr hp hlt hbusy h
  obtain ⟨held, hmoved⟩ := steps_writeBlocks (j := 0) (rest := stop.map WireAnswer.byte ++ rest) blocks
    (s := (s.traced (pulls (busy ++ [Config.idleByte]) ++ [(s.req.startToken, tok)])
      ((blocks.flatMap fun q => q.1 ++ [q.2]).map WireAnswer.byte ++ (stop.map WireAnswer.byte ++ rest))).goto
      (.wData 0 0))
    hr hcrc hpos hbase (if_pos hsome).symm ((Nat.zero_add _).trans hn) hblocks hfits rfl
  rw [Nat.add_assoc, Nat.add_assoc]
  refine (steps_add hstart).trans (Eq.trans (steps_add hmoved) ?_)
  refine Eq.trans (steps_add (n := 1) (steps_stop hr rfl hstop rfl)) ?_
  refine Eq.trans (steps_succ (n := 0) (step_done hr rfl)) ?_
  have hdone : s.bx.doneBytes + blocks.length * s.req.blockLength = s.req.dataLen := by
    rw [hfresh, Nat.zero_add, hlen]
  simp only [steps_zero, State.finish, State.goto, State.traced, Request.startToken, hdone, List.append_assoc]
  rfl

end

end Sys2Proof.Machine

namespace Sys2Proof

open Machine

/-- Settles O36: the invariant gives the admitted geometry, and nothing is moved before the wait for ready. -/
theorem writeRun : Obligations.WriteRun := by
  intro s base busy tok blocks stop rest hr hinv hcrc hp hbase hlt hbusy hn hblocks hstop h hfits
  have hphase := hinv.phaseInv
  rw [State.phaseInv, hp] at hphase
  obtain ⟨⟨ha, -, -, hfresh⟩, -⟩ := hphase
  exact steps_write hr ha hfresh hcrc hp hbase hlt hbusy hn hblocks hstop h hfits

end Sys2Proof
end

section
/-! PROOFS. The loopback property: what a single-block write sends, a single-block read takes back. -/

namespace Sys2Proof.Machine

section

variable {s : State} {x : XferArgs} {base : Nat} {credits : List CreditAnswer} {rest : List WireAnswer}

theorem State.startedXfer_admitted {write multi : Bool} {n : Nat} (h : x.blocks multi n) (hc : s.fc.configured = true) :
    (s.startedXfer write multi x n credits).admitted := by
  obtain ⟨hbuf, hpos, hmax, hn, hlen, hsingle⟩ := h
  exact ⟨hc, hbuf, hpos, hmax, hn, hlen, hsingle, .inl rfl⟩

/-- A buffer of one block is legal geometry (R55, R126). -/
theorem blocks_single (hbuf : x.buf = some base) (hlen : x.dataLen = x.blockLength) (hpos : 1 ≤ x.blockLength)
    (hmax : x.blockLength ≤ Config.maxBlock) : x.blocks false 1 :=
  ⟨by simp [hbuf], hpos, hmax, le_rfl, by rw [hlen, Nat.one_mul], fun _ => rfl⟩

/-- What a single-block write adds to the trace between its wait for ready and its last pull: the start token, the
payload and its CRC (R139). -/
def singleTrace (p : Params) (tok : Byte) (payload ignored : List Byte) : List (Byte × Byte) :=
  (Config.tokStartSingleByte, tok) :: (blockBytes p payload).zip ignored

/-- The bytes a single-block write sends, after any bytes to skip, are what a read takes as one block (R140). -/
theorem singleTrace_sent {p : Params} {tok : Byte} {payload ignored : List Byte}
    (h : ignored.length = payload.length + 2) (skips : List Byte) :
    skips ++ (singleTrace p tok payload ignored).map Prod.fst = sentBlock p (skips, payload) := by
  have hlen : (blockBytes p payload).length ≤ ignored.length := by simp [blockBytes, crcBytes, h]
  rw [singleTrace, List.map_cons, List.map_fst_zip hlen]
  rfl

/-- A single-block write whose block is accepted (R139). -/
theorem steps_write_single {busy ignored : List Byte} {tok d : Byte} (hr : s.env.resetLine = false)
    (hx : x.blocks false 1) (hc : s.fc.configured = true) (hcrc : s.crcSound) (hbuf : x.buf = some base)
    (hlt : busy.length < x.timeout) (hbusy : ∀ b ∈ busy, b ≠ Config.idleByte)
    (hlen : ignored.length = x.blockLength + 2) (hd : drespAccepted s.params d = true)
    (h : s.slaveSends (busy ++ [Config.idleByte, tok] ++ ignored ++ [d]) rest)
    (hfits : s.fc.txSentBuffers + s.fc.units x.blockLength < 2 ^ s.params.cntW) :
    ∃ u, steps (busy.length + 2 + (x.blockLength + 3) + 1) (s.startedXfer true false x 1 credits) = .next u ∧
      u.results.outcome = some .success ∧
      u.trace = s.trace ++ pulls (busy ++ [Config.idleByte]) ++
        singleTrace s.params tok (memReadBlock s.mem base x.blockLength) ignored ++ [(Config.idleByte, d)] := by
  have hsent : s.slaveSends
      (busy ++ [Config.idleByte] ++ [tok] ++ [(ignored, d)].flatMap (fun q => q.1 ++ [q.2]) ++ []) rest := by
    simpa using h
  have hend := steps_write (s := s.startedXfer true false x 1 credits) (blocks := [(ignored, d)]) (stop := []) hr
    (State.startedXfer_admitted hx hc) rfl hcrc rfl hbuf hlt hbusy rfl (List.forall_mem_singleton.2 ⟨hlen, hd⟩) rfl
    hsent ((Nat.one_mul (s.fc.units x.blockLength)).symm ▸ hfits)
  have hcount : busy.length + 2 + (x.blockLength + 3) + 1 =
      busy.length + 2 + 1 * (x.blockLength + 3) + ([] : List Byte).length + 1 := by rw [Nat.one_mul]; rfl
  refine ⟨_, (congrArg (steps · _) hcount).trans hend, rfl, ?_⟩
  show s.trace ++ pulls (busy ++ [Config.idleByte]) ++ [(Config.tokStartSingleByte, tok)] ++
    writeTrace s.params s.mem base x.blockLength 0 [(ignored, d)] ++ [] = _
  simp [writeTrace, singleTrace, blockBytes, pulls]

/-- A single-block read whose CRC matches (R139). -/
theorem steps_read_single {skips payload : List Byte} (hr : s.env.resetLine = false) (hx : x.blocks false 1)
    (hc : s.fc.configured = true) (hcrc : s.crcSound) (hbuf : x.buf = some base) (hlt : skips.length < x.timeout)
    (hskips : ∀ b ∈ skips, b ≠ Config.tokStartSingleByte) (hlen : payload.length = x.blockLength)
    (h : s.slaveSends (sentBlock s.params (skips, payload)) rest)
    (hfits : s.fc.rxGotBytes + x.dataLen < 2 ^ s.params.cntW) :
    ∃ u, steps (skips.length + (x.blockLength + 4)) (s.startedXfer false false x 1 credits) = .next u ∧
      u.results.outcome = some .success ∧ u.results.bytesTransferred = some x.dataLen ∧
      u.mem = memWriteBlock s.mem base payload := by
  have hend := steps_read (s := s.startedXfer false false x 1 credits) (blocks := [(skips, payload)]) hr
    (State.startedXfer_admitted hx hc) rfl hcrc rfl hbuf rfl (List.forall_mem_singleton.2 ⟨hlt, hskips, hlen⟩)
    (by rwa [List.flatMap_singleton]) hfits
  rw [List.flatMap_singleton, sentBlock_length, hlen] at hend
  have hcount : skips.length + (x.blockLength + 4) = skips.length + 1 + (x.blockLength + 2) + 1 := by omega
  exact ⟨_, (congrArg (steps · _) hcount).trans hend, rfl, rfl,
    congrArg (memWriteBlock s.mem base) (List.flatMap_singleton _ _)⟩

end

end Sys2Proof.Machine

namespace Sys2Proof

open Machine

/-- Settles O38: the bytes that the write sends from its start token on are those of one block that the read expects. -/
theorem loopback : Obligations.Loopback := by
  intro s x base a busy ignored tok d credits rest ⟨hp, hr⟩ hcrc hbuf hlen hbl hc _ hcredit hneed hfits hlt hbusy hign
    hd h
  have hx := blocks_single hbuf (hlen.trans hbl.symm) (by omega) (hbl.trans_le le_rfl)
  rw [← hbl] at hneed hfits
  obtain ⟨u, hu, hsuccess, htrace⟩ := steps_write_single (credits := credits) hr hx hc hcrc hbuf hlt hbusy
    (hign.trans (by rw [hbl])) hd h hfits
  rw [hbl] at hu htrace
  have hstart := exec_xferInstr_admitted (write := true) hp hx hc hcredit (by simpa [FlowControl.need] using hneed)
  refine ⟨_, u, singleTrace s.params tok (memReadBlock s.mem base 512) ignored, hstart, hu, hsuccess, htrace, ?_⟩
  intro s' x' base' a' skips credits' rest' hparams hwf ⟨hp', hr'⟩ hcrc' hbuf' hlen' hbl' hc' hcredit' hneed' hfits'
    hlt' hskips h'
  have hx' := blocks_single hbuf' (hlen'.trans hbl'.symm) (by omega) (hbl'.trans_le le_rfl)
  rw [singleTrace_sent (by rw [hign, memReadBlock_length]), ← hparams] at h'
  obtain ⟨u', hu', hsuccess', hbytes, hmem⟩ := steps_read_single (credits := credits') hr' hx' hc' hcrc' hbuf' hlt'
    hskips (by rw [memReadBlock_length, hbl']) h' (by rw [hlen']; exact hfits')
  rw [hbl'] at hu'
  have hstart' := exec_xferInstr_admitted (write := false) hp' hx' hc' hcredit'
    (by simpa [FlowControl.need, hbl'] using hneed')
  refine ⟨_, u', hstart', hu', hsuccess', hbytes.trans (by rw [hlen']), ?_⟩
  have hback := memReadBlock_memWriteBlock hwf base' (memReadBlock s.mem base 512)
  rwa [memReadBlock_length, ← hmem] at hback

end Sys2Proof
end

section
/-! PROOFS. The commits and FC_RESET (spec 43), each finished by the step of phase DONE, and what any sequence of commits
adds up to. -/

namespace Sys2Proof.Machine

/-! ### Rounding up (R11, R157) -/

section

variable {a b : Nat}

/-- Rounding up is Mathlib's `⌈/⌉`. -/
theorem ceilDiv_eq (a b : Nat) : ceilDiv a b = a ⌈/⌉ b := rfl

/-- The law of R11: `ceilDiv a b` is the least `q` with `a ≤ q * b`. -/
theorem ceilDiv_le_iff (hb : 1 ≤ b) {q : Nat} : ceilDiv a b ≤ q ↔ a ≤ q * b := by
  rw [ceilDiv_eq, ceilDiv_le_iff_le_mul hb, Nat.mul_comm]

theorem le_ceilDiv_mul (hb : 1 ≤ b) : a ≤ ceilDiv a b * b := (ceilDiv_le_iff hb).1 le_rfl

theorem ceilDiv_mul (hb : 1 ≤ b) (k : Nat) : ceilDiv (k * b) b = k :=
  eq_of_forall_ge_iff fun _ => (ceilDiv_le_iff hb).trans (Nat.mul_le_mul_right_iff hb)

/-- One byte more than `k` full buffers takes one buffer more. -/
theorem ceilDiv_mul_add_one (hb : 1 ≤ b) (k : Nat) : ceilDiv (k * b + 1) b = k + 1 :=
  eq_of_forall_ge_iff fun _ => (ceilDiv_le_iff hb).trans (Nat.mul_lt_mul_right hb)

theorem ceilDiv_eq_one (ha : 1 ≤ a) (hab : a ≤ b) : ceilDiv a b = 1 := by
  have hb : 1 ≤ b := ha.trans hab
  have hpos : ceilDiv a b ≠ 0 := fun h => by
    have hzero : a ≤ 0 * b := (ceilDiv_le_iff hb).1 h.le
    omega
  have hle : ceilDiv a b ≤ 1 := (ceilDiv_le_iff hb).2 (by omega)
  omega

end

/-! ### A request that is accepted and ends with Ok -/

/-- The request `i` is accepted, and the step of phase DONE ends it with Ok and the flow-control state `fc`; nothing else
is written. -/
def EndsOk (i : Instr) (fc : FlowControl) (s : State) : Prop :=
  ∃ t, exec i s = .next t ∧ step t = .next ({ s with fc := fc }.endOperation (Results.only .ok))

section

variable {s : State} {i : Instr} {r : Request} {fc : FlowControl} {sum n : Nat}

theorem endsOk_of_accepted (hr : s.env.resetLine = false)
    (hi : exec i s = .next ({ s with req := r, fc := fc }.goto .done))
    (hok : ({ s with req := r, fc := fc } : State).successResults = Results.only .ok) : EndsOk i fc s := by
  refine ⟨_, hi, ?_⟩
  rw [step_goto_done (s := { s with req := r, fc := fc }) hr, State.finish, hok]
  rfl

/-- FC_RESET in IDLE has no check (R155). -/
theorem exec_fcReset_idle (hp : s.phase = .idle) :
    exec .fcReset s =
      .next ({ s with
        req := Request.ofFcReset, fc := { s.fc with txSentBuffers := 0, rxGotBytes := 0 } }.goto .done) := by
  simp only [exec, execFcReset, atIdle_idle hp]

theorem fcReset_endsOk (hs : s.ready) : EndsOk .fcReset { s.fc with txSentBuffers := 0, rxGotBytes := 0 } s := by
  obtain ⟨hp, hr⟩ := hs
  exact endsOk_of_accepted hr (exec_fcReset_idle hp) rfl

/-! ### The commits (R153, R154) -/

/-- What R153 and R154 say of the outcome of the commit `i`, whose counter would become `sum` and whose flow-control state
`fc`. -/
def CommitOutcomes (i : Instr) (sum : Nat) (fc : FlowControl) (s : State) : Prop :=
  (s.fc.configured = false → exec i s = .next (s.endOperation (Results.only .invalidCommand))) ∧
  (s.fc.configured = true →
    (sum < 2 ^ s.params.cntW → EndsOk i fc s) ∧ (2 ^ s.params.cntW ≤ sum → exec i s = .fault .counterOverflow))

/-- A request that checks `configured`, then the sum, then writes `fc`, has the outcomes of a commit. -/
theorem commit_outcomes (hs : s.ready)
    (hi : exec i s =
      if s.fc.configured = false then raise .invalidCommand (s.latch r)
      else if sum < 2 ^ s.params.cntW then .next ({ s with req := r, fc := fc }.goto .done)
      else .fault .counterOverflow)
    (hok : ({ s with req := r, fc := fc } : State).successResults = Results.only .ok) :
    CommitOutcomes i sum fc s := by
  obtain ⟨hp, hr⟩ := hs
  refine ⟨fun hc => ?_, fun hc => ?_⟩
  · rw [hi, if_pos hc, raise_latch hp]
  · rw [if_neg (by simp [hc])] at hi
    exact ⟨fun hfits => endsOk_of_accepted hr (hi.trans (if_pos hfits)) hok,
      fun hover => hi.trans (if_neg (Nat.not_lt.2 hover))⟩

theorem exec_commitSend_idle (hp : s.phase = .idle) :
    exec (.commitSend n) s =
      if s.fc.configured = false then raise .invalidCommand (s.latch (Request.ofBytes .commitSend n))
      else commitSendUnits n (s.latch (Request.ofBytes .commitSend n)) fun s => .next (s.goto .done) := by
  simp only [exec, execCommitSend, atIdle_idle hp]

theorem exec_commitRecv_idle (hp : s.phase = .idle) :
    exec (.commitRecv n) s =
      if s.fc.configured = false then raise .invalidCommand (s.latch (Request.ofBytes .commitRecv n))
      else commitRecvBytes n (s.latch (Request.ofBytes .commitRecv n)) fun s => .next (s.goto .done) := by
  simp only [exec, execCommitRecv, atIdle_idle hp]

theorem commitSend_outcomes (hs : s.ready) :
    CommitOutcomes (.commitSend n) (s.fc.txSentBuffers + s.fc.units n)
      { s.fc with txSentBuffers := s.fc.txSentBuffers + s.fc.units n } s :=
  commit_outcomes (r := Request.ofBytes .commitSend n) hs (exec_commitSend_idle hs.1) rfl

theorem commitRecv_outcomes (hs : s.ready) :
    CommitOutcomes (.commitRecv n) (s.fc.rxGotBytes + n) { s.fc with rxGotBytes := s.fc.rxGotBytes + n } s :=
  commit_outcomes (r := Request.ofBytes .commitRecv n) hs (exec_commitRecv_idle hs.1) rfl

/-! ### A sequence of commits (R158) -/

/-- The flow-control state after the commit `i`: each counter grows by what `i` adds to it. -/
def FlowControl.commit (fc : FlowControl) (i : Instr) : FlowControl :=
  { fc with txSentBuffers := fc.txSentBuffers + fc.unitsOf i, rxGotBytes := fc.rxGotBytes + bytesOf i }

/-- A commit leaves the buffer size, so later commits are rounded up as before. -/
@[simp] theorem FlowControl.commit_unitsOf (fc : FlowControl) (i : Instr) : (fc.commit i).unitsOf = fc.unitsOf := rfl

theorem commit_endsOk (hs : s.ready) (hc : s.fc.configured = true) (hi : ∃ n, i = .commitSend n ∨ i = .commitRecv n)
    (htx : s.fc.txSentBuffers + s.fc.unitsOf i < 2 ^ s.params.cntW)
    (hrx : s.fc.rxGotBytes + bytesOf i < 2 ^ s.params.cntW) : EndsOk i (s.fc.commit i) s := by
  obtain ⟨n, rfl | rfl⟩ := hi
  · exact ((commitSend_outcomes hs).2 hc).1 htx
  · exact ((commitRecv_outcomes hs).2 hc).1 hrx

theorem runCommits_cons {is : List Instr} (h : EndsOk i fc s) :
    runCommits (i :: is) s = runCommits is ({ s with fc := fc }.endOperation (Results.only .ok)) := by
  obtain ⟨t, hexec, hstep⟩ := h
  simp only [runCommits, hexec, hstep]

/-- A run of commits goes from rest to rest, and `S` takes them one by one. -/
theorem runCommits_folds (is : List Instr) {s : State} (hs : s.ready) (hc : s.fc.configured = true)
    (his : ∀ i ∈ is, ∃ n, i = .commitSend n ∨ i = .commitRecv n)
    (htx : s.fc.txSentBuffers + (is.map s.fc.unitsOf).sum < 2 ^ s.params.cntW)
    (hrx : s.fc.rxGotBytes + (is.map bytesOf).sum < 2 ^ s.params.cntW) :
    ∃ t, runCommits is s = .next t ∧ t.ready ∧ t.fc = is.foldl FlowControl.commit s.fc := by
  induction is generalizing s with
  | nil => exact ⟨s, rfl, hs, rfl⟩
  | cons i is ih =>
    obtain ⟨hi, his⟩ := List.forall_mem_cons.1 his
    simp only [List.map_cons, List.sum_cons, ← Nat.add_assoc] at htx hrx
    have hend : EndsOk i (s.fc.commit i) s :=
      commit_endsOk hs hc hi (Nat.lt_of_le_of_lt (Nat.le_add_right _ _) htx)
        (Nat.lt_of_le_of_lt (Nat.le_add_right _ _) hrx)
    rw [runCommits_cons hend]
    exact ih ⟨rfl, hs.2⟩ hc his htx hrx

/-- Commits taken one by one add up. -/
theorem FlowControl.foldl_commit (is : List Instr) (fc : FlowControl) :
    is.foldl FlowControl.commit fc = { fc with
      txSentBuffers := fc.txSentBuffers + (is.map fc.unitsOf).sum
      rxGotBytes := fc.rxGotBytes + (is.map bytesOf).sum } := by
  induction is generalizing fc with
  | nil => rfl
  | cons i is ih =>
    rw [List.foldl_cons, ih, FlowControl.commit_unitsOf]
    simp only [FlowControl.commit, List.map_cons, List.sum_cons, Nat.add_assoc]

end

end Sys2Proof.Machine

namespace Sys2Proof

open Machine

/-- Settles O41: a commit that counts in buffer units. -/
theorem commitSend : Obligations.CommitSend :=
  ⟨fun _ h => decodeRequest_commitSend h, fun _ _ hs => commitSend_outcomes hs⟩

/-- Settles O42: a commit that counts in bytes. -/
theorem commitRecv : Obligations.CommitRecv :=
  ⟨fun _ h => decodeRequest_commitRecv h, fun _ _ hs => commitRecv_outcomes hs⟩

/-- Settles O43: FC_RESET is accepted without a check. -/
theorem fcReset : Obligations.FcReset :=
  ⟨fun _ h => decodeRequest_fcReset h, fun _ hs => fcReset_endsOk hs⟩

/-- Settles O45: the exact cases follow from the law of `ceilDiv`; the run takes the commits one by one, and they add
up. -/
theorem commitsAddUp : Obligations.CommitsAddUp := by
  refine ⟨fun _ _ => rfl, fun a b hb => ?_, fun is s hs hc his htx hrx => ?_⟩
  · exact ⟨le_ceilDiv_mul hb, fun _ => (ceilDiv_le_iff hb).2, Nat.le_zero.1 ((ceilDiv_le_iff hb).2 (Nat.zero_le _)),
      (ceilDiv_eq a 1).trans (ceilDiv_one a), ceilDiv_eq_one, fun k => ⟨ceilDiv_mul hb k, ceilDiv_mul_add_one hb k⟩⟩
  · rw [← FlowControl.foldl_commit]
    exact runCommits_folds is hs hc his htx hrx

end Sys2Proof
end

section
/-! PROOFS. The frame of a command, an EXECUTE without data from its acceptance to its end, and how an operation ends. -/

namespace Sys2Proof.Machine

/-! ### The frame (R168) -/

/-- CMD_FRAME in phase FRAME, where the slave answers each of its six bytes: the bytes received are in the trace
alone. -/
theorem execCmdFrame_sent {s : State} {index : BitVec 6} {arg : Word32} {crc : BitVec 7} {rx : List Byte}
    {rest : List WireAnswer} (hp : s.phase = .frame) (hlen : rx.length = 6) (h : s.slaveSends rx rest) :
    execCmdFrame index arg crc s =
      .next ((s.traced ((frameOf index arg crc).zip rx) rest).goto s.req.afterFrame) :=
  (execCmdFrame_frame hp).trans (xferN_bytes h hlen)

/-! ### EXECUTE without data (R165 to R172) -/

section

variable {s : State} {d : Descriptor} {win rsp : List Byte} {rest : List WireAnswer}

/-- A consistent descriptor without data passes VALIDATE, whatever its buffer operands are (R166). -/
theorem Descriptor.valid_without_data (hd : d.consistent) (hdata : d.flags.data = false) :
    ¬(Request.ofDescriptor d).invalidDescriptor = true := by
  obtain ⟨hindex, hnoresp, hquiet⟩ := hd
  obtain ⟨hmulti, hwrite⟩ := hquiet hdata
  rw [Request.invalidDescriptor_iff]
  rintro (h | h | ⟨h, -⟩ | ⟨h, -⟩ | ⟨h, -⟩)
  · exact absurd hindex (Nat.not_le.2 h)
  · exact absurd hnoresp h
  · exact Bool.noConfusion (hmulti.symm.trans h)
  · exact Bool.noConfusion (hwrite.symm.trans h)
  · exact Bool.noConfusion (hdata.symm.trans h)

/-- Without data nothing is admitted: the frame comes next (R167, R168). -/
theorem exec_execute_without_data (hp : s.phase = .idle) (hd : d.consistent) (hdata : d.flags.data = false) :
    exec (.execute d) s = .next ((s.latch (Request.ofDescriptor d)).goto .frame) := by
  rw [exec_execute_idle hp, if_neg (Descriptor.valid_without_data hd hdata), if_neg (by simp [hdata])]

/-- No block transfer is held in IDLE. -/
theorem State.Inv.bx_blank (hinv : s.Inv) (hp : s.phase = .idle) : s.bx = BlockXfer.blank := by
  have hphase := hinv.phaseInv
  rw [State.phaseInv, hp] at hphase
  obtain ⟨-, hbx, -⟩ := hphase
  exact hbx

/-- What an EXECUTE answers in phase DONE: the response, and its status where the selector is R1 (R22, R172). -/
theorem successResults_execute (hreq : s.req = Request.ofDescriptor d) :
    s.successResults =
      { outcome := some .success, frame := none, response := some s.resp,
        status := if d.sel = .r1 then some (rStatus (s.resp.headD 0)) else none,
        bytesTransferred := some s.bx.doneBytes } := by
  have hstatus : s.statusResult = if d.sel = .r1 then some (rStatus (s.resp.headD 0)) else none := by
    rw [State.statusResult, hreq, Request.ofDescriptor]
    cases d.sel <;> rfl
  rw [State.successResults, hstatus, hreq]
  rfl

/-- The step of phase DONE of an EXECUTE that has moved `n` payload bytes (R172). -/
theorem step_done_execute {n : Nat} (hr : s.env.resetLine = false) (hreq : s.req = Request.ofDescriptor d)
    (hp : s.phase = .done) (hn : s.bx.doneBytes = n) :
    step s = .next (s.endOperation
      { outcome := some .success, frame := none, response := some s.resp,
        status := if d.sel = .r1 then some (rStatus (s.resp.headD 0)) else none, bytesTransferred := some n }) := by
  rw [step_done hr hp, State.finish, successResults_execute hreq, hn]

/-- From the end of the frame to the end of an EXECUTE without data whose command is answered (R169 to R172). -/
theorem steps_answered_finish (hr : s.env.resetLine = false) (hreq : s.req = Request.ofDescriptor d)
    (hdata : d.flags.data = false) (hp : s.phase = s.req.afterFrame) (hresp : s.resp = [])
    (hfresh : s.bx.doneBytes = 0) (ha : d.answered s.params win rsp) (h : s.slaveSends win rest) :
    steps ((win.length + if d.sel = .r1 then 1 else 0) + 1) s =
      .next ((s.traced (pulls win) rest).endOperation
        { outcome := some .success, frame := none, response := some rsp,
          status := if d.sel = .r1 then some (rStatus (rsp.headD 0)) else none,
          bytesTransferred := some 0 }) := by
  have hdone : s.req.afterResponse = .done := by
    rw [Request.afterResponse_eq, if_neg (by simp [hreq, Request.ofDescriptor, hdata])]
  have hend := steps_answered hr hreq hp hresp ha h
  rw [hdone] at hend
  exact Eq.trans (steps_add hend) (Eq.trans (steps_one _) (step_done_execute hr hreq rfl hfresh))

/-- From the end of the frame to the end of an EXECUTE whose window holds idle bytes alone (R169, R203). -/
theorem steps_unanswered (hr : s.env.resetLine = false) (hreq : s.req = Request.ofDescriptor d)
    (hsel : d.sel ≠ .none) (hp : s.phase = s.req.afterFrame)
    (h : s.slaveSends (List.replicate (min 8 d.timeout) Config.idleByte) rest) :
    steps (min 8 d.timeout + 1) s =
      .next ((s.traced (pulls (List.replicate (min 8 d.timeout) Config.idleByte)) rest).endOperation
        (Results.only .responseTimeout)) := by
  have hbound : s.req.scanBound = min 8 d.timeout := by rw [hreq]; rfl
  rw [Request.afterFrame_response (by rw [hreq]; exact hsel)] at hp
  rw [← hbound] at h ⊢
  exact steps_scan_timeout hr hp h

/-- Of an operation that has ended only its exchanges are left (R20). -/
theorem State.endOperation_exchanged {r : Request} {p q : Phase} {w w' : List (Byte × Byte)}
    {rest' : List WireAnswer} {res : Results} :
    ((((((s.latch r).goto p).traced w rest').goto q).traced w' rest)).endOperation res =
      (s.traced (w ++ w') rest).endOperation res := by
  simp [State.traced, State.goto, State.latch, State.endOperation]

end

/-! ### How a step ends an operation (R172, R211) -/

/-- An operation fails with a failure kind (R201). -/
theorem State.failsWith.failure {s : State} {f : OpOutcome} (h : s.failsWith f) : f ≠ .success ∧ f ≠ .ok :=
  ⟨fun hf => by subst hf; exact h, fun hf => by subst hf; exact h⟩

theorem Request.dataStart_ne_idle (r : Request) : r.dataStart ≠ .idle := by
  unfold Request.dataStart
  split <;> exact Phase.noConfusion

theorem Request.afterResponse_ne_idle (r : Request) : r.afterResponse ≠ .idle := by
  rw [Request.afterResponse_eq]
  split
  · exact r.dataStart_ne_idle
  · exact Phase.noConfusion

theorem Request.afterFrame_ne_idle (r : Request) : r.afterFrame ≠ .idle := by
  unfold Request.afterFrame
  split
  · exact r.afterResponse_ne_idle
  · exact Phase.noConfusion

theorem State.afterWrite_ne_idle (j : Nat) (s : State) : s.afterWrite j ≠ .idle := by
  unfold State.afterWrite
  split_ifs <;> exact Phase.noConfusion

/-- Of the rows of R186 only the last one, and a failure, lead to IDLE. -/
theorem WireStep.ends {s t : State} (h : WireStep s t) (ht : t.phase = .idle) :
    (s.phase = .done ∧ t = s.finish) ∨
      ∃ f e w, s.env.Moved e ∧ s.failsWith f ∧ t = State.fail f { s with env := e, trace := s.trace ++ w } := by
  cases h with
  | fails f e w he hf _ => exact .inr ⟨f, e, w, he, hf, rfl⟩
  | done hp => exact .inl ⟨hp, rfl⟩
  | frame e rx => exact absurd ht s.req.afterFrame_ne_idle
  | rest r e b =>
    split_ifs at ht
    exact absurd ht s.req.afterResponse_ne_idle
  | status => exact absurd ht s.req.afterResponse_ne_idle
  | accepted j e b => exact absurd ht (s.afterWrite_ne_idle j)
  | matched j e b => exact absurd ht (s.afterRead_ne_idle j)
  | scanMarker | ready | data | crc | busy | payload =>
    split_ifs at ht
  | _ => exact Phase.noConfusion ht

end Sys2Proof.Machine

namespace Sys2Proof

open Machine

/-- Settles O23: the item is one call of six bytes, and the step of an EXECUTE runs the item of its request. -/
theorem cmdFrameSent : Obligations.CmdFrameSent :=
  fun _ _ _ hp hlen h => ⟨fun _ _ _ => execCmdFrame_sent hp hlen h, fun hr hcrc _ => step_frame hr hp hcrc hlen h⟩

/-- Settles O50: the frame, then the answered window and the step of phase DONE, or the window used up. -/
theorem executeWithoutData : Obligations.ExecuteWithoutData := by
  intro d s ignored rest hs hinv hcrc hd hdata hlen
  obtain ⟨hp, hr⟩ := hs
  have hfresh : s.bx.doneBytes = 0 := congrArg BlockXfer.doneBytes (hinv.bx_blank hp)
  refine ⟨_, exec_execute_without_data hp hd hdata, fun win rsp ha h => ?_, fun hsel h => ?_⟩
  · rw [Descriptor.responseSteps, Nat.add_assoc, Nat.add_comm 1, Nat.add_right_comm]
    refine Eq.trans (steps_succ (step_frame hr rfl hcrc hlen (State.slaveSends_append.1 h))) ?_
    refine Eq.trans (steps_answered_finish hr rfl hdata rfl (hinv.resp_nil hp) hfresh ha rfl) ?_
    exact congrArg Host.Outcome.next State.endOperation_exchanged
  · rw [List.length_replicate]
    refine Eq.trans (steps_succ (step_frame hr rfl hcrc hlen (State.slaveSends_append.1 h))) ?_
    refine Eq.trans (steps_unanswered hr rfl hsel rfl rfl) ?_
    exact congrArg Host.Outcome.next State.endOperation_exchanged

/-- Settles O55: a step to IDLE is that of phase DONE or a failure, which keeps `S`, the parameters and the port. -/
theorem failureEndsOperation : Obligations.FailureEndsOperation := by
  intro s t hstep hp ht
  rcases (step_wire hp hstep).ends ht with ⟨hdone, rfl⟩ | ⟨f, e, w, he, hf, rfl⟩
  · exact .inl ⟨hdone, rfl, rfl, rfl, rfl, rfl, rfl⟩
  · obtain ⟨hsuccess, hok⟩ := hf.failure
    obtain ⟨hport, -⟩ := he.trans (State.fail_moved f { s with env := e, trace := s.trace ++ w })
    exact .inr ⟨f, hsuccess, hok, State.fail_failedWith f _, State.fail_fc f _, State.fail_params f _, hport⟩

end Sys2Proof
end

section
/-! PROOFS. Nothing that a run does depends on what ran before it (R173): every operation takes two states that differ in
what earlier runs left to two such states. -/

namespace Sys2Proof.Machine

/-! ### What earlier runs leave behind -/

/-- What earlier runs leave behind: the result registers, the wire trace, memory, and the requests still waiting. -/
structure Past where
  results : Results
  trace : List (Byte × Byte)
  mem : Memory
  port : List PortRequest

def State.past (s : State) : Past :=
  { results := s.results, trace := s.trace, mem := s.mem, port := s.env.port }

/-- `s` with another past. -/
def State.after (s : State) (p : Past) : State :=
  { s with results := p.results, trace := p.trace, mem := p.mem, env := { s.env with port := p.port } }

/-- Of two states that differ in the past alone, the second is the first with the second's past. -/
theorem State.eq_after {s s' : State} (h : s'.after s.past = s) : s' = s.after s'.past := by
  rw [← h]
  rfl

section

variable (s : State) (p : Past)

@[simp] theorem State.after_params : (s.after p).params = s.params := rfl
@[simp] theorem State.after_phase : (s.after p).phase = s.phase := rfl
@[simp] theorem State.after_req : (s.after p).req = s.req := rfl
@[simp] theorem State.after_crcErrs : (s.after p).env.crcErrs = s.env.crcErrs := rfl
@[simp] theorem State.after_credit : (s.after p).env.credit = s.env.credit := rfl
@[simp] theorem State.after_draws : (s.after p).env.draws = s.env.draws := rfl

end

/-- A relation of two pasts that lasts: an exchange, a store and the end of an operation, made alike on both, keep it. -/
structure PastRel where
  rel : Past → Past → Prop
  exchange : ∀ {p q : Past} (w : List (Byte × Byte)), rel p q →
    rel { p with trace := p.trace ++ w } { q with trace := q.trace ++ w }
  store : ∀ {p q : Past} (a : Nat) (v : Byte), rel p q →
    rel { p with mem := memWrite p.mem a v } { q with mem := memWrite q.mem a v }
  ended : ∀ {p q : Past} (r : Results), rel p q → rel { p with results := r } { q with results := r }

theorem PastRel.storeBlock (Q : PastRel) {p q : Past} (a : Nat) (bs : List Byte) (h : Q.rel p q) :
    Q.rel { p with mem := memWriteBlock p.mem a bs } { q with mem := memWriteBlock q.mem a bs } := by
  induction bs generalizing p q a with
  | nil => exact h
  | cons b bs ih => exact ih (a + 1) (Q.store a b h)

theorem PastRel.spoil (Q : PastRel) {p q : Past} (a n d : Nat) (h : Q.rel p q) :
    Q.rel { p with mem := memSpoil p.mem a n d } { q with mem := memSpoil q.mem a n d } := by
  induction n generalizing p q a d with
  | zero => exact h
  | succ n ih => exact ih (a + 1) (d + 1) (Q.store a _ h)

/-- `t'` is `t` with a past that `Q` relates to its own. -/
def PastRel.Kin (Q : PastRel) (t t' : State) : Prop := ∃ p, t' = t.after p ∧ Q.rel t.past p

/-- `k` depends on nothing of the past: related pasts lead to outcomes of one kind, and to related pasts. -/
def Forgets (Q : PastRel) (k : State → Out) : Prop := ∀ s p, Q.rel s.past p → Agree Q.Kin (k s) (k (s.after p))

/-- The update `u` neither reads nor changes the past. -/
def KeepsPast (u : State → State) : Prop := ∀ s p, u (s.after p) = (u s).after p ∧ (u s).past = s.past

section

variable {Q : PastRel}

theorem next_forgets {u : State → State} (hu : KeepsPast u := by exact fun _ _ => ⟨rfl, rfl⟩) :
    Forgets Q fun s => .next (u s) := fun s p h => by
  obtain ⟨hafter, hpast⟩ := hu s p
  exact ⟨p, hafter, hpast ▸ h⟩

theorem fault_forgets (f : Fault) : Forgets Q fun _ => .fault f := fun _ _ _ => rfl

/-- An update before a rest that forgets. -/
theorem Forgets.comp {k : State → Out} {u : State → State} (hk : Forgets Q k)
    (hu : KeepsPast u := by exact fun _ _ => ⟨rfl, rfl⟩) : Forgets Q fun s => k (u s) := fun s p h => by
  obtain ⟨hafter, hpast⟩ := hu s p
  simp only [hafter]
  exact hk (u s) p (hpast ▸ h)

/-- A rest that depends on a part of the state in which the past does not show. -/
theorem Forgets.view {α : Type} {k : α → State → Out} {v : State → α} (hk : ∀ a, Forgets Q (k a))
    (hv : ∀ s p, v (s.after p) = v s := by exact fun _ _ => rfl) : Forgets Q fun s => k (v s) s := fun s p h => by
  simp only [hv]
  exact hk _ _ _ h

/-- A check in which the past does not show. -/
theorem Forgets.ite {c : State → Prop} {_ : DecidablePred c} {k k' : State → Out} (hk : Forgets Q k)
    (hk' : Forgets Q k') (hc : ∀ s p, c (s.after p) ↔ c s := by exact fun _ _ => Iff.rfl) :
    Forgets Q fun s => if c s then k s else k' s := fun s p h => by
  simp only [hc]
  split
  · exact hk s p h
  · exact hk' s p h

/-! ### How an operation ends -/

/-- The end of an operation overwrites the result registers of every past. -/
theorem kin_endOperation {s : State} {p : Past} (r : Results) (h : Q.rel s.past p) :
    Q.Kin (s.endOperation r) ((s.after p).endOperation r) :=
  ⟨{ p with results := r }, rfl, Q.ended r h⟩

theorem kin_spoilFrom {s : State} {p : Past} (j : Nat) (h : Q.rel s.past p) :
    Q.Kin (s.spoilFrom j) ((s.after p).spoilFrom j) :=
  ⟨_, rfl, Q.spoil _ _ _ h⟩

theorem raise_forgets (f : OpOutcome) : Forgets Q (raise f) := fun s p h => by
  have spoiled : Q.Kin s.spoilRead (s.after p).spoilRead := by
    simp only [State.spoilRead, State.after_phase]
    cases s.phase with
    | rData j i => exact kin_spoilFrom j h
    | rCrc j low => exact kin_spoilFrom j h
    | _ => exact ⟨p, rfl, h⟩
  obtain ⟨q, hq, hrel⟩ := spoiled
  change Q.Kin (s.spoilRead.endOperation _) ((s.after p).spoilRead.endOperation _)
  rw [hq]
  exact kin_endOperation _ hrel

theorem finish_forgets : Forgets Q fun s => .next s.finish := fun _ _ h => kin_endOperation _ h

/-! ### The collaborators -/

/-- The slave's answer does not depend on the requests that wait. -/
theorem Env.nextWire_port (e : Env) : ∃ a sl d, ∀ po,
    Env.nextWire { e with port := po } = (a, { e with port := po, slave := sl, draws := d }) := by
  unfold Env.nextWire
  rcases e.slave with _ | ⟨a, rest⟩
  · exact ⟨.byte (Config.slaveByte e.draws), [], e.draws + 1, fun _ => rfl⟩
  · exact ⟨a, rest, e.draws, fun _ => rfl⟩

theorem Env.nextWires_port (n : Nat) (e : Env) : ∃ a sl d, ∀ po,
    Env.nextWires n { e with port := po } = (a, { e with port := po, slave := sl, draws := d }) := by
  induction n generalizing e with
  | zero => exact ⟨.ok [], e.slave, e.draws, fun _ => rfl⟩
  | succ n ih =>
    obtain ⟨a, sl, d, hfirst⟩ := e.nextWire_port
    obtain ⟨as, sl', d', hrest⟩ := ih { e with slave := sl, draws := d }
    simp only [Env.nextWires, hfirst]
    cases a with
    | error c => exact ⟨_, sl, d, fun _ => rfl⟩
    | byte b =>
      simp only [hrest]
      cases as with
      | error c => exact ⟨_, sl', d', fun _ => rfl⟩
      | ok bs => exact ⟨_, sl', d', fun _ => rfl⟩

theorem xfer_forgets {x : Byte} {k : Byte → State → Out} (hk : ∀ b, Forgets Q (k b)) :
    Forgets Q fun s => xfer x s k := fun s p h => by
  obtain ⟨a, sl, d, hwire⟩ := s.env.nextWire_port
  have here : s.env.nextWire = _ := hwire s.env.port
  have there : (s.after p).env.nextWire = _ := hwire p.port
  simp only [xfer, here, there]
  cases a with
  | byte b =>
    exact hk b { s with env := { s.env with slave := sl, draws := d }, trace := s.trace ++ [(x, b)] } _
      (Q.exchange [(x, b)] h)
  | error c => exact raise_forgets _ { s with env := { s.env with slave := sl, draws := d } } p h

theorem pull_forgets {k : Byte → State → Out} (hk : ∀ b, Forgets Q (k b)) : Forgets Q fun s => pull s k :=
  xfer_forgets hk

theorem push_forgets {x : Byte} {k : State → Out} (hk : Forgets Q k) : Forgets Q fun s => push x s k :=
  xfer_forgets fun _ => hk

theorem xferN_forgets {xs : List Byte} {k : List Byte → State → Out} (hk : ∀ bs, Forgets Q (k bs)) :
    Forgets Q fun s => xferN xs s k := fun s p h => by
  obtain ⟨a, sl, d, hwire⟩ := s.env.nextWires_port xs.length
  have here : Env.nextWires xs.length s.env = _ := hwire s.env.port
  have there : Env.nextWires xs.length (s.after p).env = _ := hwire p.port
  simp only [xferN, here, there]
  cases a with
  | ok bs =>
    exact hk bs { s with env := { s.env with slave := sl, draws := d }, trace := s.trace ++ xs.zip bs } _
      (Q.exchange (xs.zip bs) h)
  | error c => exact raise_forgets _ { s with env := { s.env with slave := sl, draws := d } } p h

theorem crcCall_forgets {c : Collab} {k : State → Out} (hk : Forgets Q k) : Forgets Q fun s => crcCall c s k :=
  fun s p h => by
    simp only [crcCall, State.after_crcErrs, State.after_phase]
    rcases s.env.crcErrs with _ | ⟨_ | code, rest⟩
    · exact hk _ _ h
    · exact hk { s with env := { s.env with crcErrs := rest } } p h
    · exact raise_forgets _ { s with env := { s.env with crcErrs := rest } } p h

theorem availCredit_forgets {k : Nat → State → Out} (hk : ∀ a, Forgets Q (k a)) :
    Forgets Q fun s => availCredit s k := fun s p h => by
  simp only [availCredit, State.after_credit, State.after_draws, State.after_phase, State.after_params]
  rcases s.env.credit with _ | ⟨n | code, rest⟩
  · exact hk _ { s with env := { s.env with credit := [], draws := s.env.draws + 1 } } p h
  · exact hk _ { s with env := { s.env with credit := rest } } p h
  · exact raise_forgets _ { s with env := { s.env with credit := rest } } p h

theorem commitSendUnits_forgets {n : State → Nat} {k : State → Out} (hk : Forgets Q k)
    (hn : ∀ s p, n (s.after p) = n s := by exact fun _ _ => rfl) :
    Forgets Q fun s => commitSendUnits (n s) s k :=
  .view (k := fun n s => commitSendUnits n s k) (fun _ => .ite hk.comp (fault_forgets _)) hn

theorem commitRecvBytes_forgets {n : State → Nat} {k : State → Out} (hk : Forgets Q k)
    (hn : ∀ s p, n (s.after p) = n s := by exact fun _ _ => rfl) :
    Forgets Q fun s => commitRecvBytes (n s) s k :=
  .view (k := fun n s => commitRecvBytes n s k) (fun _ => .ite hk.comp (fault_forgets _)) hn

theorem atIdle_forgets {k : State → Out} (hk : Forgets Q k) : Forgets Q fun s => atIdle s k := .ite hk next_forgets

theorem xferAdmit_forgets {k : Nat → State → Out} (hk : ∀ n, Forgets Q (k n)) : Forgets Q fun s => xferAdmit s k :=
  .ite (raise_forgets _) <| .ite (raise_forgets _) <| .ite (raise_forgets _) <| .ite (raise_forgets _) <|
    availCredit_forgets fun _ => .ite (raise_forgets _) (.view hk)

/-! ### The requests -/

theorem startXfer_forgets (write multi : Bool) (x : XferArgs) : Forgets Q (startXfer write multi x) :=
  atIdle_forgets (xferAdmit_forgets fun _ => next_forgets).comp

theorem startDecode_forgets (sel : Sel) : Forgets Q (startDecode sel) := atIdle_forgets next_forgets

theorem reserve_forgets (r : Request) (need : Nat) : Forgets Q (reserve r need) :=
  atIdle_forgets <| .ite (raise_forgets _).comp (availCredit_forgets fun _ => .ite (raise_forgets _) next_forgets).comp

theorem execEncode_forgets (index : Nat) (arg : Word32) : Forgets Q (execEncode index arg) :=
  atIdle_forgets <| .ite (raise_forgets _).comp (crcCall_forgets next_forgets).comp

theorem execExecute_forgets (d : Descriptor) : Forgets Q (execExecute d) :=
  atIdle_forgets <| .ite (raise_forgets _).comp <| .ite (xferAdmit_forgets fun _ => next_forgets).comp next_forgets

theorem execCommitSend_forgets (n : Nat) : Forgets Q (execCommitSend n) :=
  atIdle_forgets <| .ite (raise_forgets _).comp (commitSendUnits_forgets (n := fun _ => n) next_forgets).comp

theorem execCommitRecv_forgets (n : Nat) : Forgets Q (execCommitRecv n) :=
  atIdle_forgets <| .ite (raise_forgets _).comp (commitRecvBytes_forgets (n := fun _ => n) next_forgets).comp

theorem execConfig_forgets (bs bk : Nat) : Forgets Q (execConfig bs bk) :=
  atIdle_forgets <| .ite (raise_forgets _).comp next_forgets

/-! ### The wire items -/

theorem execCmdFrame_forgets (index : BitVec 6) (arg : Word32) (crc : BitVec 7) :
    Forgets Q (execCmdFrame index arg crc) := fun s p h => by
  simp only [execCmdFrame, State.after_phase]
  cases s.phase with
  | frame => exact xferN_forgets (fun _ => next_forgets) s p h
  | _ => rfl

theorem execIdle_forgets : Forgets Q execIdle := fun s p h => by
  simp only [execIdle, State.after_phase]
  cases s.phase with
  | rspScan k => exact ⟨p, rfl, h⟩
  | wReady n => exact ⟨p, rfl, h⟩
  | wBusy n => exact ⟨p, rfl, h⟩
  | rPoll j n => exact ⟨p, rfl, h⟩
  | _ => rfl

theorem execTokStartSingle_forgets : Forgets Q execTokStartSingle := fun s p h => by
  simp only [execTokStartSingle, State.after_phase]
  cases s.phase with
  | wToken => exact push_forgets next_forgets s p h
  | rPoll j n => exact ⟨p, rfl, h⟩
  | _ => rfl

theorem execTokStartMultiWr_forgets : Forgets Q execTokStartMultiWr := fun s p h => by
  simp only [execTokStartMultiWr, State.after_phase]
  cases s.phase with
  | wToken => exact push_forgets next_forgets s p h
  | _ => rfl

theorem execTokStop_forgets : Forgets Q execTokStop := fun s p h => by
  simp only [execTokStop, State.after_phase]
  cases s.phase with
  | wStop => exact push_forgets next_forgets s p h
  | _ => rfl

/-- A block is stored in both memories alike, wherever it lies (R135). -/
theorem storeBlock_forgets {k : State → Out} (j : Nat) (bs : List Byte) (hk : Forgets Q k) :
    Forgets Q fun s => k { s with mem := memWriteBlock s.mem (s.req.blockAddr j) bs } := fun s _ h =>
  hk { s with mem := memWriteBlock s.mem (s.req.blockAddr j) bs } _ (Q.storeBlock (s.req.blockAddr j) bs h)

theorem execDataBlock_forgets (payload : List Byte) (crc : BitVec 16) : Forgets Q (execDataBlock payload crc) :=
  fun s p h => by
    simp only [execDataBlock, State.after_phase]
    cases s.phase with
    | wData j i => exact push_forgets next_forgets s p h
    | wCrc j low => cases low <;> exact push_forgets next_forgets s p h
    | rCrc j low =>
      cases low with
      | false => rfl
      | true =>
        have commit : Forgets Q fun s => commitRecvBytes s.req.blockLength s fun s =>
            .next (s.blockDone (s.afterRead j)) := commitRecvBytes_forgets next_forgets
        exact crcCall_forgets (.ite (c := fun s => crc = crc16 s.params payload)
          (storeBlock_forgets j payload commit) (raise_forgets _)) s p h
    | _ => rfl

theorem execDataResp_forgets (b : Byte) : Forgets Q (execDataResp b) := fun s p h => by
  simp only [execDataResp, State.after_phase]
  cases s.phase with
  | wDresp j =>
    have commit : Forgets Q fun s => commitSendUnits s.req.blockLength s fun s =>
        .next (s.blockDone (s.afterWrite j)) := commitSendUnits_forgets next_forgets
    exact Forgets.ite (c := fun s => drespAccepted s.params b = true) commit (raise_forgets _)
      (fun _ _ => Iff.rfl) s p h
  | _ => rfl

theorem execRspR1_forgets (m : Byte) : Forgets Q (execRspR1 m) := fun s p h => by
  simp only [execRspR1, State.after_phase]
  cases s.phase with
  | rspScan k => exact ⟨p, rfl, h⟩
  | _ => rfl

theorem takeResponse_forgets (bytes : List Byte) : Forgets Q (takeResponse bytes) := fun s p h => by
  simp only [takeResponse, State.after_phase]
  cases s.phase with
  | rspRest r => exact ⟨p, rfl, h⟩
  | _ => rfl

/-- No instruction depends on the past. -/
theorem exec_forgets (i : Instr) : Forgets Q (exec i) := by
  cases i with
  | encode index arg => exact execEncode_forgets index arg
  | decodeNone => exact atIdle_forgets next_forgets
  | decodeR1 => exact startDecode_forgets .r1
  | decodeR4 => exact startDecode_forgets .r4
  | decodeR5 => exact startDecode_forgets .r5
  | xferWrSingle x => exact startXfer_forgets true false x
  | xferWrMulti x => exact startXfer_forgets true true x
  | xferRdSingle x => exact startXfer_forgets false false x
  | xferRdMulti x => exact startXfer_forgets false true x
  | execute d => exact execExecute_forgets d
  | reserveSend n => exact .view (v := fun s => s.fc.units n) (reserve_forgets (Request.ofBytes .reserveSend n))
  | reserveRecv n => exact reserve_forgets (Request.ofBytes .reserveRecv n) n
  | commitSend n => exact execCommitSend_forgets n
  | commitRecv n => exact execCommitRecv_forgets n
  | fcReset => exact atIdle_forgets next_forgets
  | config bs bk => exact execConfig_forgets bs bk
  | reservedAB _ => exact atIdle_forgets (raise_forgets _)
  | reservedCF _ => exact atIdle_forgets (raise_forgets _)
  | cmdFrame index arg crc => exact execCmdFrame_forgets index arg crc
  | idle => exact execIdle_forgets
  | tokStartSingle => exact execTokStartSingle_forgets
  | tokStartMultiWr => exact execTokStartMultiWr_forgets
  | tokStop => exact execTokStop_forgets
  | dataBlock payload crc => exact execDataBlock_forgets payload crc
  | dataResp b => exact execDataResp_forgets b
  | rspR1 m => exact execRspR1_forgets m
  | rspR4 m p1 p2 p3 p4 => exact takeResponse_forgets [m, p1, p2, p3, p4]
  | rspR5 m p1 => exact takeResponse_forgets [m, p1]

/-! ### The sequencer -/

theorem received_forgets (f : WireFormat) (bytes : List Byte) : Forgets Q (received f bytes exec) := by
  unfold received
  split
  · exact exec_forgets _
  · exact fault_forgets _

theorem fetchRequest_forgets (r : PortRequest) : Forgets Q (fetchRequest exec r) := by
  unfold fetchRequest
  split
  · exact raise_forgets _
  · exact .ite (exec_forgets _) (fault_forgets _)

theorem fetchScan_forgets (k : Nat) : Forgets Q (fetchScan exec k) :=
  .ite (raise_forgets _) <| pull_forgets fun b => .ite (received_forgets _ _) fun s p h => by
    simp only [State.after_req]
    cases s.req.sel with
    | r1 => exact received_forgets _ _ s p h
    | _ => exact ⟨p, rfl, h⟩

theorem fetchRest_forgets (r : Nat) : Forgets Q (fetchRest exec r) :=
  pull_forgets fun b => .ite
    (.view (v := fun s => s.resp ++ [b]) fun bytes => .view (v := fun s => restFormat s.req.sel)
      fun f => received_forgets f bytes)
    next_forgets

theorem fetchWait_forgets (n : Nat) (again : Phase) : Forgets Q (fetchWait exec n again) :=
  .ite (raise_forgets _) <| pull_forgets fun _ => .ite (received_forgets _ _) next_forgets

theorem fetchPoll_forgets (j n : Nat) : Forgets Q (fetchPoll exec j n) :=
  .ite (raise_forgets _) <| pull_forgets fun _ => .ite (received_forgets _ _) <| .ite (received_forgets _ _) next_forgets

theorem statusCheck_forgets : Forgets Q statusCheck := fun s p h => by
  simp only [statusCheck, State.after_req]
  cases s.req.op with
  | execute =>
    exact Forgets.ite (c := fun s => isFatal s.params s.req.index (s.resp.headD 0) = true)
      (.view (v := fun s => .statusError (s.resp.headD 0)) raise_forgets)
      (next_forgets (u := fun s => s.goto s.req.afterResponse)) (fun _ _ => Iff.rfl) s p h
  | _ => exact ⟨p, rfl, h⟩

/-- The block that a write reads from its buffer is the same in both memories (R64 (c), R132). -/
def SameLoad (s : State) (m : Memory) : Prop :=
  ∀ j, s.phase = .wData j 0 →
    memReadBlock m (s.req.blockAddr j) s.req.blockLength = memReadBlock s.mem (s.req.blockAddr j) s.req.blockLength

/-- Outside IDLE a step depends on nothing of the past but the block it reads to write it. -/
theorem fetch_busy_forgets {s : State} {p : Past} (hp : s.phase ≠ .idle) (hload : SameLoad s p.mem)
    (h : Q.rel s.past p) : Agree Q.Kin (fetch exec s) (fetch exec (s.after p)) := by
  have held : Forgets Q fun s => exec s.heldBlock s := .view exec_forgets
  simp only [fetch, State.after_phase]
  cases hph : s.phase with
  | idle => exact absurd hph hp
  | frame => exact crcCall_forgets (.view exec_forgets) s p h
  | rspScan k => exact fetchScan_forgets k s p h
  | rspRest r => exact fetchRest_forgets r s p h
  | status => exact statusCheck_forgets s p h
  | wReady n => exact fetchWait_forgets n _ s p h
  | wToken => exact exec_forgets _ s p h
  | wData j i =>
    cases i with
    | zero =>
      have hsame : (s.after p).loadBlock j = (s.loadBlock j).after p :=
        congrArg (fun held => ({ s with bx := { s.bx with held := held } } : State).after p) (hload j hph)
      simp only [hsame]
      exact held (s.loadBlock j) p h
    | succ i => exact held s p h
  | wCrc j low =>
    cases low with
    | false => exact crcCall_forgets held s p h
    | true => exact held s p h
  | wDresp j => exact pull_forgets (fun _ => received_forgets _ _) s p h
  | wStop => exact exec_forgets _ s p h
  | wBusy n => exact fetchWait_forgets n _ s p h
  | rPoll j n => exact fetchPoll_forgets j n s p h
  | rData j i => exact pull_forgets (fun _ => next_forgets) s p h
  | rCrc j low =>
    cases low with
    | false => exact pull_forgets (fun _ => next_forgets) s p h
    | true =>
      exact pull_forgets (fun b => .view (v := fun s => s.bx.held ++ [s.bx.crcHi, b]) (received_forgets .dataBlock))
        s p h
  | done => exact finish_forgets s p h

/-- In IDLE a step depends on nothing of the past but the requests that wait. -/
theorem fetch_idle_forgets {s : State} {p : Past} (hp : s.phase = .idle) (hport : p.port = s.env.port)
    (hpop : ∀ rest, Q.rel { s.past with port := rest } { p with port := rest }) (h : Q.rel s.past p) :
    Agree Q.Kin (fetch exec s) (fetch exec (s.after p)) := by
  have there : (s.after p).env.port = s.env.port := hport
  rw [fetch_idle hp, fetch_idle (s := s.after p) hp, there]
  cases s.env.port with
  | nil => exact ⟨p, rfl, h⟩
  | cons r rest =>
    exact fetchRequest_forgets r { s with env := { s.env with port := rest } } { p with port := rest } (hpop rest)

end

/-! ### Two pasts after the same run -/

/-- `p` and `q` came from `o` and `o'` by the same exchanges, with equal results where an operation has ended since:
memory is related by `M`, and the waiting requests are equal where `samePort` holds. -/
def Past.Since (o o' : Past) (M : Memory → Memory → Prop) (samePort : Prop) (p q : Past) : Prop :=
  M p.mem q.mem ∧ (samePort → q.port = p.port) ∧ (∃ run, p.trace = o.trace ++ run ∧ q.trace = o'.trace ++ run) ∧
    (q.results = p.results ∨ (p.results = o.results ∧ q.results = o'.results))

theorem Past.since_start {o o' : Past} {M : Memory → Memory → Prop} {samePort : Prop} (hmem : M o.mem o'.mem)
    (hport : samePort → o'.port = o.port) : Past.Since o o' M samePort o o' :=
  ⟨hmem, hport, ⟨[], (List.append_nil _).symm, (List.append_nil _).symm⟩, .inr ⟨rfl, rfl⟩⟩

/-- A relation of memories that equal stores keep gives a relation of pasts that lasts. -/
def PastRel.since (o o' : Past) (M : Memory → Memory → Prop)
    (hM : ∀ {m m' : Memory} (a : Nat) (v : Byte), M m m' → M (memWrite m a v) (memWrite m' a v)) (samePort : Prop) :
    PastRel where
  rel := Past.Since o o' M samePort
  exchange w := by
    rintro ⟨hmem, hport, ⟨run, hp, hq⟩, hres⟩
    exact ⟨hmem, hport, ⟨run ++ w, by simp only [hp, List.append_assoc], by simp only [hq, List.append_assoc]⟩, hres⟩
  store a v := by
    rintro ⟨hmem, hrest⟩
    exact ⟨hM a v hmem, hrest⟩
  ended r := by
    rintro ⟨hmem, hport, hrun, -⟩
    exact ⟨hmem, hport, hrun, .inl rfl⟩

/-! ### Runs -/

/-- The outcome of `f` after a next state; a fault or a refusal stops the run. -/
def goOn (f : State → Out) : Out → Out
  | .next t => f t
  | .fault r => .fault r
  | .refused r => .refused r

theorem steps_goOn (n : Nat) (s : State) : steps (n + 1) s = goOn (steps n) (step s) := rfl

theorem stepsToIdle_goOn {n : Nat} {s : State} (hp : s.phase ≠ .idle) :
    stepsToIdle (n + 1) s = goOn (stepsToIdle n) (step s) := if_neg hp

theorem runOperation_goOn (i : Instr) (n : Nat) (s : State) :
    runOperation i n s = goOn (stepsToIdle n) (exec i s) := rfl

theorem Agree.goOn {R R' : State → State → Prop} {o o' : Out} {f : State → Out} (h : Agree R o o')
    (hf : ∀ t t', o = .next t → R t t' → Agree R' (f t) (f t')) : Agree R' (goOn f o) (goOn f o') := by
  cases o with
  | next t =>
    cases o' with
    | next t' => exact hf t t' rfl h
    | _ => exact h.elim
  | fault r =>
    cases o' with
    | fault r' => exact h
    | _ => exact h.elim
  | refused r =>
    cases o' with
    | refused r' => exact h
    | _ => exact h.elim

/-- With the reset signal low a step leaves it low. -/
theorem step_resetLine {s t : State} (hr : s.env.resetLine = false) (h : step s = .next t) :
    t.env.resetLine = false := by
  by_cases hp : s.phase = .idle
  · rcases step_idle hp hr h with ⟨-, rfl⟩ | ⟨r, rest, -, ⟨f, -, rfl⟩ | ⟨i, -, hreq⟩⟩
    · exact hr
    · obtain ⟨-, hkept, -⟩ := State.fail_port f { s with env := { s.env with port := rest } }
      exact hkept.trans hr
    · obtain ⟨-, hkept, -⟩ := hreq.asked
      exact hkept.trans hr
  · obtain ⟨-, hkept, -⟩ := (step_wire hp h).moved
    exact hkept.trans hr

/-! ### Machines that differ in the trace and in the results alone -/

/-- The pasts may differ in the trace and in the results, and in nothing else. -/
def PastRel.shown (o o' : Past) : PastRel := .since o o' Eq (fun _ _ h => by rw [h]) True

theorem step_shown {o o' : Past} {s : State} {p : Past} (hr : s.env.resetLine = false)
    (h : (PastRel.shown o o').rel s.past p) : Agree (PastRel.shown o o').Kin (step s) (step (s.after p)) := by
  rw [step_fetch hr, step_fetch (s := s.after p) hr]
  obtain ⟨hmem, hport, hsince⟩ := id h
  by_cases hp : s.phase = .idle
  · exact fetch_idle_forgets hp (hport trivial) (fun _ => ⟨hmem, fun _ => rfl, hsince⟩) h
  · exact fetch_busy_forgets hp (fun _ _ => by rw [← hmem]; rfl) h

theorem steps_shown {o o' : Past} (n : Nat) {s : State} {p : Past} (hr : s.env.resetLine = false)
    (h : (PastRel.shown o o').rel s.past p) : Agree (PastRel.shown o o').Kin (steps n s) (steps n (s.after p)) := by
  induction n generalizing s p with
  | zero => exact ⟨p, rfl, h⟩
  | succ n ih =>
    rw [steps_goOn, steps_goOn]
    refine (step_shown hr h).goOn ?_
    rintro t _ ht ⟨q, rfl, hq⟩
    exact ih (step_resetLine hr ht) hq

/-! ### Machines that agree on the lent buffer -/

/-- Two memories in canonical form that agree on the lent buffer (R51). -/
def SameBuffer (d : Descriptor) (m m' : Memory) : Prop :=
  Memory.wf m ∧ Memory.wf m' ∧ ∀ a, d.lends a → memRead m' a = memRead m a

theorem SameBuffer.memWrite {d : Descriptor} {m m' : Memory} (a : Nat) (v : Byte) (h : SameBuffer d m m') :
    SameBuffer d (memWrite m a v) (memWrite m' a v) := by
  obtain ⟨hm, hm', hsame⟩ := h
  refine ⟨memWrite_wf hm, memWrite_wf hm', fun b hb => ?_⟩
  rw [memRead_memWrite hm, memRead_memWrite hm', hsame b hb]

/-- The pasts may differ in everything but the lent buffer. -/
def PastRel.lent (d : Descriptor) (o o' : Past) : PastRel := .since o o' (SameBuffer d) SameBuffer.memWrite False

/-- A block about to be written lies in the lent buffer (R51, R126). -/
theorem State.Inv.writesBlock {s : State} {j i : Nat} (hinv : s.Inv) (hp : s.phase = .wData j i) :
    s.req.buf ≠ none ∧ (j + 1) * s.req.blockLength ≤ s.req.dataLen := by
  have hph := hinv.phaseInv
  rw [State.phaseInv, hp] at hph
  obtain ⟨⟨⟨-, hbuf, -, -, -, hlen, -⟩, -⟩, hj, -⟩ := hph
  exact ⟨hbuf, hlen ▸ Nat.mul_le_mul_right _ hj⟩

/-- A write reads the lent buffer alone. -/
theorem SameBuffer.sameLoad {d : Descriptor} {s : State} {m : Memory} (h : SameBuffer d s.mem m) (hinv : s.Inv)
    (hreq : s.req = Request.ofDescriptor d) : SameLoad s m := by
  intro j hp
  obtain ⟨hbuf, hfit⟩ := hinv.writesBlock hp
  obtain ⟨-, -, hsame⟩ := h
  refine memReadBlock_congr fun i hi => hsame _ ?_
  have hlends : s.req.lendsFrom j (s.req.blockAddr j + i) := by
    rw [Nat.succ_mul] at hfit
    unfold Request.lendsFrom
    omega
  rw [hreq] at hlends hbuf ⊢
  exact hlends.lent hbuf

theorem State.fail_phase (f : OpOutcome) (s : State) : (s.fail f).phase = .idle := by
  obtain ⟨hp, -⟩ := State.fail_failedWith f s
  exact hp

/-- The request stays latched until the operation ends (R67). -/
theorem WireStep.req {s t : State} (h : WireStep s t) (ht : t.phase ≠ .idle) : t.req = s.req := by
  cases h with
  | fails f e w => exact absurd (State.fail_phase f _) ht
  | done => exact absurd rfl ht
  | _ => rfl

theorem stepsToIdle_lent {d : Descriptor} {o o' : Past} (n : Nat) {s : State} {p : Past}
    (hr : s.env.resetLine = false) (hinv : s.Inv) (hreq : s.phase ≠ .idle → s.req = Request.ofDescriptor d)
    (h : (PastRel.lent d o o').rel s.past p) :
    Agree (PastRel.lent d o o').Kin (stepsToIdle n s) (stepsToIdle n (s.after p)) := by
  induction n generalizing s p with
  | zero => exact ⟨p, rfl, h⟩
  | succ n ih =>
    by_cases hp : s.phase = .idle
    · rw [stepsToIdle, stepsToIdle, if_pos hp, if_pos (show (s.after p).phase = .idle from hp)]
      exact ⟨p, rfl, h⟩
    have hstep : Agree (PastRel.lent d o o').Kin (step s) (step (s.after p)) := by
      obtain ⟨hmem, -⟩ := id h
      rw [step_fetch hr, step_fetch (s := s.after p) hr]
      exact fetch_busy_forgets hp (SameBuffer.sameLoad hmem hinv (hreq hp)) h
    rw [stepsToIdle_goOn hp, stepsToIdle_goOn (s := s.after p) hp]
    refine hstep.goOn ?_
    rintro t _ ht ⟨q, rfl, hq⟩
    have hwire : WireStep s t := step_wire hp ht
    exact ih (step_resetLine hr ht) (step_inv hinv ht) (fun htp => (hwire.req htp).trans (hreq hp)) hq

/-- A request run in IDLE keeps the invariant. -/
theorem exec_request_inv {i : Instr} {s t : State} (hi : isRequest i = true) (hp : s.phase = .idle) (hinv : s.Inv)
    (h : exec i s = .next t) : t.Inv := by
  obtain ⟨hlegal, hmem, hfc, hph⟩ := State.inv_iff.1 hinv
  obtain ⟨-, hmem', hpar, -, -, hfc'⟩ := exec_request_frame hi h
  have hwf : t.fc.wf s.params := by
    rcases hfc' with hkept | hafter
    · exact hkept ▸ hfc
    · exact fcAfter_wf hfc hafter
  exact State.inv_iff.2 ⟨hpar ▸ hlegal, hmem' ▸ hmem, hpar ▸ hwf, ensures_iff.1 (exec_phaseInv hi hp hph) t h⟩

/-- An EXECUTE that is accepted has its descriptor latched (R67). -/
theorem exec_execute_req {d : Descriptor} {s t : State} (hp : s.phase = .idle) (h : exec (.execute d) s = .next t)
    (ht : t.phase ≠ .idle) : t.req = Request.ofDescriptor d := by
  have failed : ∀ f s, (State.fail f s).phase ≠ .idle → (State.fail f s).req = Request.ofDescriptor d :=
    fun f s hne => absurd (State.fail_phase f s) hne
  have latched : Ensures (fun t => t.phase ≠ .idle → t.req = Request.ofDescriptor d) (exec (.execute d) s) := by
    rw [exec_execute_idle hp]
    split_ifs
    · exact failed _ _
    · exact xferAdmit_ensures (fun _ _ _ => failed _ _) fun _ _ _ _ _ => rfl
    · exact fun _ => rfl
  exact ensures_iff.1 latched t h ht

theorem runOperation_lent {d : Descriptor} {o o' : Past} (n : Nat) {s : State} {p : Past} (hs : s.ready)
    (hinv : s.Inv) (h : (PastRel.lent d o o').rel s.past p) :
    Agree (PastRel.lent d o o').Kin (runOperation (.execute d) n s) (runOperation (.execute d) n (s.after p)) := by
  obtain ⟨hp, hr⟩ := hs
  rw [runOperation_goOn, runOperation_goOn]
  refine (exec_forgets _ s p h).goOn ?_
  rintro t _ ht ⟨q, rfl, hq⟩
  obtain ⟨-, -, -, ⟨-, hreset, -⟩, -⟩ := exec_request_frame (i := .execute d) rfl ht
  exact stepsToIdle_lent n (hreset.trans hr) (exec_request_inv rfl hp hinv ht) (exec_execute_req hp ht) hq

end Sys2Proof.Machine

namespace Sys2Proof

open Machine

/-- Settles O53: an EXECUTE reads no memory but the lent buffer, and no step reads the trace or the result registers. -/
theorem runForgetsPast : Obligations.RunForgetsPast := by
  refine ⟨fun d s s' n hs hinv hinv' hground => ?_, fun s r' w' n hr => ?_⟩
  · obtain ⟨hbuffer, heq⟩ := hground
    have hafter : s' = s.after s'.past := State.eq_after heq
    have hrun := runOperation_lent (d := d) (o := s.past) (o' := s'.past) n hs hinv
      (Past.since_start ⟨hinv.mem_wf, hinv'.mem_wf, hbuffer⟩ False.elim)
    rw [← hafter] at hrun
    refine hrun.mono ?_
    rintro t _ ⟨q, rfl, ⟨-, -, hlent⟩, -, hexchanged, hres⟩
    exact ⟨⟨hlent, rfl⟩, hexchanged, hres⟩
  · refine (steps_shown (o := s.past) (o' := { s.past with results := r', trace := w' }) n hr
      (Past.since_start rfl fun _ => rfl)).mono ?_
    rintro t _ ⟨⟨res, tr, m, po⟩, rfl, hmem, hport, ⟨run, hleft, hright⟩, hres⟩
    obtain rfl : t.mem = m := hmem
    obtain rfl : po = t.env.port := hport trivial
    exact ⟨run, hleft, hright, rfl, hres⟩

end Sys2Proof
end

section
/-! PROOFS. What a step of the sequencer runs: in IDLE the request at the port, in a wire phase the item that the phase
sends or that the byte just received completes; and the only faults it can meet. -/

namespace Sys2Proof.Machine

section

variable {s : State}

/-! ### The request at the port -/

/-- A request that decodes is run if its operands fit the port (R191, log entry 12). -/
theorem fetchRequest_of_decode {run : Run} {r : PortRequest} {i : Instr} (h : decodeRequest r = .ok i) :
    fetchRequest run r s = if i.wf s.params = true then run i s else .fault .operandTooWide := by
  rw [fetchRequest, h]

/-- With no request at the port CORE waits (R191, R231). -/
theorem step_wait (hs : s.ready) (hport : s.env.port = []) : step s = .next s := by
  rw [step_fetch hs.2, fetch_idle hs.1, hport]

/-! ### The only fault of a request -/

theorem availCredit_goesOn {k : Nat → State → Out} (hk : ∀ a u, GoesOn (k a u)) : GoesOn (availCredit s k) := by
  unfold availCredit
  split
  · exact hk _ _
  · trivial
  · exact hk _ _

theorem commitSendUnits_goesOn {n : Nat} {k : State → Out} (hk : ∀ u, GoesOn (k u)) :
    GoesOn (commitSendUnits n s k) := by
  unfold commitSendUnits
  split_ifs
  · exact hk _
  · exact rfl

theorem commitRecvBytes_goesOn {n : Nat} {k : State → Out} (hk : ∀ u, GoesOn (k u)) :
    GoesOn (commitRecvBytes n s k) := by
  unfold commitRecvBytes
  split_ifs
  · exact hk _
  · exact rfl

theorem atIdle_goesOn {k : State → Out} (hk : GoesOn (k s)) : GoesOn (atIdle s k) := by
  unfold atIdle
  split_ifs
  · exact hk
  · trivial

theorem xferAdmit_goesOn {k : Nat → State → Out} (hk : ∀ n u, GoesOn (k n u)) : GoesOn (xferAdmit s k) := by
  unfold xferAdmit
  split_ifs
  case neg =>
    refine availCredit_goesOn fun a u => ?_
    split_ifs
    · trivial
    · exact hk _ _
  all_goals trivial

theorem startXfer_goesOn (write multi : Bool) (x : XferArgs) : GoesOn (startXfer write multi x s) :=
  atIdle_goesOn (xferAdmit_goesOn fun _ _ => trivial)

theorem startDecode_goesOn (sel : Sel) : GoesOn (startDecode sel s) := atIdle_goesOn trivial

theorem reserve_goesOn (r : Request) (need : Nat) : GoesOn (reserve r need s) := by
  refine atIdle_goesOn ?_
  split_ifs
  · trivial
  · refine availCredit_goesOn fun a u => ?_
    split_ifs <;> trivial

/-- A request goes on or overflows a counter; it is the commits that can overflow one. -/
theorem exec_request_goesOn {i : Instr} (hi : isRequest i = true) : GoesOn (exec i s) := by
  cases i with
  | encode index arg =>
    rw [exec, execEncode]
    refine atIdle_goesOn ?_
    split_ifs
    · trivial
    · exact crcCall_goesOn fun _ => trivial
  | decodeNone => rw [exec, execDecodeNone]; exact atIdle_goesOn trivial
  | decodeR1 => exact startDecode_goesOn _
  | decodeR4 => exact startDecode_goesOn _
  | decodeR5 => exact startDecode_goesOn _
  | xferWrSingle x => exact startXfer_goesOn _ _ _
  | xferWrMulti x => exact startXfer_goesOn _ _ _
  | xferRdSingle x => exact startXfer_goesOn _ _ _
  | xferRdMulti x => exact startXfer_goesOn _ _ _
  | execute d =>
    rw [exec, execExecute]
    refine atIdle_goesOn ?_
    split_ifs
    · trivial
    · exact xferAdmit_goesOn fun _ _ => trivial
    · trivial
  | reserveSend n => exact reserve_goesOn _ _
  | reserveRecv n => exact reserve_goesOn _ _
  | commitSend n =>
    rw [exec, execCommitSend]
    refine atIdle_goesOn ?_
    split_ifs
    · trivial
    · exact commitSendUnits_goesOn fun _ => trivial
  | commitRecv n =>
    rw [exec, execCommitRecv]
    refine atIdle_goesOn ?_
    split_ifs
    · trivial
    · exact commitRecvBytes_goesOn fun _ => trivial
  | fcReset => rw [exec, execFcReset]; exact atIdle_goesOn trivial
  | config bs bk =>
    rw [exec, execConfig]
    refine atIdle_goesOn ?_
    split_ifs <;> trivial
  | reservedAB b => rw [exec, execReservedAB]; exact atIdle_goesOn trivial
  | reservedCF c => rw [exec, execReservedCF]; exact atIdle_goesOn trivial
  | cmdFrame | idle | tokStartSingle | tokStartMultiWr | tokStop | dataBlock | dataResp | rspR1 | rspR4 | rspR5 =>
    exact Bool.noConfusion hi

/-- In IDLE a step goes on, overflows a counter or meets an operand too wide for the port. -/
theorem step_idle_outcome (hs : s.ready) : GoesOn (step s) ∨ step s = .fault .operandTooWide := by
  cases hport : s.env.port with
  | nil => exact .inl (goesOn_of_next (step_wait hs hport))
  | cons r rest =>
    rw [step_request hs hport]
    cases hdecode : decodeRequest r with
    | error e =>
      rw [fetchRequest, hdecode]
      exact .inl trivial
    | ok i =>
      rw [fetchRequest_of_decode hdecode]
      split_ifs
      · exact .inl (exec_request_goesOn (decodeRequest_isRequest hdecode))
      · exact .inr rfl

end

end Sys2Proof.Machine

namespace Sys2Proof

open Machine

/-- Settles O9: outside IDLE a request waits, and no row of R186 takes one from the port. -/
theorem requestsWaitOutsideIdle : Obligations.RequestsWaitOutsideIdle := by
  refine fun s hp => ⟨fun i hi => exec_request_busy hi hp, fun t ht => ?_⟩
  obtain ⟨hport, -⟩ := (step_wire hp ht).moved
  exact hport

/-- Settles O58: in IDLE it is the request that can fault, outside it the commit of a block. -/
theorem noOtherFault : Obligations.NoOtherFault := by
  intro s hinv hr
  by_cases hp : s.phase = .idle
  · rcases step_idle_outcome ⟨hp, hr⟩ with hgo | hwide
    · exact hgo.cases.imp_right .inl
    · exact .inr (.inr ⟨hp, hwide⟩)
  · exact (step_busy_outcome hinv hr hp).imp_right .inl

/-- Settles O4: the three things that IDLE can find at the port. -/
theorem stepRunsRequest : Obligations.StepRunsRequest := by
  refine fun s hs => ⟨step_wait hs, fun r rest i hport hdecode => ?_⟩
  rw [step_request hs hport, fetchRequest_of_decode hdecode]
  exact ⟨fun hfits => if_pos hfits, fun hwide => if_neg (ne_true_of_eq_false hwide)⟩

end Sys2Proof
end

section
/-! PROOFS. What a step in a wire phase runs: the item that the phase sends, or the item that the byte just received
completes. -/

namespace Sys2Proof.Machine

section

variable {s : State} {b : Byte} {rest : List WireAnswer}

/-! ### The items sent -/

/-- Both CRC bytes are bytes of the held block (R132); `crc16` is called with the first (log entry 8). -/
theorem step_crc_block {j : Nat} {low : Bool} (hr : s.env.resetLine = false) (hp : s.phase = .wCrc j low)
    (hcrc : s.crcSound) : step s = exec s.heldBlock s := by
  rw [step_fetch hr]
  cases low with
  | false => rw [fetch_crcHigh hp, crcCall_sound hcrc]
  | true => rw [fetch_crcLow hp]

/-! ### The items received -/

/-- A pull whose answer is known (R15). -/
theorem pull_exchanged {k : Byte → State → Out} (h : s.env.slave = .byte b :: rest) :
    pull s k = k b (s.exchanged Config.idleByte b rest) := pull_byte h

theorem received_idle {run : Run} (hb : b = Config.idleByte) : received .idle [b] run s = run .idle s :=
  received_of_decode (if_pos hb)

/-- In the window an idle byte is an IDLE, any other the marker, which is all of an R1 (R110, R112). -/
theorem step_scan {k : Nat} (hr : s.env.resetLine = false) (hp : s.phase = .rspScan k) (hk : k < s.req.scanBound)
    (h : s.env.slave = .byte b :: rest) :
    step s =
      if b = Config.idleByte then exec .idle (s.exchanged Config.idleByte b rest)
      else if s.req.sel = .r1 then exec (.rspR1 b) (s.exchanged Config.idleByte b rest)
      else .next { s.exchanged Config.idleByte b rest with
        resp := [b], phase := .rspRest (rspLen s.req.sel - 1) } := by
  by_cases hb : b = Config.idleByte
  · rw [if_pos hb, step_fetch hr, fetch_scan hp, fetchScan, if_neg (Nat.not_le.2 hk), pull_exchanged h, if_pos hb,
      received_idle hb]
  · rw [if_neg hb, step_scan_marker_held (bs := []) hr hp hk hb h, Request.afterMarker]
    split_ifs
    · exact (execRspR1_scan (s := s.exchanged Config.idleByte b rest) hp).symm
    · rfl

/-- The last byte of a response with bytes after its marker completes it (R113, R114). -/
theorem step_rest_completes {i : Instr} (hr : s.env.resetLine = false) (hp : s.phase = .rspRest 1)
    (hi : decodeWire (restFormat s.req.sel) (s.resp ++ [b]) = .ok i) (h : s.env.slave = .byte b :: rest) :
    step s = exec i (s.exchanged Config.idleByte b rest) := by
  rw [step_fetch hr, fetch_rest hp, fetchRest, pull_exchanged h, if_pos le_rfl]
  exact received_of_decode hi

/-- A poll of a wait of the write path (R131, R133). -/
theorem fetchWait_exchanged {p : Nat} {again : Phase} (h : s.env.slave = .byte b :: rest) :
    fetchWait exec (p + 1) again s =
      if b = Config.idleByte then exec .idle (s.exchanged Config.idleByte b rest)
      else .next { s.exchanged Config.idleByte b rest with phase := again } := by
  rw [fetchWait, if_neg (Nat.succ_ne_zero p), pull_exchanged h]
  split_ifs with hb
  · exact received_idle hb
  · rfl

theorem step_ready {p : Nat} (hr : s.env.resetLine = false) (hp : s.phase = .wReady (p + 1))
    (h : s.env.slave = .byte b :: rest) :
    step s = if b = Config.idleByte then exec .idle (s.exchanged Config.idleByte b rest)
      else .next { s.exchanged Config.idleByte b rest with phase := .wReady p } := by
  rw [step_fetch hr, fetch_ready hp, fetchWait_exchanged h, Nat.add_sub_cancel]

theorem step_busy {p : Nat} (hr : s.env.resetLine = false) (hp : s.phase = .wBusy (p + 1))
    (h : s.env.slave = .byte b :: rest) :
    step s = if b = Config.idleByte then exec .idle (s.exchanged Config.idleByte b rest)
      else .next { s.exchanged Config.idleByte b rest with phase := .wBusy p } := by
  rw [step_fetch hr, fetch_busy hp, fetchWait_exchanged h, Nat.add_sub_cancel]

/-- Whatever its value, the byte after a block is a data response (R78). -/
theorem step_dataResp {j : Nat} (hr : s.env.resetLine = false) (hp : s.phase = .wDresp j)
    (h : s.env.slave = .byte b :: rest) : step s = exec (.dataResp b) (s.exchanged Config.idleByte b rest) := by
  rw [step_fetch hr, fetch_dresp hp, pull_exchanged h]
  rfl

/-- A poll for the start token (R87, R134). -/
theorem step_poll {j p : Nat} (hr : s.env.resetLine = false) (hp : s.phase = .rPoll j (p + 1))
    (h : s.env.slave = .byte b :: rest) :
    step s =
      if b = Config.tokStartSingleByte then exec .tokStartSingle (s.exchanged Config.idleByte b rest)
      else if b = Config.idleByte then exec .idle (s.exchanged Config.idleByte b rest)
      else .next { s.exchanged Config.idleByte b rest with phase := .rPoll j p } := by
  rw [step_fetch hr, fetch_poll hp, fetchPoll, if_neg (Nat.succ_ne_zero p), pull_exchanged h]
  split_ifs with hstart hidle
  · exact received_of_decode (if_pos hstart)
  · exact received_idle hidle
  · rfl

end

end Sys2Proof.Machine

namespace Sys2Proof

open Machine

/-- Settles O5, phase by phase: first the items that CORE sends, then those that a received byte completes. -/
theorem stepRunsWireItem : Obligations.StepRunsWireItem := by
  refine fun s hr => ⟨fun hp hcrc => ?_, fun hp => ?_, fun j hp => ?_, fun j i hp => ?_,
    fun j low hp hcrc => step_crc_block hr hp hcrc, fun hp => ?_, fun b rest hb => ?_⟩
  · rw [step_fetch hr, fetch_frame hp, crcCall_sound hcrc]
    rfl
  · rw [step_fetch hr, fetch_token hp]
  · rw [step_fetch hr, fetch_data_first hp]
    rfl
  · rw [step_fetch hr, fetch_data_next hp]
    rfl
  · rw [step_fetch hr, fetch_stop hp]
  · refine ⟨fun k hp hk => step_scan hr hp hk hb, fun m p1 p2 p3 hp hm => ⟨fun hsel hresp => ?_, fun hsel hresp => ?_⟩,
      fun r hp => step_rest_more (bs := []) hr hp hb, fun p hp => step_ready hr hp hb, fun p hp => step_busy hr hp hb,
      fun j hp => step_dataResp hr hp hb, fun j p hp => step_poll hr hp hb,
      fun j i hp => step_payload (bs := []) hr hp hb, fun j hp => step_readHigh (bs := []) hr hp hb,
      fun j hp hpos hmax => step_readLow hr hp rfl rfl hpos hmax hb⟩
    · exact step_rest_completes hr hp (by rw [hsel, hresp]; exact if_neg hm) hb
    · exact step_rest_completes hr hp (by rw [hsel, hresp]; exact if_neg hm) hb

end Sys2Proof
end

section
/-! PROOFS. The wire bytes of one operation: no step lets the bytes exchanged and those that `wireLeft` still allows
grow together. -/

namespace Sys2Proof.Machine

/-- The bytes exchanged so far and the most that the running operation can still exchange. -/
def State.wireTotal (s : State) : Nat := s.trace.length + s.wireLeft

/-! ### Where a completed part of an operation leads -/

section

variable {s : State} {j : Nat}

theorem State.writeBytes_succ (hj : j < s.bx.nblocks) :
    s.writeBytes j = s.req.blockLength + 3 + s.writeBytes (j + 1) := by
  have hblocks : s.bx.nblocks - j = s.bx.nblocks - (j + 1) + 1 := by omega
  rw [State.writeBytes, State.writeBytes, hblocks, Nat.succ_mul]
  omega

theorem State.readBytes_succ (hj : j < s.bx.nblocks) :
    s.readBytes j = s.req.timeout + s.req.blockLength + 2 + s.readBytes (j + 1) := by
  have hblocks : s.bx.nblocks - j = s.bx.nblocks - (j + 1) + 1 := by omega
  rw [State.readBytes, State.readBytes, hblocks, Nat.succ_mul]
  omega

theorem State.wireLeft_afterWrite (hp : s.phase = s.afterWrite j) : s.wireLeft ≤ s.writeBytes (j + 1) := by
  rw [State.afterWrite] at hp
  split_ifs at hp with hnext hmulti
  · rw [State.wireLeft, hp, State.writeBytes_succ hnext]
    exact le_rfl
  · simp only [State.wireLeft, hp, State.writeBytes, if_pos hmulti]
    exact Nat.le_add_left _ _
  · simp only [State.wireLeft, hp]
    exact Nat.zero_le _

theorem State.wireLeft_afterRead (hp : s.phase = s.afterRead j) : s.wireLeft ≤ s.readBytes (j + 1) := by
  rw [State.afterRead] at hp
  split_ifs at hp with hnext
  · rw [State.wireLeft, hp, State.readBytes_succ hnext]
  · simp only [State.wireLeft, hp]
    exact Nat.zero_le _

/-- After a response only the bytes of the data phase are left, those of an admitted one where there is one. -/
theorem State.wireLeft_afterResponse (hp : s.phase = s.req.afterResponse) (hb : s.beforeData) :
    s.wireLeft ≤ s.dataBytes := by
  obtain ⟨-, hop⟩ := hb
  unfold Request.afterResponse at hp
  unfold State.dataBytes
  cases op : s.req.op
  case execute =>
    simp only [op] at hop hp ⊢
    obtain ⟨-, hadmitted⟩ := hop
    unfold Request.dataStart at hp
    split_ifs at hp ⊢ with hdata hwrite
    · rw [State.wireLeft, hp]
    · obtain ⟨-, -, -, -, hn, -⟩ := hadmitted hdata
      rw [State.wireLeft, hp, State.readBytes_succ hn]
    · rw [State.wireLeft, hp]
  all_goals
    simp only [op] at hp
    simp only [State.wireLeft, hp, le_refl]

/-- After the frame the response window is left, where a response is expected, and the data phase. -/
theorem State.wireLeft_afterFrame (hp : s.phase = s.req.afterFrame) (hb : s.beforeData) :
    s.wireLeft ≤ s.req.scanBound + 4 + s.dataBytes := by
  unfold Request.afterFrame at hp
  split at hp
  · exact (State.wireLeft_afterResponse hp hb).trans (Nat.le_add_left _ _)
  · rw [State.wireLeft, hp]
    exact le_rfl

end

/-! ### What a step exchanges -/

theorem State.wireTotal_of_exchanges {s t : State} {w : List (Byte × Byte)} (ht : t.trace = s.trace ++ w)
    (hl : w.length + t.wireLeft ≤ s.wireLeft) : t.wireTotal ≤ s.wireTotal := by
  rw [State.wireTotal, State.wireTotal, ht, List.length_append, Nat.add_assoc]
  exact Nat.add_le_add_left hl _

theorem State.wireTotal_of_silence {s t : State} (ht : t.trace = s.trace) (hl : t.wireLeft ≤ s.wireLeft) :
    t.wireTotal ≤ s.wireTotal :=
  State.wireTotal_of_exchanges (ht.trans (List.append_nil _).symm) (by rwa [List.length_nil, Nat.zero_add])

theorem State.wireTotal_of_exchange {s t : State} {x : Byte × Byte} (ht : t.trace = s.trace ++ [x])
    (hl : t.wireLeft < s.wireLeft) : t.wireTotal ≤ s.wireTotal :=
  State.wireTotal_of_exchanges ht (by rw [List.length_singleton]; omega)

/-- A failure exchanges the byte of a phase that still had it to exchange, or none (R132, R135, R211). -/
theorem State.wireTotal_of_failure {s : State} {f : OpOutcome} {e : Env} {w : List (Byte × Byte)}
    (hw : w = [] ∨ ∃ b, w = [(Config.idleByte, b)] ∧ ((∃ j, s.phase = .wDresp j) ∨ ∃ j, s.phase = .rCrc j true)) :
    (State.fail f { s with env := e, trace := s.trace ++ w }).wireTotal ≤ s.wireTotal := by
  have htrace := State.fail_trace f { s with env := e, trace := s.trace ++ w }
  have hleft : (State.fail f { s with env := e, trace := s.trace ++ w }).wireLeft = 0 := by
    rw [State.wireLeft, State.fail_phase]
  rcases hw with rfl | ⟨b, rfl, hp⟩
  · exact State.wireTotal_of_silence (htrace.trans (List.append_nil _)) (hleft ▸ Nat.zero_le _)
  · refine State.wireTotal_of_exchange htrace ?_
    rw [hleft]
    rcases hp with ⟨j, hp⟩ | ⟨j, hp⟩
    · simp only [State.wireLeft, hp]
      omega
    · simp only [State.wireLeft, hp]
      omega

/-- Every row of R186 uses up the bytes it exchanges. -/
theorem WireStep.wireTotal_le {s t : State} (hs : s.phaseInv) (h : WireStep s t) : t.wireTotal ≤ s.wireTotal := by
  unfold State.phaseInv at hs
  cases h with
  | fails f e w _ _ hw => exact State.wireTotal_of_failure hw
  | frame e rx _ hph hlen =>
    rw [hph] at hs
    obtain ⟨-, hb, -⟩ := hs
    have hzip : ((encodeFrame s.params s.req.index s.req.arg).zip rx).length ≤ Config.frameLen := by
      rw [List.length_zip, hlen]
      exact Nat.min_le_right _ _
    refine State.wireTotal_of_exchanges rfl (le_trans (Nat.add_le_add hzip (State.wireLeft_afterFrame rfl hb)) ?_)
    show Config.frameLen + (s.req.scanBound + 4 + s.dataBytes) ≤ _
    simp only [State.wireLeft, hph]
    omega
  | scanIdle k e _ hph hk =>
    refine State.wireTotal_of_exchange rfl ?_
    show s.req.scanBound - (k + 1) + 4 + s.dataBytes < _
    simp only [State.wireLeft, hph]
    omega
  | scanMarker k e b _ hph hk _ =>
    refine State.wireTotal_of_exchange rfl ?_
    have hlen := rspLen_le s.req.sel
    simp only [State.wireLeft, hph]
    split_ifs
    · show s.dataBytes < _
      omega
    · show rspLen s.req.sel - 1 + s.dataBytes < _
      omega
  | rest r e b _ hph =>
    rw [hph] at hs
    obtain ⟨hb, -, hr, -⟩ := hs
    refine State.wireTotal_of_exchange rfl ?_
    by_cases hlast : r ≤ 1
    · refine lt_of_le_of_lt (State.wireLeft_afterResponse (if_pos hlast) hb) ?_
      show s.dataBytes < _
      simp only [State.wireLeft, hph]
      omega
    · rw [if_neg hlast]
      show r - 1 + s.dataBytes < _
      simp only [State.wireLeft, hph]
      omega
  | status hph _ =>
    rw [hph] at hs
    obtain ⟨hb, -⟩ := hs
    refine State.wireTotal_of_silence rfl (le_trans (State.wireLeft_afterResponse rfl hb) ?_)
    simp only [State.wireLeft, hph]
    exact le_rfl
  | ready p e b _ hph hpos =>
    refine State.wireTotal_of_exchange rfl ?_
    simp only [State.wireLeft, hph]
    split_ifs
    · show 1 + s.writeBytes 0 < _
      omega
    · show p - 1 + 1 + s.writeBytes 0 < _
      omega
  | token e x b _ hph =>
    rw [hph] at hs
    obtain ⟨⟨-, -, -, -, hn, -⟩, -⟩ := hs
    refine State.wireTotal_of_exchange rfl ?_
    show s.req.blockLength - 0 + 3 + s.writeBytes (0 + 1) < _
    simp only [State.wireLeft, hph, State.writeBytes_succ hn]
    omega
  | data j i h e x b _ hph _ =>
    rw [hph] at hs
    obtain ⟨-, -, hi, -⟩ := hs
    refine State.wireTotal_of_exchange rfl ?_
    simp only [State.wireLeft, hph]
    split_ifs
    · show s.req.blockLength - (i + 1) + 3 + s.writeBytes (j + 1) < _
      omega
    · show 3 + s.writeBytes (j + 1) < _
      omega
  | crc j low e x b _ hph =>
    refine State.wireTotal_of_exchange rfl ?_
    cases low with
    | false =>
      show 2 + s.writeBytes (j + 1) < _
      simp only [State.wireLeft, hph]
      omega
    | true =>
      show 1 + s.writeBytes (j + 1) < _
      simp only [State.wireLeft, hph]
      omega
  | accepted j e b _ hph _ _ =>
    refine State.wireTotal_of_exchange rfl (lt_of_le_of_lt (State.wireLeft_afterWrite (j := j) rfl) ?_)
    show s.writeBytes (j + 1) < _
    simp only [State.wireLeft, hph]
    omega
  | stop e b _ hph =>
    refine State.wireTotal_of_exchange rfl ?_
    show s.req.timeout < _
    simp only [State.wireLeft, hph]
    omega
  | busy p e b _ hph hpos =>
    refine State.wireTotal_of_exchange rfl ?_
    simp only [State.wireLeft, hph]
    split_ifs
    · exact hpos
    · show p - 1 < _
      omega
  | poll j p e b _ hph hpos _ =>
    refine State.wireTotal_of_exchange rfl ?_
    show p - 1 + s.req.blockLength + 2 + s.readBytes (j + 1) < _
    simp only [State.wireLeft, hph]
    omega
  | start j p e _ hph hpos =>
    refine State.wireTotal_of_exchange rfl ?_
    show s.req.blockLength - 0 + 2 + s.readBytes (j + 1) < _
    simp only [State.wireLeft, hph]
    omega
  | payload j i e b _ hph =>
    rw [hph] at hs
    obtain ⟨-, -, hi, -⟩ := hs
    refine State.wireTotal_of_exchange rfl ?_
    simp only [State.wireLeft, hph]
    split_ifs
    · show s.req.blockLength - (i + 1) + 2 + s.readBytes (j + 1) < _
      omega
    · show 2 + s.readBytes (j + 1) < _
      omega
  | crcHigh j e b _ hph =>
    refine State.wireTotal_of_exchange rfl ?_
    show 1 + s.readBytes (j + 1) < _
    simp only [State.wireLeft, hph]
    omega
  | matched j e b _ hph _ _ =>
    refine State.wireTotal_of_exchange rfl (lt_of_le_of_lt (State.wireLeft_afterRead (j := j) rfl) ?_)
    show s.readBytes (j + 1) < _
    simp only [State.wireLeft, hph]
    omega
  | done hph => exact State.wireTotal_of_silence rfl (Nat.zero_le _)

/-! ### A run with no further request at the port -/

/-- What every step keeps in a run that no further request joins: at most `n` bytes have been exchanged in the end. -/
def State.StaysWithin (n : Nat) (s : State) : Prop :=
  s.Inv ∧ s.env.resetLine = false ∧ s.env.port = [] ∧ s.wireTotal ≤ n

theorem step_staysWithin {n : Nat} {s t : State} (hs : s.StaysWithin n) (h : step s = .next t) : t.StaysWithin n := by
  obtain ⟨hinv, hr, hport, hn⟩ := hs
  by_cases hp : s.phase = .idle
  · rw [step_wait ⟨hp, hr⟩ hport] at h
    injection h with h
    exact h ▸ ⟨hinv, hr, hport, hn⟩
  · have hwire : WireStep s t := step_wire hp h
    obtain ⟨hport', hr', -⟩ := hwire.moved
    exact ⟨step_inv hinv h, hr'.trans hr, hport'.trans hport, (hwire.wireTotal_le hinv.phaseInv).trans hn⟩

/-- What every step keeps, every run keeps. -/
theorem steps_keeps {P : State → Prop} (hstep : ∀ {s t}, P s → step s = .next t → P t) {k : Nat} {s t : State}
    (hs : P s) (h : steps k s = .next t) : P t := by
  induction k generalizing s with
  | zero =>
    injection h with h
    exact h ▸ hs
  | succ k ih =>
    rw [steps] at h
    split at h
    · next u hfirst => exact ih (hstep hs hfirst) h
    · cases h
    · cases h

/-- The number that R190 gives for an EXECUTE of either direction, from its frame on. -/
theorem State.wireLeft_frame_le {s : State} (hp : s.phase = .frame) (hop : s.req.op = .execute) :
    s.wireLeft ≤
      if s.req.flags.write = true then
        6 + (min 8 s.req.timeout + 4) + s.req.timeout + 1 + s.bx.nblocks * (s.req.blockLength + 3) + 1 + s.req.timeout
      else 6 + (min 8 s.req.timeout + 4) + s.bx.nblocks * (s.req.timeout + s.req.blockLength + 2) := by
  have hbound : s.req.scanBound = min 8 s.req.timeout := Request.scanBound_of_op (.inr ⟨hop, rfl⟩)
  simp only [State.wireLeft, hp, hbound, Config.frameLen, State.dataBytes, hop, State.writeBytes, State.readBytes,
    Nat.sub_zero]
  split_ifs <;> omega

end Sys2Proof.Machine

namespace Sys2Proof

open Machine

/-- Settles O60: every step uses up the bytes it exchanges, and the frame starts with the number that R190 gives. -/
theorem wireBudget : Obligations.WireBudget := by
  intro s t k hinv hr hp hport h
  have hframe : s.req.op = .execute := by
    have hphase := hinv.phaseInv
    rw [State.phaseInv, hp] at hphase
    obtain ⟨hop, -⟩ := hphase
    exact hop
  obtain ⟨-, -, -, htotal⟩ := steps_keeps step_staysWithin ⟨hinv, hr, hport, le_rfl⟩ h
  calc t.trace.length
    _ ≤ t.wireTotal := Nat.le_add_right _ _
    _ ≤ s.trace.length + s.wireLeft := htotal
    _ ≤ _ := Nat.add_le_add_left (State.wireLeft_frame_le hp hframe) _

end Sys2Proof
end

section
/-! PROOFS. The refusals of a data phase for the size of its blocks and for want of credit (R206, R207), which TRANSFER
and EXECUTE share in the admission of the latched request. -/

namespace Sys2Proof.Machine

/-- A failure ends the operation with its own outcome and no other (R211). -/
theorem State.fail_failedWith_iff {f g : OpOutcome} {s : State} : (s.fail f).failedWith g ↔ f = g := by
  refine ⟨fun h => ?_, fun h => h ▸ State.fail_failedWith f s⟩
  obtain ⟨-, hg, -⟩ := h
  obtain ⟨-, hf, -⟩ := State.fail_failedWith f s
  exact Option.some.inj (congrArg Results.outcome (hf.symm.trans hg))

/-! ### What A2 and A5 refuse (R126) -/

/-- What A2 compares exceeds a size where the block length does, or where the data of a single-block transfer does
(R126). -/
theorem Request.lt_payload_iff (r : Request) {size : Nat} :
    size < r.payload ↔ size < r.blockLength ∨ (r.flags.multi = false ∧ size < r.dataLen) := by
  unfold Request.payload
  cases r.flags.multi <;> simp

section

variable {s : State} {r : Request} {n a : Nat} {rest : List CreditAnswer} {k : Nat → State → Out}

/-- A block too large is refused at A2, with the operands that A1 accepts (R206). -/
theorem xferAdmit_tooLarge (hp : s.phase = .idle) (hbuf : r.buf ≠ none) (hlen : r.blockLength ≠ 0)
    (hlarge : 512 < r.payload) :
    xferAdmit (s.latch r) k = .next (s.endOperation (Results.only .blockTooLarge)) := by
  rw [xferAdmit_latch hp, if_neg (not_or_intro hbuf hlen)]
  exact if_pos hlarge

/-- Only A2 refuses with BlockTooLarge (R206). -/
theorem xferAdmit_not_tooLarge (hsmall : ¬512 < s.req.payload)
    (hk : ∀ n u, Ensures (fun t => ¬t.failedWith .blockTooLarge) (k n u)) :
    Ensures (fun t => ¬t.failedWith .blockTooLarge) (xferAdmit s k) := by
  have other : ∀ (f : OpOutcome) (u : State), f ≠ .blockTooLarge → ¬(u.fail f).failedWith .blockTooLarge :=
    fun f u hf h => hf (State.fail_failedWith_iff.1 h)
  unfold xferAdmit
  split_ifs with hnull hlarge
  · exact other _ s OpOutcome.noConfusion
  · exact absurd hlarge hsmall
  · exact other _ s OpOutcome.noConfusion
  · exact other _ s OpOutcome.noConfusion
  · refine availCredit_ensures (fun _ _ => other _ _ OpOutcome.noConfusion) fun a cs d => ?_
    dsimp only
    split_ifs
    · exact other _ _ OpOutcome.noConfusion
    · exact hk _ _

/-- What R206 says of an admission whose operands A1 accepts. -/
theorem xferAdmit_blockTooLarge (hp : s.phase = .idle) (hbuf : r.buf ≠ none) (hlen : r.blockLength ≠ 0)
    (hk : ∀ n u, Ensures (fun t => ¬t.failedWith .blockTooLarge) (k n u)) :
    ((512 < r.blockLength ∨ (r.flags.multi = false ∧ 512 < r.dataLen)) →
      xferAdmit (s.latch r) k = .next (s.endOperation (Results.only .blockTooLarge))) ∧
    (r.blockLength ≤ 512 → (r.flags.multi = true ∨ r.dataLen ≤ 512) →
      ∀ t, xferAdmit (s.latch r) k = .next t → ¬t.failedWith .blockTooLarge) := by
  refine ⟨fun hlarge => xferAdmit_tooLarge hp hbuf hlen (r.lt_payload_iff.2 hlarge), fun hbl hdata => ?_⟩
  have hsmall : ¬512 < r.payload := by
    rw [r.lt_payload_iff]
    rintro (h | ⟨hsingle, h⟩)
    · exact absurd hbl (Nat.not_le.2 h)
    · rcases hdata with hmulti | hle
      · exact Bool.noConfusion (hmulti.symm.trans hsingle)
      · exact absurd hle (Nat.not_le.2 h)
  exact ensures_iff.1 (xferAdmit_not_tooLarge (s := s.latch r) hsmall hk)

/-- With legal geometry of `n` blocks and CORE configured, less credit than A5 reserves is refused (R207). -/
theorem xferAdmit_short (hp : s.phase = .idle) (h : r.xferArgs.blocks r.flags.multi n) (hc : s.fc.configured = true)
    (hcredit : s.creditIs a rest) (hneed : a < s.fc.need r.flags.write n r.blockLength) :
    xferAdmit (s.latch r) k = .next ((s.creditTaken rest).endOperation (Results.only .insufficientCredit)) := by
  obtain ⟨hbuf, hpos, -⟩ := id h
  have hlent : ¬(r.buf = none ∨ r.blockLength = 0) := not_or_intro hbuf (Nat.one_le_iff_ne_zero.1 hpos)
  rw [← Request.creditNeed_of_blocks s.fc h] at hneed
  rw [xferAdmit_latch hp, if_neg hlent, if_neg (Nat.not_lt.2 (Request.payload_le h)),
    if_neg (Request.not_badGeometry h), if_neg (by simp [hc])]
  obtain ⟨hrefused, -⟩ := availCredit_refuses (r := r) (k := k) hp
  exact hrefused a rest hcredit hneed

end

/-! ### The requests that are admitted -/

/-- TRANSFER in IDLE is the admission of its latched request, then the first wait (R139). -/
theorem exec_xferInstr_idle {write multi : Bool} {x : XferArgs} {s : State} (hp : s.phase = .idle) :
    exec (xferInstr write multi x) s =
      xferAdmit (s.latch (Request.ofXfer write multi x)) fun n s => .next ((s.startBlocks n).goto s.req.dataStart) := by
  rw [exec_xferInstr, startXfer, atIdle_idle hp]

/-- A consistent EXECUTE with data that lends a buffer passes VALIDATE: in IDLE it is the admission of its latched
request, then the frame (R167). -/
theorem exec_execute_data {d : Descriptor} {s : State} (hp : s.phase = .idle) (hd : d.consistent)
    (hdata : d.flags.data = true) (hbuf : d.buf ≠ none) (hlen : d.blockLength ≠ 0) :
    exec (.execute d) s =
      xferAdmit (s.latch (Request.ofDescriptor d)) fun n s => .next ((s.startBlocks n).goto .frame) := by
  have hvalid : ¬(Request.ofDescriptor d).invalidDescriptor = true := fun hbad =>
    not_or_intro hbuf hlen ((Descriptor.invalid_iff_of_consistent hd hdata).1 hbad)
  rw [exec_execute_idle hp, if_neg hvalid, if_pos hdata]

end Sys2Proof.Machine

namespace Sys2Proof

open Machine

/-- Settles O34: A2 alone refuses so, and an admitted request has left IDLE. -/
theorem blockTooLarge : Obligations.BlockTooLarge := by
  refine ⟨fun write multi x s hp hbuf hlen => ?_, fun d s hp hd hdata hbuf hlen => ?_⟩
  · rw [exec_xferInstr_idle hp]
    refine xferAdmit_blockTooLarge (r := Request.ofXfer write multi x) hp hbuf hlen fun n u => ?_
    rintro ⟨hidle, -⟩
    exact Request.dataStart_ne_idle _ hidle
  · rw [exec_execute_data hp hd hdata hbuf hlen]
    refine xferAdmit_blockTooLarge (r := Request.ofDescriptor d) hp hbuf hlen fun n u => ?_
    rintro ⟨hidle, -⟩
    exact Phase.noConfusion hidle

/-- Settles O35: the two reserves compare their need with the sample, and A5 that of a data phase. -/
theorem insufficientCredit : Obligations.InsufficientCredit := by
  intro s a rest hp hc hcredit
  refine ⟨fun n hneed => reserve_short hp hc hcredit hneed, fun n hneed => reserve_short hp hc hcredit hneed,
    fun write multi x n hblocks hneed => ?_, fun d n hd hdata hblocks hneed => ?_⟩
  · exact (exec_xferInstr_idle hp).trans
      (xferAdmit_short (r := Request.ofXfer write multi x) hp hblocks hc hcredit hneed)
  · obtain ⟨hbuf, hpos, -⟩ := id hblocks
    exact (exec_execute_data hp hd hdata hbuf (Nat.one_le_iff_ne_zero.1 hpos)).trans
      (xferAdmit_short (r := Request.ofDescriptor d) hp hblocks hc hcredit hneed)

end Sys2Proof
end

section
/-! PROOFS. The status check of an EXECUTE (R170), and that no other step ends with StatusError. -/

namespace Sys2Proof.Machine

/-! ### Which steps write the result registers -/

/-- A request that is refused meets an early failure; one that is accepted leaves the result registers. -/
theorem RequestStep.results {i : Instr} {s t : State} (h : RequestStep i s t) :
    t.results = s.results ∨ ∃ f, f.early = true ∧ t.failedWith f := by
  cases h with
  | refused f e _ hf => exact .inr ⟨f, hf, State.fail_failedWith f _⟩
  | accepted r bx p fc e _ _ _ => exact .inl rfl

/-- A step in IDLE leaves the result registers, or refuses a request with an early failure. -/
theorem step_idle_results {s t : State} (hp : s.phase = .idle) (hr : s.env.resetLine = false) (h : step s = .next t) :
    t.results = s.results ∨ ∃ f, f.early = true ∧ t.failedWith f := by
  rcases step_idle hp hr h with ⟨-, rfl⟩ | ⟨r, rest, -, ⟨f, hf, rfl⟩ | ⟨i, -, hreq⟩⟩
  · exact .inl rfl
  · exact .inr ⟨f, hf, State.fail_failedWith f _⟩
  · exact hreq.results

/-- Of the rows of R186 only those that end the operation write the result registers (R22, R172). -/
theorem WireStep.results_kept {s t : State} (h : WireStep s t) (ht : t.phase ≠ .idle) : t.results = s.results := by
  cases h with
  | fails f e w _ _ _ =>
    obtain ⟨hidle, -⟩ := State.fail_failedWith f { s with env := e, trace := s.trace ++ w }
    exact absurd hidle ht
  | done _ => exact absurd rfl ht
  | _ => rfl

/-- An operation that succeeds answers Success or Ok (R172). -/
theorem State.successResults_outcome (s : State) :
    s.successResults.outcome = some .success ∨ s.successResults.outcome = some .ok := by
  unfold State.successResults
  cases s.req.op
  case encode | decode | transfer | execute => exact .inl rfl
  all_goals exact .inr rfl

/-! ### Where StatusError comes from (R170, R208) -/

/-- A step outside IDLE that writes the outcome StatusError is the status check of an EXECUTE on a fatal byte. -/
theorem WireStep.statusError {s t : State} {bits : Byte} (h : WireStep s t)
    (hout : t.results.outcome = some (.statusError bits)) (hnew : t.results ≠ s.results) :
    s.failsWith (.statusError bits) ∧ t.failedWith (.statusError bits) := by
  have ht : t.phase = .idle := by
    by_contra hbusy
    exact hnew (h.results_kept hbusy)
  rcases h.ends ht with ⟨-, rfl⟩ | ⟨f, e, w, -, hf, rfl⟩
  · rcases s.successResults_outcome with hs | hs <;> exact absurd (hs.symm.trans hout) (by simp)
  · have hfail := State.fail_failedWith f { s with env := e, trace := s.trace ++ w }
    obtain ⟨-, hres, -⟩ := id hfail
    rw [hres] at hout
    obtain rfl : f = .statusError bits := Option.some.inj hout
    exact ⟨hf, hfail⟩

/-- A step in IDLE never writes the outcome StatusError: no request meets it before its first wire byte. -/
theorem step_idle_not_statusError {s t : State} {bits : Byte} (hp : s.phase = .idle) (hr : s.env.resetLine = false)
    (h : step s = .next t) (hnew : t.results ≠ s.results) : t.results.outcome ≠ some (.statusError bits) := by
  rcases step_idle_results hp hr h with hkept | ⟨f, hf, -, hres, -⟩
  · exact absurd hkept hnew
  · rw [hres]
    intro hout
    obtain rfl : f = .statusError bits := Option.some.inj hout
    exact Bool.noConfusion hf

/-- In phase STATUS the one response byte of an R1 is held, and no block has been moved (R112, R165). -/
theorem State.Inv.status {s : State} (hinv : s.Inv) (hp : s.phase = .status) :
    s.req.sel = .r1 ∧ s.resp = [s.resp.headD 0] ∧ s.bx.doneBytes = 0 := by
  have hphase := hinv.phaseInv
  rw [State.phaseInv, hp] at hphase
  obtain ⟨⟨hdone, -⟩, hsel, hlen⟩ := hphase
  obtain ⟨m, hm⟩ := List.length_eq_one_iff.1 hlen
  exact ⟨hsel, by rw [hm]; rfl, hdone⟩

theorem isFatal_iff {p : Params} {index : Nat} {m : Byte} :
    isFatal p index m = true ↔ m &&& fatalMask p index ≠ 0 := by
  simp [isFatal]

/-- In phase STATUS no block is being read, and a failure leaves the buffer as it is (R68, R211). -/
theorem State.fail_status {f : OpOutcome} {s : State} (hp : s.phase = .status) :
    s.fail f = s.endOperation (Results.only f) := by
  simp only [State.fail, State.spoilRead, hp]
  rfl

/-- A status byte with a fatal bit ends an EXECUTE (R170). -/
theorem step_status_fatal {s : State} {m : Byte} (hr : s.env.resetLine = false) (hp : s.phase = .status)
    (hop : s.req.op = .execute) (hresp : s.resp = [m]) (hm : m &&& fatalMask s.params s.req.index ≠ 0) :
    step s = .next (s.endOperation (Results.only (.statusError m))) := by
  rw [step_fetch hr, fetch_status hp]
  simp only [statusCheck, hop, hresp, List.headD_cons, if_pos (isFatal_iff.2 hm), raise, State.fail_status hp]

end Sys2Proof.Machine

namespace Sys2Proof

open Machine

/-- Settles O52: of all failures only the status check's is StatusError, and by the invariant it stands between the
response and the data phase. -/
theorem statusErrorIsFatalStatus : Obligations.StatusErrorIsFatalStatus := by
  refine ⟨fun s t bits hinv hr hstep hout hnew => ?_, fun s m hr hp hop hresp => ?_⟩
  · have hbusy : s.phase ≠ .idle := fun hidle => step_idle_not_statusError hidle hr hstep hnew hout
    obtain ⟨⟨hp, hop, rfl, hfatal⟩, hfailed⟩ := (step_wire hbusy hstep).statusError hout hnew
    obtain ⟨hsel, hresp, hdone⟩ := hinv.status hp
    exact ⟨hp, hop, hsel, hresp, hdone, isFatal_iff.1 hfatal, hfailed⟩
  · split_ifs with hm hdata
    · exact step_status_fatal hr hp hop hresp hm
    · rw [step_status_execute hr hp hop hresp (not_not.1 hm), Request.afterResponse_eq, if_pos ⟨hop, hdata⟩]
      rfl
    · rw [step_status_execute hr hp hop hresp (not_not.1 hm), Request.afterResponse_eq, if_neg fun h => hdata h.2]
      rfl

end Sys2Proof
end

section
/-! PROOFS. A step with the reset signal asserted. -/

namespace Sys2Proof.Machine

/-- In IDLE the reset signal is taken before the port is looked at (R231). -/
theorem step_reset_idle {s : State} (hr : s.env.resetLine = true) (hp : s.phase = .idle) :
    step s = .next s.hardwareReset := by
  simp only [step, stepWith, if_pos hr, if_pos hp]

/-- While an operation runs, reset is outside the specified behaviour (R232). -/
theorem step_reset_busy {s : State} (hr : s.env.resetLine = true) (hp : s.phase ≠ .idle) :
    step s = .fault .resetDuringOperation := by
  simp only [step, stepWith, if_pos hr, if_neg hp]

end Sys2Proof.Machine

namespace Sys2Proof

open Machine

/-- Settles O3: in IDLE the step is `State.hardwareReset`, whose fields are the values of R37; elsewhere it is the
fault. -/
theorem hardwareReset : Obligations.HardwareReset := by
  intro s hr
  refine ⟨fun hp => ⟨s.hardwareReset, step_reset_idle hr hp, ?_⟩, step_reset_busy hr⟩
  exact ⟨rfl, rfl, rfl, rfl, rfl, rfl, rfl, rfl, rfl, rfl, rfl, rfl⟩

end Sys2Proof
end
